-- ==== Sys2Proof/Word.lean ====
section
/-! DEFINITION. The unsigned widths of the notation (00_scope.md R11): `u8`, `u16`, `u32`. -/

namespace Sys2Proof

/-- `u8`, "a byte" (R11). -/
abbrev Byte := BitVec 8

/-- `u16` (R11). -/
abbrev Half := BitVec 16

/-- `u32` (R11). -/
abbrev Word := BitVec 32

end Sys2Proof
end

