-- ==== Sys2Proof/Config.lean ====
section
/-! DEFINITION. The implementation parameters of 00_scope.md R10, and the free value of the model.

The parameters are "an argument of the model" (R10) that no operation writes (R16): they stand in the
record `Params`, which `State` carries unchanged, so a statement about every state is a statement about
every parameter value (log entry 3). `Config.params` is the record after reset: the values
92_eei_decisions.md decides, and for a parameter that it leaves `OPEN` a constant with no body. -/

namespace Sys2Proof

/-- The parameters of R10, under its names. -/
structure Params where
  /-- `MAX_WIDTH`, 1 to 65535. -/
  maxWidth : Half
  /-- `MAX_HEIGHT`, 1 to 65535. -/
  maxHeight : Half
  /-- `LEN_MAX`, the largest legal chunk payload length. -/
  lenMax : Word
  /-- `IMG_MAX`, the capacity of the image buffer; 32 bits because `img_len` is a `u32` (log entry 12). -/
  imgMax : Word
  /-- `PROTOCOL_OVERHEAD`, 0 to 65535. -/
  protocolOverhead : Half
  /-- `HARD_CAP`, 1 to 65535. -/
  hardCap : Half
  /-- `DEFAULT_MAX_PAYLOAD`. -/
  defaultMaxPayload : Half
  /-- `FORMAT_TAG_PNG`. -/
  formatTagPng : Vector Byte 4
  /-- `FORMAT_TAG_FLAT`. -/
  formatTagFlat : Vector Byte 4
  /-- `FORMAT_TAG_RAW`. -/
  formatTagRaw : Vector Byte 4
  /-- `CHUNK_DELAY`, timing only: no rule reads it (R292, 93_implementation_defined.md U16). -/
  chunkDelay : Nat
  /-- `FRAME_TIMEOUT`, timing only: no rule reads it (R322, U16). -/
  frameTimeout : Nat
  /-- `HAS_FLAT_VARIANT`. -/
  hasFlatVariant : Bool
  /-- `SIGNATURE`. -/
  signature : Vector Byte 8
  /-- `TAG_META`. -/
  tagMeta : Vector Byte 4
  /-- `TAG_DATA`. -/
  tagData : Vector Byte 4
  /-- `TAG_END`. -/
  tagEnd : Vector Byte 4
  /-- `COLOR_MODE`. -/
  colorMode : Byte
  /-- `META_FLAGS`. -/
  metaFlags : Vector Byte 3
  /-- `ZHDR`. -/
  zhdr : Vector Byte 2
  /-- `FILTER_NONE`. -/
  filterNone : Byte
  /-- `FLAT_MAGIC`. -/
  flatMagic : Vector Byte 2
deriving DecidableEq, Repr

/-- The ranges R10 gives that the types do not: `MAX_WIDTH`, `MAX_HEIGHT` and `HARD_CAP` are at least 1. -/
def Params.wf (p : Params) : Bool :=
  decide (1 ≤ p.maxWidth.toNat) && decide (1 ≤ p.maxHeight.toNat) && decide (1 ≤ p.hardCap.toNat)

/-! The parameters 92_eei_decisions.md leaves `OPEN` (D12, D23, D25): no body, so nothing can be proved
of a value. Those whose least value is 1 are stored less one. -/

/-- `MAX_WIDTH - 1` (D12, OPEN). -/
opaque Config.maxWidthLess1 : Fin 65535

/-- `MAX_HEIGHT - 1` (D12, OPEN). -/
opaque Config.maxHeightLess1 : Fin 65535

/-- `IMG_MAX` (D25, OPEN). -/
opaque Config.imgMax : Word

/-- `PROTOCOL_OVERHEAD` (D23, OPEN). -/
opaque Config.protocolOverhead : Half

/-- `HARD_CAP - 1` (D23, OPEN). -/
opaque Config.hardCapLess1 : Fin 65535

/-- `DEFAULT_MAX_PAYLOAD` (D23, OPEN). -/
opaque Config.defaultMaxPayload : Half

/-- `FORMAT_TAG_PNG` (D23, OPEN). -/
opaque Config.formatTagPng : Vector Byte 4

/-- `FORMAT_TAG_FLAT` (D23, OPEN). -/
opaque Config.formatTagFlat : Vector Byte 4

/-- `FORMAT_TAG_RAW` (D23, OPEN). -/
opaque Config.formatTagRaw : Vector Byte 4

/-- `CHUNK_DELAY` (D23, OPEN). -/
opaque Config.chunkDelay : Nat

/-- `FRAME_TIMEOUT` (D23, OPEN). -/
opaque Config.frameTimeout : Nat

/-- The parameters after reset: the decided values (D12, D13, D16) with the defaults of R101 to R110,
and the `OPEN` constants above (log entry 3). -/
def Config.params : Params where
  maxWidth := BitVec.ofNat 16 (Config.maxWidthLess1.val + 1)
  maxHeight := BitVec.ofNat 16 (Config.maxHeightLess1.val + 1)
  lenMax := 0x7FFFFFFF#32
  imgMax := Config.imgMax
  protocolOverhead := Config.protocolOverhead
  hardCap := BitVec.ofNat 16 (Config.hardCapLess1.val + 1)
  defaultMaxPayload := Config.defaultMaxPayload
  formatTagPng := Config.formatTagPng
  formatTagFlat := Config.formatTagFlat
  formatTagRaw := Config.formatTagRaw
  chunkDelay := Config.chunkDelay
  frameTimeout := Config.frameTimeout
  hasFlatVariant := true
  signature := #v[0x89#8, 0x50#8, 0x4E#8, 0x47#8, 0x0D#8, 0x0A#8, 0x1A#8, 0x0A#8]
  tagMeta := #v[0x49#8, 0x48#8, 0x44#8, 0x52#8]
  tagData := #v[0x49#8, 0x44#8, 0x41#8, 0x54#8]
  tagEnd := #v[0x49#8, 0x45#8, 0x4E#8, 0x44#8]
  colorMode := 2#8
  metaFlags := #v[0#8, 0#8, 0#8]
  zhdr := #v[0x78#8, 0x01#8]
  filterNone := 0#8
  flatMagic := #v[0x42#8, 0x4D#8]

/-- FREE VALUE (log entry 10). The error value `e` with which the image buffer refuses a write at or
beyond `IMG_MAX` (R63, R280): the spec gives the failure and no value, "the type of `e` is the sink's
own (opaque to the block)" (R31). No body: nothing constrains it. Applied to `State.freeCount`. -/
opaque Config.imgSinkError : Nat → Nat

end Sys2Proof
end

