-- ==== Sys2Proof/Syntax.lean ====
section
/-! DEFINITION. The operations of the command port (30_encoding.md R90 to R94): their names, the ports they
travel on, and `Instr`, one constructor per row of spec/opcode_table.json. -/

namespace Sys2Proof

/-- The mnemonics of the opcode map (R94). A fault record names its operation by one of these (R46). -/
inductive Op where
  | crcInit | crcUpdate | crcFinal
  | adlerInit | adlerUpdate | adlerRead | adlerLoad
  | convRgb565 | convYuyv
  | encPng | encFlat
  | pktConfig | pktTrigger | pktPeerWrite | pktConnect | pktDisconnect
  | pktSubscribe | pktUnsubscribe | pktSetMaxPayload | pktStep
deriving DecidableEq, Repr

/-- One Frame, the record on `FRAMEIN` (R92) and in the frame source's answer (20_memory.md R61).
`pixelFormat` is the port's code, of which 0 and 1 are known formats (log entry 9). -/
structure Frame where
  pixelFormat : Nat
  width : Word
  height : Word
  rowStride : Word
  payload : List Byte
deriving DecidableEq, Repr

/-- The operand ports of R92, all of them; an operation reads those its format names (R91). -/
structure Ports where
  /-- `DIN8`. -/
  din8 : Byte
  /-- `DIN16`. -/
  din16 : Half
  /-- `DIN32`. -/
  din32 : Word
  /-- `CH`: 0 `TRIG`, 1 `META`, 2 `DATA`, any other value illegal (R95). -/
  ch : Nat
  /-- `VARIANT`: 0 `PNG`, 1 `FLAT`, 2 `RAW`, any other value illegal (R95). -/
  variant : Nat
  /-- `WIDTH`. -/
  width : Word
  /-- `ROWIN`. -/
  rowIn : List Byte
  /-- `FRAMEIN`. -/
  frameIn : Frame
deriving DecidableEq, Repr

/-- What stands on the command port: an 8-bit opcode and the operand ports (R90). -/
structure Command where
  opcode : Byte
  ports : Ports
deriving DecidableEq, Repr

/-- The twenty operations with their operands (R91, R92, R94). -/
inductive Instr where
  | crcInit
  | crcUpdate (byte : Byte)
  | crcFinal
  | adlerInit
  | adlerUpdate (byte : Byte)
  | adlerRead
  | adlerLoad (running : Word)
  | convRgb565 (width : Word) (row : List Byte)
  | convYuyv (width : Word) (row : List Byte)
  | encPng (frame : Frame)
  | encFlat (frame : Frame)
  | pktConfig (variant : Nat)
  | pktTrigger
  | pktPeerWrite (byte : Byte)
  | pktConnect
  | pktDisconnect
  | pktSubscribe (ch : Nat)
  | pktUnsubscribe (ch : Nat)
  | pktSetMaxPayload (v : Half)
  | pktStep
deriving DecidableEq, Repr

/-- The mnemonic of an operation. -/
def Instr.op : Instr → Op
  | .crcInit => .crcInit
  | .crcUpdate _ => .crcUpdate
  | .crcFinal => .crcFinal
  | .adlerInit => .adlerInit
  | .adlerUpdate _ => .adlerUpdate
  | .adlerRead => .adlerRead
  | .adlerLoad _ => .adlerLoad
  | .convRgb565 _ _ => .convRgb565
  | .convYuyv _ _ => .convYuyv
  | .encPng _ => .encPng
  | .encFlat _ => .encFlat
  | .pktConfig _ => .pktConfig
  | .pktTrigger => .pktTrigger
  | .pktPeerWrite _ => .pktPeerWrite
  | .pktConnect => .pktConnect
  | .pktDisconnect => .pktDisconnect
  | .pktSubscribe _ => .pktSubscribe
  | .pktUnsubscribe _ => .pktUnsubscribe
  | .pktSetMaxPayload _ => .pktSetMaxPayload
  | .pktStep => .pktStep

end Sys2Proof
end

