-- ==== Sys2Proof/WellFormed.lean ====
section
/-! DEFINITION. Well-formed operations: every enumerated operand is in its port's legal set (30_encoding.md
R92, R95). An operation that is not well formed still decodes and runs: it raises `IllegalOperand`
(60_exceptions.md R333) or, for a pixel format, `BadFrame` (R335). -/

namespace Sys2Proof

/-- `pixel_format` is 0 `RGB565_BE` or 1 `YUYV422` (R92). -/
def Frame.formatKnown (f : Frame) : Bool := decide (f.pixelFormat ≤ 1)

/-- Every enumerated operand is in its port's legal set (R92, R95). -/
def Instr.wf : Instr → Bool
  | .crcInit => true
  | .crcUpdate _ => true
  | .crcFinal => true
  | .adlerInit => true
  | .adlerUpdate _ => true
  | .adlerRead => true
  | .adlerLoad _ => true
  | .convRgb565 _ _ => true
  | .convYuyv _ _ => true
  | .encPng f => f.formatKnown
  | .encFlat f => f.formatKnown
  | .pktConfig v => decide (v ≤ 2)
  | .pktTrigger => true
  | .pktPeerWrite _ => true
  | .pktConnect => true
  | .pktDisconnect => true
  | .pktSubscribe ch => decide (ch ≤ 2)
  | .pktUnsubscribe ch => decide (ch ≤ 2)
  | .pktSetMaxPayload _ => true
  | .pktStep => true

end Sys2Proof
end

