-- ==== Sys2Proof/Decode.lean ====
section
/-! DEFINITION. The decoder and encoder of the command port (30_encoding.md R90 to R95). An opcode is 8 bits; every
operand travels on a named port, so decoding reads the opcode by the map of R94 and takes the operands from
the ports the operation's format names (R91). -/

namespace Sys2Proof

/-- The opcode map (R94), one row per operation, in the table's order. -/
def opcodeMap : List (Byte × Op) :=
  [(0x10#8, .crcInit), (0x11#8, .crcUpdate), (0x12#8, .crcFinal),
   (0x20#8, .adlerInit), (0x21#8, .adlerUpdate), (0x22#8, .adlerRead), (0x23#8, .adlerLoad),
   (0x30#8, .convRgb565), (0x31#8, .convYuyv),
   (0x40#8, .encPng), (0x41#8, .encFlat),
   (0x50#8, .pktConfig), (0x51#8, .pktTrigger), (0x52#8, .pktPeerWrite), (0x53#8, .pktConnect),
   (0x54#8, .pktDisconnect), (0x55#8, .pktSubscribe), (0x56#8, .pktUnsubscribe),
   (0x57#8, .pktSetMaxPayload), (0x58#8, .pktStep)]

/-- The operation of an opcode; none for the illegal opcodes of R95. -/
def Op.ofOpcode (b : Byte) : Option Op := opcodeMap.lookup b

/-- An operation with its operands taken from the ports of its format (R91). -/
def Op.instr (p : Ports) : Op → Instr
  | .crcInit => .crcInit
  | .crcUpdate => .crcUpdate p.din8
  | .crcFinal => .crcFinal
  | .adlerInit => .adlerInit
  | .adlerUpdate => .adlerUpdate p.din8
  | .adlerRead => .adlerRead
  | .adlerLoad => .adlerLoad p.din32
  | .convRgb565 => .convRgb565 p.width p.rowIn
  | .convYuyv => .convYuyv p.width p.rowIn
  | .encPng => .encPng p.frameIn
  | .encFlat => .encFlat p.frameIn
  | .pktConfig => .pktConfig p.variant
  | .pktTrigger => .pktTrigger
  | .pktPeerWrite => .pktPeerWrite p.din8
  | .pktConnect => .pktConnect
  | .pktDisconnect => .pktDisconnect
  | .pktSubscribe => .pktSubscribe p.ch
  | .pktUnsubscribe => .pktUnsubscribe p.ch
  | .pktSetMaxPayload => .pktSetMaxPayload p.din16
  | .pktStep => .pktStep

/-- Why a command is rejected: its opcode is not in the map (R95). -/
inductive DecodeError where
  | illegalOpcode (opcode : Byte)
deriving DecidableEq, Repr

/-- The decoder, total on every command. -/
def decode (c : Command) : Except DecodeError Instr :=
  match Op.ofOpcode c.opcode with
  | some op => .ok (op.instr c.ports)
  | none => .error (.illegalOpcode c.opcode)

/-- A frame port with nothing on it: every field zero, no payload byte. -/
def Frame.zero : Frame := ⟨0, 0#32, 0#32, 0#32, []⟩

/-- Operand ports with nothing on them: zeros, an empty row, the zero frame. -/
def Ports.zero : Ports := ⟨0#8, 0#16, 0#32, 0, 0, 0#32, [], Frame.zero⟩

/-- The opcode of an operation, from the table of R94: `unit` in bits 7:4, `func` in bits 3:0 (R91). -/
def Op.opcode : Op → Byte
  | .crcInit => 0x10#8
  | .crcUpdate => 0x11#8
  | .crcFinal => 0x12#8
  | .adlerInit => 0x20#8
  | .adlerUpdate => 0x21#8
  | .adlerRead => 0x22#8
  | .adlerLoad => 0x23#8
  | .convRgb565 => 0x30#8
  | .convYuyv => 0x31#8
  | .encPng => 0x40#8
  | .encFlat => 0x41#8
  | .pktConfig => 0x50#8
  | .pktTrigger => 0x51#8
  | .pktPeerWrite => 0x52#8
  | .pktConnect => 0x53#8
  | .pktDisconnect => 0x54#8
  | .pktSubscribe => 0x55#8
  | .pktUnsubscribe => 0x56#8
  | .pktSetMaxPayload => 0x57#8
  | .pktStep => 0x58#8

/-- The operand ports of an operation (R91), the others with nothing on them. -/
def Instr.ports : Instr → Ports
  | .crcInit => Ports.zero
  | .crcUpdate b => { Ports.zero with din8 := b }
  | .crcFinal => Ports.zero
  | .adlerInit => Ports.zero
  | .adlerUpdate b => { Ports.zero with din8 := b }
  | .adlerRead => Ports.zero
  | .adlerLoad v => { Ports.zero with din32 := v }
  | .convRgb565 w row => { Ports.zero with width := w, rowIn := row }
  | .convYuyv w row => { Ports.zero with width := w, rowIn := row }
  | .encPng f => { Ports.zero with frameIn := f }
  | .encFlat f => { Ports.zero with frameIn := f }
  | .pktConfig v => { Ports.zero with variant := v }
  | .pktTrigger => Ports.zero
  | .pktPeerWrite b => { Ports.zero with din8 := b }
  | .pktConnect => Ports.zero
  | .pktDisconnect => Ports.zero
  | .pktSubscribe ch => { Ports.zero with ch := ch }
  | .pktUnsubscribe ch => { Ports.zero with ch := ch }
  | .pktSetMaxPayload v => { Ports.zero with din16 := v }
  | .pktStep => Ports.zero

/-- The encoder: the command that presents an operation. -/
def encode (i : Instr) : Command := ⟨i.op.opcode, i.ports⟩

/-- The decoder on a row of spec/opcode_table.json: an opcode of 8 bits with nothing on the operand
ports. A word with bits above bit 7, or another length, is no command of this block (R90). -/
def decodeTableWord (nbits w : Nat) : Option Instr :=
  if nbits = 8 ∧ w < 256 then
    match decode ⟨BitVec.ofNat 8 w, Ports.zero⟩ with
    | .ok i => some i
    | .error _ => none
  else none

end Sys2Proof
end

