-- ==== Sys2Proof/Machine/State.lean ====
section
/-! DEFINITION. The state of the block (10_state.md R20 to R49), its value after reset (70_reset_and_hazards.md R360),
and the reasons a step can stop. An `Option` is the spec's "no value" (R21), never a missing reset value. -/

namespace Sys2Proof.Machine

/-! ### Names and small records -/

/-- The error value of a sink, opaque to the block: it is only copied (R31; log entry 10). -/
abbrev SinkError := Nat

/-- The pair of 16-bit Adler sums (R23, R29): always written and released together. -/
structure Adler where
  a : Half
  b : Half
deriving DecidableEq, Repr

/-- "Pixel(R,G,B): three 8-bit channels" (R24). -/
structure Pixel where
  r : Byte
  g : Byte
  b : Byte
deriving DecidableEq, Repr

/-- `pixel_format` (R27). -/
inductive PixelFormat where
  | rgb565be | yuyv422
deriving DecidableEq, Repr

/-- `enc_variant` (R27): the checksum-framed and the flat container. -/
inductive Variant where
  | png | flat
deriving DecidableEq, Repr

/-- The image format of a job, `cfg_variant` and `img_format` (R33, R39). -/
inductive ImageFormat where
  | png | flat | raw
deriving DecidableEq, Repr

/-- `enc_phase` (R26). -/
inductive EncPhase where
  | idle | sig | metadata | dataHead | zhdr | rows | trailer | dataCrc | endChunk | done | aborted
  | flatHead | flatRows
deriving DecidableEq, Repr

/-- `pk_state` (R34). -/
inductive PkState where
  | idle | capturing | announcing | streaming | done | failed
deriving DecidableEq, Repr

/-- `pk_reason`, the six names of the failure taxonomy (R35, R321 to R326). -/
inductive Reason where
  | sourceUnavailable | noFrame | unsupportedFormat | encodeError | noSubscriber | transferAborted
deriving DecidableEq, Repr

/-- `last_outcome` (R40). -/
inductive JobOutcome where
  | none | done | failed (reason : Reason)
deriving DecidableEq, Repr

/-- The logical channels (R42, R112). -/
inductive Channel where
  | trig | metadata | data
deriving DecidableEq, Repr

/-! ### Fault records (60_exceptions.md R330) -/

/-- The state element that `UseBeforeInit` names (R331; log entry 23). -/
inductive Element where
  /-- `crc_acc`. -/
  | crcAcc
  /-- `adler_a`, `adler_b`. -/
  | adlerAcc
  /-- `enc_crc`. -/
  | encCrc
  /-- `enc_a`, `enc_b`. -/
  | encAdler
  /-- `enc_remaining`, `enc_blk_left`. -/
  | encCounters
  /-- `pk_reason`. -/
  | pkReason
  /-- `img_format`, `img_width`, `img_height`, `img_len`. -/
  | image
  /-- A byte of the image buffer `IMG`. -/
  | imgBytes
  /-- `bytes_sent`, `chunk_size`. -/
  | transfer
deriving DecidableEq, Repr

/-- The condition of encoder acceptance (44_container_encoder.md R202) that `BadFrame` names (R335). -/
inductive FrameCondition where
  /-- R202 (a): unknown `pixel_format`. -/
  | pixelFormat
  /-- R202 (b), (c): `width` or `height` zero or above its maximum. -/
  | dimensions
  /-- R202 (d): `row_stride_bytes` below the bytes a row needs. -/
  | stride
  /-- R202 (d): the payload is shorter than the last row requires. -/
  | payload
  /-- R202 (e): a size does not fit its field. -/
  | length
deriving DecidableEq, Repr

/-- A record of the set `faults` (R46, R330): the fault, the operation that raised it, its info. -/
inductive FaultRecord where
  /-- R331. -/
  | useBeforeInit (op : Op) (element : Element)
  /-- R332. -/
  | illegalOpcode (opcode : Byte)
  /-- R333. -/
  | illegalOperand (op : Op) (value : Nat)
  /-- R334. -/
  | rowTooShort (op : Op) (have_ need : Nat)
  /-- R335: every condition that fails (log entry 8). -/
  | badFrame (op : Op) (which : List FrameCondition)
  /-- R336, raised by `PKT_STEP`. -/
  | badChunkSize (maxPayload : Half)
deriving DecidableEq, Repr

/-! ### The encoder (R25 to R31) -/

/-- The operands of a run, latched when it is accepted (R27). -/
structure EncOperands where
  variant : Variant
  format : PixelFormat
  width : Word
  height : Word
  stride : Word
deriving DecidableEq, Repr

/-- The encoder's registers. A run is one atomic step (R203), so between steps all but `phase` and
`err` hold no value (R27 to R30, R231; log entry 13). -/
structure Encoder where
  /-- `enc_phase` (R26). -/
  phase : EncPhase
  /-- `enc_variant`, `enc_format`, `enc_width`, `enc_height`, `enc_stride` (R27). -/
  operands : Option EncOperands
  /-- `enc_row` (R28). -/
  row : Option Word
  /-- `enc_data_len` (R28). -/
  dataLen : Option Nat
  /-- `enc_remaining` (R28). -/
  remaining : Option Nat
  /-- `enc_blk_left` (R28). -/
  blkLeft : Option Half
  /-- `enc_crc` (R29). -/
  crc : Option Word
  /-- `enc_a`, `enc_b` (R29). -/
  adler : Option Adler
  /-- `rowbuf` (R30), the space `ROW` (20_memory.md R62). -/
  rowbuf : Option (List Byte)
  /-- `enc_err` (R31). -/
  err : Option SinkError
deriving DecidableEq, Repr

/-- The encoder with no run in progress: `phase`, `err`, and no other value (R360, R232). -/
def Encoder.resting (phase : EncPhase) (err : Option SinkError) : Encoder :=
  ⟨phase, none, none, none, none, none, none, none, none, err⟩

/-- A run in progress, as the emitting procedures of R205 and R241 pass it on: the encoder and the
bytes the sink has accepted, or how the run ended early. -/
inductive Run where
  /-- Every write so far was accepted. -/
  | going (e : Encoder) (out : List Byte)
  /-- A write was answered `error(err)` after the bytes `out` were accepted (R231). -/
  | aborted (err : SinkError) (out : List Byte)
  /-- A register holding no value was read (R21); no run reaches this (log entry 5). -/
  | noValue (el : Element)
deriving DecidableEq, Repr

/-! ### Memory (20_memory.md R60, R63) -/

/-- The image buffer `IMG`: the bytes written, by address. An address not listed holds no value
(R39, R360). Canonical form: addresses strictly rising (`Memory.wf`). -/
abbrev Memory := List Host.Cell

/-- What an unlisted address reads as: no value (R21, R360). -/
def Memory.unlisted : Option Byte := none

/-- The canonical form: addresses strictly rising. No listed entry equals what an unlisted address
reads as, since that is no value. -/
abbrev Memory.wf (m : Memory) : Prop := m.Pairwise fun x y => x.1 < y.1

/-! ### The packetizer (R32 to R45) -/

/-- The job record, the source's TransferJob with its EncodedImage (R32 to R39). -/
structure Job where
  /-- `pk_state` (R34). -/
  state : PkState
  /-- `pk_reason` (R35). -/
  reason : Option Reason
  /-- `bytes_sent` (R36). -/
  bytesSent : Option Word
  /-- `chunk_size` (R37). -/
  chunkSize : Option Half
  /-- `job_epoch` (R38). -/
  epoch : Option Nat
  /-- `img_valid` (R39). -/
  imgValid : Bool
  /-- `img_format` (R39). -/
  imgFormat : Option ImageFormat
  /-- `img_width` (R39). -/
  imgWidth : Option Half
  /-- `img_height` (R39). -/
  imgHeight : Option Half
  /-- `img_len` (R39). -/
  imgLen : Option Word
deriving DecidableEq, Repr

/-- The record when no job exists: every field but `pk_state` without a value (R32, R360). -/
def Job.noJob : Job := ⟨.idle, none, none, none, none, false, none, none, none, none⟩

/-- The session record, the source's PeerSession (R41 to R44). -/
structure Session where
  /-- `connected` (R41). -/
  connected : Bool
  /-- `notif_en` bit 0, `META` (R42). -/
  notifMeta : Bool
  /-- `notif_en` bit 1, `DATA` (R42). -/
  notifData : Bool
  /-- `max_payload_bytes` (R43). -/
  maxPayload : Half
  /-- `epoch` (R44). -/
  epoch : Nat
deriving DecidableEq, Repr

/-! ### Ports, oracles, schedule -/

/-- `STATUS` (30_encoding.md R93). -/
inductive Status where
  | ok | abort (e : SinkError)
deriving DecidableEq, Repr

/-- The result ports (R93); each holds a value only as the result of the operation that wrote it. -/
structure Results where
  /-- `DOUT32`. -/
  dout32 : Option Word
  /-- `PIX`. -/
  pix : Option (List Pixel)
  /-- `STATUS`. -/
  status : Option Status
deriving DecidableEq, Repr

/-- Result ports without a value (R360). -/
def Results.empty : Results := ⟨none, none, none⟩

/-- What the frame source answers to `Acquire()` (46_packetizer.md R278). -/
inductive AcquireAnswer where
  | frame (f : Frame) | timeout | unavailable | unsupported
deriving DecidableEq, Repr

/-- What the notification channel answers to `Send` when it is free to choose (R285). -/
inductive SendAnswer where
  | ok | fail
deriving DecidableEq, Repr

/-- The sink's refusal in one encoder run: the first write it answers with an error, counted from 0,
and the error value (R65, R231). A run ends at the first error, so this is all its answers. -/
structure SinkFailure where
  index : Nat
  error : SinkError
deriving DecidableEq, Repr

/-- What the three oracles of R15 answer to one operation (R16, R385; log entry 2). -/
structure Answers where
  acquire : AcquireAnswer
  send : SendAnswer
  /-- none: every `SinkWrite` is answered `ok`. -/
  sink : Option SinkFailure
deriving DecidableEq, Repr

/-- One entry of the schedule: a command and the oracle answers it consumes (R385). -/
structure Request where
  command : Command
  answers : Answers
deriving DecidableEq, Repr

/-! ### The state -/

/-- The whole state: every element of R20 and R360, the environment histories of R47, the inputs of
R385 with the oracle answers of R16, and the parameters of R10. -/
structure State where
  /-- `crc_acc` (R22). -/
  crcAcc : Option Word
  /-- `adler_a`, `adler_b` (R23). -/
  adler : Option Adler
  /-- The encoder's registers (R26 to R31). -/
  enc : Encoder
  /-- `cfg_variant` (R33). -/
  cfgVariant : ImageFormat
  /-- The job record (R32 to R39). -/
  job : Job
  /-- The image buffer `IMG` (R39, R63). -/
  img : Memory
  /-- `last_outcome` (R40). -/
  lastOutcome : JobOutcome
  /-- The session record (R41 to R45). -/
  session : Session
  /-- `faults` (R46): a set, as a list with no repeats (log entry 7). -/
  faults : List FaultRecord
  /-- `sink`, the bytes accepted since the start of the last stand-alone run (R47). -/
  sink : List Byte
  /-- `outbox`, the messages sent with `ok` since reset, oldest first (R47). -/
  outbox : List (Channel × List Byte)
  /-- The result ports (R93). -/
  results : Results
  /-- The operations and events still to come, the next first (R385; log entry 1). -/
  inputs : List Request
  /-- The oracle answers to the operation in hand (R16; log entry 2). -/
  answers : Answers
  /-- The parameters of R10; no operation writes them (R16; log entry 3). -/
  params : Params
  /-- The model's own counter of free values drawn (log entry 10). -/
  freeCount : Nat
deriving DecidableEq, Repr

/-- Why a step stops with a fault. No constructor: "The block does not stop" (R330); a fault of this
block is a record in `State.faults` and a next state (log entry 6). Safe: nothing is cut short. -/
inductive Fault where
deriving DecidableEq, Repr

/-- Why a step has no meaning. -/
inductive Refusal where
  /-- Raised by an arm of `exec` whose instruction has no meaning yet; no arm is left. Safe: the machine
  stops where the hardware goes on. -/
  | notModelled (mnemonic : String)
deriving DecidableEq, Repr

/-- The session after reset and after a disconnect, but for `epoch` (R360, R266). -/
def Session.closed (p : Params) (epoch : Nat) : Session := ⟨false, false, false, p.defaultMaxPayload, epoch⟩

/-- The block right after reset (R360). The last four fields are the model's own: nothing presented
(log entry 1), standing answers that no operation consumes (log entry 2), the parameters (log entry 3),
no free value drawn (log entry 10). -/
def State.reset : State where
  crcAcc := Option.none
  adler := Option.none
  enc := Encoder.resting .idle Option.none
  cfgVariant := .png
  job := Job.noJob
  img := []
  lastOutcome := .none
  session := Session.closed Config.params 0
  faults := []
  sink := []
  outbox := []
  results := Results.empty
  inputs := []
  answers := ⟨.timeout, .fail, Option.none⟩
  params := Config.params
  freeCount := 0

end Sys2Proof.Machine
end

