-- ==== Sys2Proof/Machine/Operands.lean ====
section
/-! DEFINITION. Operands and byte layouts: the byte-order helpers of 00_scope.md R13, the enumerated operand ports of
30_encoding.md R92, and the assembly of pixel words (R98). -/

namespace Sys2Proof.Machine

/-! ### Byte order (R13) -/

/-- Byte `k` of a value, byte 0 the least significant. -/
def byteAt {w : Nat} (v : BitVec w) (k : Nat) : Byte := v.extractLsb' (8 * k) 8

/-- `be16(v)`. -/
def be16 (v : Half) : List Byte := [byteAt v 1, byteAt v 0]

/-- `be32(v)`. -/
def be32 (v : Word) : List Byte := [byteAt v 3, byteAt v 2, byteAt v 1, byteAt v 0]

/-- `le16(v)`. -/
def le16 (v : Half) : List Byte := [byteAt v 0, byteAt v 1]

/-- `le32(v)`. -/
def le32 (v : Word) : List Byte := [byteAt v 0, byteAt v 1, byteAt v 2, byteAt v 3]

/-- `be32` of a count, for a rule that writes an integer the spec bounds by 32 bits. -/
def be32n (n : Nat) : List Byte := be32 (BitVec.ofNat 32 n)

/-- `le32` of a count. -/
def le32n (n : Nat) : List Byte := le32 (BitVec.ofNat 32 n)

/-- `le16` of a count. -/
def le16n (n : Nat) : List Byte := le16 (BitVec.ofNat 16 n)

/-- `ceil(a / b)` for a positive `b` (R11). -/
def ceilDiv (a b : Nat) : Nat := (a + b - 1) / b

/-! ### Enumerated operands (R92) -/

/-- The channel of the port `CH`; none when it is illegal (R95). -/
def Channel.ofPort? : Nat → Option Channel
  | 0 => some .trig
  | 1 => some .metadata
  | 2 => some .data
  | _ => none

/-- The image format of the port `VARIANT`; none when it is above 2 (R95). -/
def ImageFormat.ofPort? : Nat → Option ImageFormat
  | 0 => some .png
  | 1 => some .flat
  | 2 => some .raw
  | _ => none

/-- The pixel format of a frame's code; none when it is unknown (R202 (a)). -/
def PixelFormat.ofCode? : Nat → Option PixelFormat
  | 0 => some .rgb565be
  | 1 => some .yuyv422
  | _ => none

/-- The bytes a converter consumes for `width` pixels (R172, R187). -/
def PixelFormat.need (width : Nat) : PixelFormat → Nat
  | .rgb565be => 2 * width
  | .yuyv422 => 4 * ceilDiv width 2

/-! ### Pixel operands (R98) -/

/-- The pixel word of two row bytes, high byte first (R98, R171). -/
def pixelWord (hi lo : Byte) : Half := (hi.setWidth 16 <<< 8) ||| lo.setWidth 16

/-- The 5-bit expansion `(v << 3) | (v >> 2)` on 8 bits (R171, R174). -/
def expand5 (v : BitVec 5) : Byte := (v.setWidth 8 <<< 3) ||| (v.setWidth 8 >>> 2)

/-- The 6-bit expansion `(v << 2) | (v >> 4)` on 8 bits (R171, R174). -/
def expand6 (v : BitVec 6) : Byte := (v.setWidth 8 <<< 2) ||| (v.setWidth 8 >>> 4)

/-- `asr(x, n)`: the arithmetic right shift, `floor(x / 2^n)` (R12). -/
def asr (x : Int) (n : Nat) : Int := x / (2 ^ n : Int)

/-- `clamp255(x)` (R12). -/
def clamp255 (x : Int) : Byte := if x < 0 then 0#8 else if x > 255 then 255#8 else BitVec.ofInt 8 x

/-- A triple in the order of the checksum-framed container (R68). -/
def Pixel.rgb (p : Pixel) : List Byte := [p.r, p.g, p.b]

/-- A triple in the order of the flat container (R244). -/
def Pixel.bgr (p : Pixel) : List Byte := [p.b, p.g, p.r]

end Sys2Proof.Machine
end

