-- ==== Sys2Proof/Machine/Flags.lean ====
section
/-! DEFINITION. The block has no condition codes (10_state.md R48): what a program can test are the sequencers, the
failure reason, the last outcome and the fault set. Here: the numeric codes the spec gives the enumerations, and
the record of a fault (60_exceptions.md R330). No rule depends on a code (92_eei_decisions.md D30). -/

namespace Sys2Proof.Machine

/-- The code of `enc_phase` (R26). -/
def EncPhase.code : EncPhase → Nat
  | .idle => 0
  | .sig => 1
  | .metadata => 2
  | .dataHead => 3
  | .zhdr => 4
  | .rows => 5
  | .trailer => 6
  | .dataCrc => 7
  | .endChunk => 8
  | .done => 9
  | .aborted => 10
  | .flatHead => 11
  | .flatRows => 12

/-- A resting phase: `IDLE`, `DONE` or `ABORTED`, from which a run is accepted (R203). -/
def EncPhase.isResting : EncPhase → Bool
  | .idle | .done | .aborted => true
  | _ => false

/-- The code of `enc_variant` (R27). -/
def Variant.code : Variant → Nat
  | .png => 0
  | .flat => 1

/-- The code of `cfg_variant` and `img_format` (R33, R39). -/
def ImageFormat.code : ImageFormat → Nat
  | .png => 0
  | .flat => 1
  | .raw => 2

/-- The code of `enc_format` (R27). -/
def PixelFormat.code : PixelFormat → Nat
  | .rgb565be => 0
  | .yuyv422 => 1

/-- The code of `pk_state` (R34). -/
def PkState.code : PkState → Nat
  | .idle => 0
  | .capturing => 1
  | .announcing => 2
  | .streaming => 3
  | .done => 4
  | .failed => 5

/-- The code of `pk_reason` (R35). -/
def Reason.code : Reason → Nat
  | .sourceUnavailable => 1
  | .noFrame => 2
  | .unsupportedFormat => 3
  | .encodeError => 4
  | .noSubscriber => 5
  | .transferAborted => 6

/-- The code of `last_outcome` (R40): `Failed(reason)` is 16 plus the reason's code. -/
def JobOutcome.code : JobOutcome → Nat
  | .none => 0
  | .done => 1
  | .failed r => 16 + r.code

/-- The id of a channel (R42). -/
def Channel.id : Channel → Nat
  | .trig => 0
  | .metadata => 1
  | .data => 2

/-- `raise F(info)`: adds the record to the sticky set `faults` and changes nothing else (R46, R330). -/
def State.raise (r : FaultRecord) (s : State) : State :=
  { s with faults := if r ∈ s.faults then s.faults else s.faults ++ [r] }

end Sys2Proof.Machine
end

