-- ==== Sys2Proof/Machine/Ops.lean ====
section
/-! DEFINITION. The shared operations: the checksum steps, the image buffer, emission to a sink, `Send`, the entry into a
job failure and the return from it, and the command port. -/

namespace Sys2Proof.Machine

/-! ### CRC32 (40_crc32.md) -/

/-- One round of the table's construction: shift right, and exclusive-or the polynomial if bit 0 was
set (R131). -/
def crcRound (c : Word) : Word := if c.getLsbD 0 then 0xEDB88320#32 ^^^ (c >>> 1) else c >>> 1

/-- Eight rounds (R131, R138). -/
def crcRounds8 (c : Word) : Word :=
  crcRound (crcRound (crcRound (crcRound (crcRound (crcRound (crcRound (crcRound c)))))))

/-- `CRCTAB[n]`, the constant table of R131 (R136 lists it). -/
def crcTab (n : Byte) : Word := crcRounds8 (n.setWidth 32)

/-- The accumulator's start, all ones (R132). -/
def crcStart : Word := 0xFFFFFFFF#32

/-- One byte of the CRC: `CRCTAB[(acc ^ byte)[7:0]] ^ (acc >> 8)` (R133). -/
def crcStep (acc : Word) (byte : Byte) : Word :=
  crcTab ((acc ^^^ byte.setWidth 32).setWidth 8) ^^^ (acc >>> 8)

/-- The accumulator after a byte sequence. -/
def crcFeed (acc : Word) (bs : List Byte) : Word := bs.foldl crcStep acc

/-- `CRC32(s)` (R135). -/
def crc32 (bs : List Byte) : Word := ~~~ (crcFeed crcStart bs)

/-! ### Adler32 (41_adler32.md) -/

/-- The Adler modulus (R151). -/
def adlerMod : Nat := 65521

/-- The sums' start: a = 1, b = 0 (R152). -/
def adlerStart : Adler := ⟨1#16, 0#16⟩

/-- One byte of the Adler sums, the new `a` used in `b` (R151, R153). -/
def adlerStep (x : Adler) (byte : Byte) : Adler :=
  let a := (x.a.toNat + byte.toNat) % adlerMod
  ⟨BitVec.ofNat 16 a, BitVec.ofNat 16 ((x.b.toNat + a) % adlerMod)⟩

/-- The sums after a byte sequence. -/
def adlerFeed (x : Adler) (bs : List Byte) : Adler := bs.foldl adlerStep x

/-- `(b << 16) | a` (R154). -/
def Adler.pack (x : Adler) : Word := (x.b.setWidth 32 <<< 16) ||| x.a.setWidth 32

/-- The halves of a packed value (R155). -/
def Adler.unpack (v : Word) : Adler := ⟨v.extractLsb' 0 16, v.extractLsb' 16 16⟩

/-- `ADLER32(running, s)` (R156). -/
def adler32 (running : Word) (bs : List Byte) : Word := (adlerFeed (Adler.unpack running) bs).pack

/-! ### The image buffer (20_memory.md R63, R79) -/

/-- The byte at an address; an address not listed holds no value (R21, R39). -/
def Memory.read (m : Memory) (addr : Nat) : Option Byte :=
  match m with
  | [] => Memory.unlisted
  | (k, b) :: rest => if k = addr then some b else Memory.read rest addr

/-- Writes one byte, keeping the addresses rising. -/
def Memory.write (m : Memory) (addr : Nat) (byte : Byte) : Memory :=
  match m with
  | [] => [(addr, byte)]
  | (k, b) :: rest =>
    if addr < k then (addr, byte) :: (k, b) :: rest
    else if addr = k then (addr, byte) :: rest
    else (k, b) :: Memory.write rest addr byte

/-- `MemRead(IMG, addr, n)`: `n` bytes in address order (R79); none when one of them holds no value. -/
def Memory.readBytes (m : Memory) (addr : Nat) : Nat → Option (List Byte)
  | 0 => some []
  | n + 1 =>
    match m.read addr, Memory.readBytes m (addr + 1) n with
    | some b, some bs => some (b :: bs)
    | _, _ => none

/-- Writes a byte sequence from an address on, one `MemWrite` a byte (R63, R280). -/
def Memory.writeBytes (m : Memory) (addr : Nat) : List Byte → Memory
  | [] => m
  | b :: bs => Memory.writeBytes (m.write addr b) (addr + 1) bs

/-! ### Emission to a sink (44_container_encoder.md R205, R231) -/

/-- Goes on with a run that every write so far was accepted in; "leaves the procedure" otherwise (R231). -/
def Run.andThen (r : Run) (k : Encoder → List Byte → Run) : Run :=
  match r with
  | .going e out => k e out
  | .aborted err out => .aborted err out
  | .noValue el => .noValue el

/-- One `SinkWrite` (R14, R65). The sink answers `ok` to every write before the one it fails. -/
def sinkWrite (sink : Option SinkFailure) (byte : Byte) (e : Encoder) (out : List Byte) : Run :=
  match sink with
  | none => .going e (out ++ [byte])
  | some x => if out.length < x.index then .going e (out ++ [byte]) else .aborted x.error out

/-- `Emit(bytes)` (R205). -/
def emit (sink : Option SinkFailure) : List Byte → Encoder → List Byte → Run
  | [], e, out => .going e out
  | b :: bs, e, out => (sinkWrite sink b e out).andThen (emit sink bs)

/-- `EmitC(bytes)`: each byte written and then fed to `enc_crc` (R205). -/
def emitC (sink : Option SinkFailure) : List Byte → Encoder → List Byte → Run
  | [], e, out => .going e out
  | b :: bs, e, out =>
    (sinkWrite sink b e out).andThen fun e out =>
      match e.crc with
      | some c => emitC sink bs { e with crc := some (crcStep c b) } out
      | none => .noValue .encCrc

/-! ### Job failure: entry and return (60_exceptions.md R320) -/

/-- `Fail(reason)`: the two writes `pk_reason <- reason; pk_state <- Failed` (R276, R320). -/
def State.fail (r : Reason) (s : State) : State :=
  { s with job := { s.job with reason := some r, state := .failed } }

/-- The release step, the return from `Done` and `Failed` (46_packetizer.md R296): the outcome is
recorded and every job field is released. -/
def State.release (outcome : JobOutcome) (s : State) : State :=
  { s with lastOutcome := outcome, job := Job.noJob, img := [] }

/-! ### Send (46_packetizer.md R285) -/

/-- The channel is in `notif_en` (R42); `TRIG` is inbound and never is. -/
def Session.enabled (se : Session) : Channel → Bool
  | .trig => false
  | .metadata => se.notifMeta
  | .data => se.notifData

/-- `Send` must answer `fail`, whatever the channel would say: not connected, the channel not enabled,
or the job announced to another session (R285). -/
def Session.forcesFail (se : Session) (jobEpoch : Option Nat) (ch : Channel) : Bool :=
  !se.connected || !se.enabled ch ||
    (match jobEpoch with
     | some k => decide (se.epoch ≠ k)
     | none => false)

/-- `Send(ch, bytes)` against the snapshot `snap` of the calling step: none is the answer `fail`, and on
`ok` the pair is appended to `outbox` (R285). -/
def State.send (snap : Session) (ch : Channel) (bytes : List Byte) (s : State) : Option State :=
  if snap.forcesFail s.job.epoch ch then none
  else
    match s.answers.send with
    | .ok => some { s with outbox := s.outbox ++ [(ch, bytes)] }
    | .fail => none

/-! ### The command port (30_encoding.md R90 to R95) -/

/-- Takes the next request: its answers become the oracle answers of the operation in hand, and the
result ports hold no value until the operation writes one (R93; log entries 1, 2, 4). -/
def State.takeRequest (s : State) : Option (Command × State) :=
  match s.inputs with
  | [] => none
  | r :: rest =>
    some (r.command, { s with inputs := rest, answers := r.answers, results := Results.empty })

/-- What a rejected command does: `IllegalOpcode(opcode)` and nothing else (R95, R332). -/
def State.reject (e : DecodeError) (s : State) : State :=
  match e with
  | .illegalOpcode b => s.raise (.illegalOpcode b)

/-- Presents an opcode with nothing on the operand ports as the next request; the standing answers are
those it will consume. -/
def State.present (opcode : Byte) (s : State) : State :=
  { s with inputs := ⟨⟨opcode, Ports.zero⟩, s.answers⟩ :: s.inputs }

end Sys2Proof.Machine
end

