-- ==== Sys2Proof/Machine/Adler32.lean ====
section
/-! DEFINITION. The Adler32 unit (41_adler32.md): `ADLER_INIT`, `ADLER_UPDATE`, `ADLER_READ`, `ADLER_LOAD`. -/

namespace Sys2Proof.Machine

/-- `ADLER_INIT` (R152). -/
def execAdlerInit (s : State) : Host.Outcome State Fault Refusal :=
  .next { s with adler := some adlerStart }

/-- `ADLER_UPDATE byte` (R153). -/
def execAdlerUpdate (byte : Byte) (s : State) : Host.Outcome State Fault Refusal :=
  match s.adler with
  | some x => .next { s with adler := some (adlerStep x byte) }
  | none => .next (s.raise (.useBeforeInit .adlerUpdate .adlerAcc))

/-- `ADLER_READ -> v` (R154). -/
def execAdlerRead (s : State) : Host.Outcome State Fault Refusal :=
  match s.adler with
  | some x => .next { s with results := { s.results with dout32 := some x.pack } }
  | none =>
    .next ({ s with results := { s.results with dout32 := none } }.raise (.useBeforeInit .adlerRead .adlerAcc))

/-- `ADLER_LOAD running` (R155): the halves as they are, reduced or not. -/
def execAdlerLoad (running : Word) (s : State) : Host.Outcome State Fault Refusal :=
  .next { s with adler := some (Adler.unpack running) }

end Sys2Proof.Machine
end

