-- ==== Sys2Proof/Machine/Crc32.lean ====
section
/-! DEFINITION. The CRC32 unit (40_crc32.md): `CRC_INIT`, `CRC_UPDATE`, `CRC_FINAL`. -/

namespace Sys2Proof.Machine

/-- `CRC_INIT` (R132). -/
def execCrcInit (s : State) : Host.Outcome State Fault Refusal :=
  .next { s with crcAcc := some crcStart }

/-- `CRC_UPDATE byte` (R133). -/
def execCrcUpdate (byte : Byte) (s : State) : Host.Outcome State Fault Refusal :=
  match s.crcAcc with
  | some acc => .next { s with crcAcc := some (crcStep acc byte) }
  | none => .next (s.raise (.useBeforeInit .crcUpdate .crcAcc))

/-- `CRC_FINAL -> v` (R134): the accumulator is read, inverted, and kept. -/
def execCrcFinal (s : State) : Host.Outcome State Fault Refusal :=
  match s.crcAcc with
  | some acc => .next { s with results := { s.results with dout32 := some (~~~ acc) } }
  | none =>
    .next ({ s with results := { s.results with dout32 := none } }.raise (.useBeforeInit .crcFinal .crcAcc))

end Sys2Proof.Machine
end

