-- ==== Sys2Proof/Machine/Rgb565.lean ====
section
/-! DEFINITION. The RGB565-to-RGB24 converter (42_rgb565.md): `CONV_RGB565`. -/

namespace Sys2Proof.Machine

/-- `RGB565(hi, lo) -> (R, G, B)` (R171). -/
def rgb565Pixel (hi lo : Byte) : Pixel :=
  let v := pixelWord hi lo
  ⟨expand5 (v.extractLsb' 11 5), expand6 (v.extractLsb' 5 6), expand5 (v.extractLsb' 0 5)⟩

/-- The first `width` pixels of a row, pixel `i` from bytes `2i` and `2i + 1` (R172); fewer when the
slice ends first. -/
def rgb565Row : Nat → List Byte → List Pixel
  | width + 1, hi :: lo :: rest => rgb565Pixel hi lo :: rgb565Row width rest
  | _, _ => []

/-- `CONV_RGB565 width, row -> pix` (R173): a slice too short gives `RowTooShort` and no pixel (R334). -/
def execConvRgb565 (width : Word) (row : List Byte) (s : State) : Host.Outcome State Fault Refusal :=
  if row.length < 2 * width.toNat then
    .next ({ s with results := { s.results with pix := none } }.raise
      (.rowTooShort .convRgb565 row.length (2 * width.toNat)))
  else .next { s with results := { s.results with pix := some (rgb565Row width.toNat row) } }

end Sys2Proof.Machine
end

