-- ==== Sys2Proof/Machine/Yuyv.lean ====
section
/-! DEFINITION. The YUYV422-to-RGB24 converter (43_yuyv422.md): `CONV_YUYV`. -/

namespace Sys2Proof.Machine

/-- The red sum before the shift (R188). -/
def yuvRedSum (y v : Byte) : Int := 298 * ((y.toNat : Int) - 16) + 409 * ((v.toNat : Int) - 128) + 128

/-- The green sum before the shift (R188). -/
def yuvGreenSum (y u v : Byte) : Int :=
  298 * ((y.toNat : Int) - 16) - 100 * ((u.toNat : Int) - 128) - 208 * ((v.toNat : Int) - 128) + 128

/-- The blue sum before the shift (R188). -/
def yuvBlueSum (y u : Byte) : Int := 298 * ((y.toNat : Int) - 16) + 516 * ((u.toNat : Int) - 128) + 128

/-- `YUV(Y, U, V) -> (R, G, B)` (R188). -/
def yuvPixel (y u v : Byte) : Pixel :=
  ⟨clamp255 (asr (yuvRedSum y v) 8), clamp255 (asr (yuvGreenSum y u v) 8), clamp255 (asr (yuvBlueSum y u) 8)⟩

/-- The first `width` pixels of a row of 4-byte groups `Y0 U Y1 V` (R186, R188); of a trailing half group
the left pixel only (R189); fewer when the slice ends first. -/
def yuyvRow : Nat → List Byte → List Pixel
  | 1, y0 :: u :: _ :: v :: _ => [yuvPixel y0 u v]
  | width + 2, y0 :: u :: y1 :: v :: rest => yuvPixel y0 u v :: yuvPixel y1 u v :: yuyvRow width rest
  | _, _ => []

/-- `CONV_YUYV width, row -> pix` (R188): the last group must be whole (R187), or `RowTooShort` and no
pixel (R334). -/
def execConvYuyv (width : Word) (row : List Byte) (s : State) : Host.Outcome State Fault Refusal :=
  if row.length < 4 * ceilDiv width.toNat 2 then
    .next ({ s with results := { s.results with pix := none } }.raise
      (.rowTooShort .convYuyv row.length (4 * ceilDiv width.toNat 2)))
  else .next { s with results := { s.results with pix := some (yuyvRow width.toNat row) } }

end Sys2Proof.Machine
end

