-- ==== Sys2Proof/Machine/Encoder.lean ====
section
/-! DEFINITION. The container encoder: acceptance and row conversion, common to both variants, and the checksum-framed
variant `ENC_PNG` (44_container_encoder.md), byte by byte through the sink as R205 writes it. -/

namespace Sys2Proof.Machine

/-! ### Sizes (R209, R246, R247) -/

/-- `data_len = height * (width*3 + 1)` (R209). -/
def dataLen (width height : Nat) : Nat := height * (width * 3 + 1)

/-- The most bytes one stored block holds, `min(enc_remaining, 65535)` (R105, R211). -/
def blockCap : Nat := 65535

/-- `block_count = ceil(data_len / 65535)` (R209). -/
def blockCount (width height : Nat) : Nat := ceilDiv (dataLen width height) blockCap

/-- `wrapped_len = 2 + data_len + 5*block_count + 4` (R209). -/
def wrappedLen (width height : Nat) : Nat := 2 + dataLen width height + 5 * blockCount width height + 4

/-- `row_size = (width*3 + 3) & ~3`: the least multiple of 4 not below `3*width` (R246). -/
def flatRowSize (width : Nat) : Nat := (width * 3 + 3) / 4 * 4

/-- `pixel_data_size = row_size * height` (R247). -/
def flatDataSize (width height : Nat) : Nat := flatRowSize width * height

/-! ### Acceptance (R202, R203) -/

/-- R202 (b), (c). -/
def dimensionsOk (p : Params) (f : Frame) : Bool :=
  decide (1 ≤ f.width.toNat) && decide (f.width.toNat ≤ p.maxWidth.toNat) &&
    (decide (1 ≤ f.height.toNat) && decide (f.height.toNat ≤ p.maxHeight.toNat))

/-- R202 (d), first half: `row_stride_bytes >= need` (20_memory.md R61). -/
def strideOk (fmt : PixelFormat) (f : Frame) : Bool := decide (fmt.need f.width.toNat ≤ f.rowStride.toNat)

/-- R202 (d), second half: `len(payload) >= (height - 1) * row_stride_bytes + need`, in integers (R61). -/
def payloadOk (fmt : PixelFormat) (f : Frame) : Bool :=
  decide (((f.height.toNat : Int) - 1) * f.rowStride.toNat + fmt.need f.width.toNat ≤ (f.payload.length : Int))

/-- R202 (e). -/
def lengthOk (v : Variant) (p : Params) (f : Frame) : Bool :=
  match v with
  | .png => decide (wrappedLen f.width.toNat f.height.toNat ≤ p.lenMax.toNat)
  | .flat => decide (54 + flatDataSize f.width.toNat f.height.toNat ≤ 4294967295)

/-- Every condition of R202 that the frame fails, in the rule's order. R202 (d) speaks of the bytes a row
needs, which only a known format fixes (log entry 8). -/
def frameFailures (v : Variant) (p : Params) (f : Frame) : List FrameCondition :=
  let unless_ (ok : Bool) (c : FrameCondition) : List FrameCondition := if ok then [] else [c]
  match PixelFormat.ofCode? f.pixelFormat with
  | none => .pixelFormat :: (unless_ (dimensionsOk p f) .dimensions ++ unless_ (lengthOk v p f) .length)
  | some fmt =>
    unless_ (dimensionsOk p f) .dimensions ++ (unless_ (strideOk fmt f) .stride ++
      (unless_ (payloadOk fmt f) .payload ++ unless_ (lengthOk v p f) .length))

/-- Acceptance (R203): the operands to latch, or the conditions that fail. -/
def acceptFrame (v : Variant) (p : Params) (f : Frame) : Except (List FrameCondition) EncOperands :=
  match PixelFormat.ofCode? f.pixelFormat, frameFailures v p f with
  | some fmt, [] => .ok ⟨v, fmt, f.width, f.height, f.rowStride⟩
  | _, which => .error which

/-- The encoder as a run finds it: `enc_err` cleared, the operands latched, nothing else live (R203). -/
def Encoder.latched (ops : EncOperands) (phase : EncPhase) : Encoder :=
  { Encoder.resting phase none with operands := some ops }

/-! ### Row conversion (R204) -/

/-- The converter a pixel format selects (R201). -/
def convertPixels (fmt : PixelFormat) (width : Nat) (row : List Byte) : List Pixel :=
  match fmt with
  | .rgb565be => rgb565Row width row
  | .yuyv422 => yuyvRow width row

/-- `ConvertRow(r)`: the `need` bytes at `r * enc_stride` of the frame, converted (R61, R204). -/
def convertRow (ops : EncOperands) (payload : List Byte) (r : Nat) : List Pixel :=
  convertPixels ops.format ops.width.toNat
    ((payload.drop (r * ops.stride.toNat)).take (ops.format.need ops.width.toNat))

/-- The counters take their values when phase `ROWS` begins: `enc_data_len` bytes to place and no block open
(R28, R205; log entry 26). -/
def Encoder.startRows (ops : EncOperands) (e : Encoder) : Encoder :=
  let n := Machine.dataLen ops.width.toNat ops.height.toNat
  { e with phase := .rows, dataLen := some n, remaining := some n, blkLeft := some 0#16 }

/-- The counters hold no value again: a phase begins in which none of them is live (R28). -/
def Encoder.dropCounters (e : Encoder) : Encoder :=
  { e with row := none, dataLen := none, remaining := none, blkLeft := none }

/-- Emits rows one after the other, in the order of the list. -/
def emitRows (body : Nat → Encoder → List Byte → Run) : List Nat → Encoder → List Byte → Run
  | [], e, out => .going e out
  | r :: rs, e, out => (body r e out).andThen (emitRows body rs)

/-! ### The checksum-framed procedure (R205) -/

/-- The payload of the metadata chunk (R102). -/
def metaPayload (p : Params) (width height : Word) : List Byte :=
  be32 width ++ (be32 height ++ (0x08#8 :: p.colorMode :: p.metaFlags.toList))

/-- A stored-block header: `final`, `le16(length)`, `le16(length ^ 0xFFFF)` (R105). -/
def blockHeader (final : Bool) (length : Nat) : List Byte :=
  (if final then 0x01#8 else 0x00#8) ::
    (le16n length ++ le16 (BitVec.ofNat 16 length ^^^ 0xFFFF#16))

/-- `Emit(be32(~enc_crc))`. -/
def emitCrc (sink : Option SinkFailure) (e : Encoder) (out : List Byte) : Run :=
  match e.crc with
  | some c => emit sink (be32 (~~~ c)) e out
  | none => .noValue .encCrc

/-- Opens a chunk: its length field, a fresh CRC, its tag (R100, R208). -/
def openChunk (sink : Option SinkFailure) (length : Nat) (tag : List Byte) (e : Encoder) (out : List Byte) : Run :=
  (emit sink (be32n length) e out).andThen fun e out =>
    emitC sink tag { e with crc := some crcStart } out

/-- Phase `META` (R207). -/
def metaPhase (sink : Option SinkFailure) (p : Params) (ops : EncOperands) (e : Encoder) (out : List Byte) : Run :=
  (openChunk sink 13 p.tagMeta.toList { e with phase := .metadata } out).andThen fun e out =>
    (emitC sink (metaPayload p ops.width ops.height) e out).andThen (emitCrc sink)

/-- Phase `DATA_HEAD`: the declared length, computed from the operands, and the tag (R209). -/
def dataHeadPhase (sink : Option SinkFailure) (p : Params) (ops : EncOperands) (e : Encoder) (out : List Byte) : Run :=
  openChunk sink (wrappedLen ops.width.toNat ops.height.toNat) p.tagData.toList
    { e with phase := .dataHead } out

/-- Phase `ZHDR`: the stream header, then the Adler sums start (R29, R210). -/
def zhdrPhase (sink : Option SinkFailure) (p : Params) (e : Encoder) (out : List Byte) : Run :=
  (emitC sink p.zhdr.toList { e with phase := .zhdr } out).andThen fun e out =>
    .going { e with adler := some adlerStart } out

/-- A block header, at the byte before which the current block is exhausted (R211, R212). -/
def openBlock (sink : Option SinkFailure) (e : Encoder) (out : List Byte) : Run :=
  match e.remaining with
  | none => .noValue .encCounters
  | some rem =>
    let bl := min rem blockCap
    (emitC sink (blockHeader (decide (rem = bl)) bl) e out).andThen fun e out =>
      .going { e with blkLeft := some (BitVec.ofNat 16 bl) } out

/-- What a payload byte does after it is written: `AdlerStep`, and one less to write (R205, R213). -/
def countByte (byte : Byte) (e : Encoder) (out : List Byte) : Run :=
  match e.adler, e.blkLeft, e.remaining with
  | some x, some bl, some rem =>
    .going { e with adler := some (adlerStep x byte), blkLeft := some (bl - 1#16), remaining := some (rem - 1) } out
  | none, _, _ => .noValue .encAdler
  | _, _, _ => .noValue .encCounters

/-- One payload byte, with a block header before it when `enc_blk_left` is 0 (R212). -/
def emitPayloadByte (sink : Option SinkFailure) (byte : Byte) (e : Encoder) (out : List Byte) : Run :=
  let write (e : Encoder) (out : List Byte) : Run := (emitC sink [byte] e out).andThen (countByte byte)
  match e.blkLeft with
  | none => .noValue .encCounters
  | some bl => if bl = 0#16 then (openBlock sink e out).andThen write else write e out

/-- The bytes of a row buffer in order (R205). -/
def emitPayload (sink : Option SinkFailure) : List Byte → Encoder → List Byte → Run
  | [], e, out => .going e out
  | b :: bs, e, out => (emitPayloadByte sink b e out).andThen (emitPayload sink bs)

/-- The row buffer of the checksum-framed variant: the filter byte, then R, G, B triples (R30, R211). -/
def pngRow (p : Params) (pixels : List Pixel) : List Byte := p.filterNone :: pixels.flatMap Pixel.rgb

/-- One row of phase `ROWS`. -/
def emitPngRow (sink : Option SinkFailure) (p : Params) (ops : EncOperands) (payload : List Byte) (r : Nat)
    (e : Encoder) (out : List Byte) : Run :=
  let buf := pngRow p (convertRow ops payload r)
  emitPayload sink buf { e with row := some (BitVec.ofNat 32 r), rowbuf := some buf } out

/-- Phase `TRAILER`: the Adler32, through the chunk CRC (R215). -/
def trailerPhase (sink : Option SinkFailure) (e : Encoder) (out : List Byte) : Run :=
  match e.adler with
  | some x => emitC sink (be32 x.pack) { e with phase := .trailer } out
  | none => .noValue .encAdler

/-- Phase `END`: the terminator chunk, the counters released (R28, R217). -/
def endPhase (sink : Option SinkFailure) (p : Params) (e : Encoder) (out : List Byte) : Run :=
  (openChunk sink 0 p.tagEnd.toList { e.dropCounters with phase := .endChunk } out).andThen (emitCrc sink)

/-- The procedure of R205 after acceptance, phase by phase. -/
def pngRun (sink : Option SinkFailure) (p : Params) (ops : EncOperands) (payload : List Byte) : Run :=
  (emit sink p.signature.toList (Encoder.latched ops .sig) []).andThen fun e out =>
  (metaPhase sink p ops e out).andThen fun e out =>
  (dataHeadPhase sink p ops e out).andThen fun e out =>
  (zhdrPhase sink p e out).andThen fun e out =>
  (emitRows (emitPngRow sink p ops payload) (List.range ops.height.toNat) (e.startRows ops) out).andThen
    fun e out =>
  (trailerPhase sink e out).andThen fun e out =>
  (emitCrc sink { e with phase := .dataCrc } out).andThen (endPhase sink p)

/-! ### The end of a run (R231, R232) -/

/-- The encoder after a run that reached `DONE`. -/
def Encoder.finished : Encoder := Encoder.resting .done none

/-- The encoder after a run that a sink error ended (R231). -/
def Encoder.failed (err : SinkError) : Encoder := Encoder.resting .aborted (some err)

/-- The end of a stand-alone run: `enc_phase`, `enc_err`, the sink history and `STATUS` (R47, R203, R231). -/
def State.endRun (op : Op) (r : Run) (s : State) : State :=
  match r with
  | .going _ out =>
    { s with enc := Encoder.finished, sink := out, results := { s.results with status := some .ok } }
  | .aborted err out =>
    { s with enc := Encoder.failed err, sink := out, results := { s.results with status := some (.abort err) } }
  | .noValue el => { s with results := { s.results with status := none } }.raise (.useBeforeInit op el)

/-- A refused frame: the fault record, and no status (R203, R335). -/
def State.refuseFrame (op : Op) (which : List FrameCondition) (s : State) : State :=
  { s with results := { s.results with status := none } }.raise (.badFrame op which)

/-- `ENC_PNG frame -> status` (R203, R205). -/
def execEncPng (f : Frame) (s : State) : Host.Outcome State Fault Refusal :=
  match acceptFrame .png s.params f with
  | .ok ops => .next (s.endRun .encPng (pngRun s.answers.sink s.params ops f.payload))
  | .error which => .next (s.refuseFrame .encPng which)

end Sys2Proof.Machine
end

