-- ==== Sys2Proof/Machine/FlatEncoder.lean ====
section
/-! DEFINITION. The flat variant of the container encoder, `ENC_FLAT` (45_flat_encoder.md). -/

namespace Sys2Proof.Machine

/-- The 54-byte header (R110, R241). -/
def flatHeader (p : Params) (width height : Word) : List Byte :=
  let size := flatDataSize width.toNat height.toNat
  p.flatMagic.toList ++ (le32n (54 + size) ++ (le32n 0 ++ (le32n 54 ++ (le32n 40 ++ (le32 width ++ (le32 height ++
    (le16n 1 ++ (le16n 24 ++ (le32n 0 ++ (le32n size ++ List.replicate 16 0x00#8))))))))))

/-- The row buffer of the flat variant: B, G, R triples, then zero bytes to `row_size` (R30, R246). -/
def flatRow (width : Nat) (pixels : List Pixel) : List Byte :=
  pixels.flatMap Pixel.bgr ++ List.replicate (flatRowSize width - width * 3) 0x00#8

/-- One scanline of phase `FLAT_ROWS`. -/
def emitFlatRow (sink : Option SinkFailure) (ops : EncOperands) (payload : List Byte) (r : Nat)
    (e : Encoder) (out : List Byte) : Run :=
  let buf := flatRow ops.width.toNat (convertRow ops payload r)
  emit sink buf { e with row := some (BitVec.ofNat 32 r), rowbuf := some buf } out

/-- The procedure of R241 after acceptance: the header, then the rows from the bottom (R243). -/
def flatRun (sink : Option SinkFailure) (p : Params) (ops : EncOperands) (payload : List Byte) : Run :=
  (emit sink (flatHeader p ops.width ops.height) (Encoder.latched ops .flatHead) []).andThen fun e out =>
    emitRows (emitFlatRow sink ops payload) (List.range ops.height.toNat).reverse { e with phase := .flatRows } out

/-- `ENC_FLAT frame -> status` (R203, R241); without the variant the opcode is illegal (R95, R332). -/
def execEncFlat (f : Frame) (s : State) : Host.Outcome State Fault Refusal :=
  if s.params.hasFlatVariant then
    match acceptFrame .flat s.params f with
    | .ok ops => .next (s.endRun .encFlat (flatRun s.answers.sink s.params ops f.payload))
    | .error which => .next (s.refuseFrame .encFlat which)
  else
    .next ({ s with results := { s.results with status := none } }.raise (.illegalOpcode Op.encFlat.opcode))

end Sys2Proof.Machine
end

