-- ==== Sys2Proof/Machine/Packetizer.lean ====
section
/-! DEFINITION. The packetizer's host operations and events (46_packetizer.md R261 to R269). -/

namespace Sys2Proof.Machine

/-- `PKT_CONFIG variant` (R261). -/
def execPktConfig (variant : Nat) (s : State) : Host.Outcome State Fault Refusal :=
  match ImageFormat.ofPort? variant with
  | none => .next (s.raise (.illegalOperand .pktConfig variant))
  | some fmt =>
    if fmt = .flat ∧ s.params.hasFlatVariant = false then .next (s.raise (.illegalOperand .pktConfig variant))
    else if s.job.state = .idle then .next { s with cfgVariant := fmt }
    else .next s

/-- The trigger, one atomic test-and-set of `pk_state` (R262). -/
def State.trigger (s : State) : State :=
  if s.job.state = .idle then { s with job := { s.job with state := .capturing } } else s

/-- `PKT_TRIGGER` (R262). -/
def execPktTrigger (s : State) : Host.Outcome State Fault Refusal := .next s.trigger

/-- `PKT_PEER_WRITE byte` (R263). -/
def execPktPeerWrite (byte : Byte) (s : State) : Host.Outcome State Fault Refusal :=
  if s.session.connected = true ∧ byte = 0x01#8 then .next s.trigger else .next s

/-- `PKT_CONNECT` (R265). -/
def execPktConnect (s : State) : Host.Outcome State Fault Refusal :=
  if s.session.connected then .next s
  else .next { s with session := ⟨true, false, false, s.params.defaultMaxPayload, s.session.epoch + 1⟩ }

/-- `PKT_DISCONNECT` (R266). -/
def execPktDisconnect (s : State) : Host.Outcome State Fault Refusal :=
  if s.session.connected then .next { s with session := Session.closed s.params s.session.epoch }
  else .next s

/-- Puts an outbound channel in `notif_en` or takes it out; `TRIG` is inbound (R267, R268). -/
def Session.setEnabled (se : Session) (ch : Channel) (on : Bool) : Session :=
  match ch with
  | .trig => se
  | .metadata => { se with notifMeta := on }
  | .data => { se with notifData := on }

/-- A subscription event: ignored without a session (R267, R268). -/
def State.subscription (ch : Channel) (on : Bool) (s : State) : State :=
  if s.session.connected then { s with session := s.session.setEnabled ch on } else s

/-- `PKT_SUBSCRIBE ch` (R267). -/
def execPktSubscribe (ch : Nat) (s : State) : Host.Outcome State Fault Refusal :=
  match Channel.ofPort? ch with
  | none => .next (s.raise (.illegalOperand .pktSubscribe ch))
  | some c => .next (s.subscription c true)

/-- `PKT_UNSUBSCRIBE ch` (R268). -/
def execPktUnsubscribe (ch : Nat) (s : State) : Host.Outcome State Fault Refusal :=
  match Channel.ofPort? ch with
  | none => .next (s.raise (.illegalOperand .pktUnsubscribe ch))
  | some c => .next (s.subscription c false)

/-- `PKT_SET_MAX_PAYLOAD v` (R269). -/
def execPktSetMaxPayload (v : Half) (s : State) : Host.Outcome State Fault Refusal :=
  if s.session.connected then .next { s with session := { s.session with maxPayload := v } } else .next s

end Sys2Proof.Machine
end

