-- ==== Sys2Proof/Machine/Worker.lean ====
section
/-! DEFINITION. The packetizer's worker, `PKT_STEP` (46_packetizer.md R276 to R296). -/

namespace Sys2Proof.Machine

/-! ### Capturing (R278 to R281) -/

/-- The end of a good capture: the image record, and `Announcing` (R279). -/
def State.imageReady (fmt : ImageFormat) (f : Frame) (n : Nat) (s : State) : State :=
  { s with job := { s.job with
      state := .announcing, imgValid := true, imgFormat := some fmt, imgWidth := some (f.width.setWidth 16),
      imgHeight := some (f.height.setWidth 16), imgLen := some (BitVec.ofNat 32 n) } }

/-- The image buffer as a run's sink: it fails exactly the writes at or beyond `IMG_MAX` (R280), with an
error value the spec leaves open (log entry 10). -/
def imgSink (s : State) : Option SinkFailure :=
  some ⟨s.params.imgMax.toNat, Config.imgSinkError s.freeCount⟩

/-- The end of a job's encoder run: byte `k` of the container stands at address `k` of `IMG` (R280). -/
def State.endJobRun (op : Op) (fmt : ImageFormat) (f : Frame) (r : Run) (s : State) : State :=
  match r with
  | .going _ out =>
    ({ s with enc := Encoder.finished, img := s.img.writeBytes 0 out } : State).imageReady fmt f out.length
  | .aborted err out =>
    ({ s with enc := Encoder.failed err, img := s.img.writeBytes 0 out, freeCount := s.freeCount + 1 } : State).fail
      .encodeError
  | .noValue el => s.raise (.useBeforeInit op el)

/-- A frame that fails acceptance inside a job: the fault stays recorded, the job fails (R279, R324). -/
def State.refuseJobFrame (op : Op) (which : List FrameCondition) (s : State) : State :=
  (s.raise (.badFrame op which)).fail .encodeError

/-- Encodes an acquired frame in the format configured (R279). DESIGN CHOICE: with `FLAT` configured the flat encoder runs
whether or not the flat variant exists; no run configures `FLAT` without it (R33, R261), and the spec gives no
behaviour there (log entry 27). -/
def State.encodeJob (f : Frame) (s : State) : State :=
  match s.cfgVariant with
  | .raw =>
    if dimensionsOk s.params f then
      if s.params.imgMax.toNat < f.payload.length then s.fail .encodeError
      else ({ s with img := s.img.writeBytes 0 f.payload } : State).imageReady .raw f f.payload.length
    else s.refuseJobFrame .pktStep [.dimensions]
  | .png =>
    match acceptFrame .png s.params f with
    | .ok ops => s.endJobRun .encPng .png f (pngRun (imgSink s) s.params ops f.payload)
    | .error which => s.refuseJobFrame .encPng which
  | .flat =>
    match acceptFrame .flat s.params f with
    | .ok ops => s.endJobRun .encFlat .flat f (flatRun (imgSink s) s.params ops f.payload)
    | .error which => s.refuseJobFrame .encFlat which

/-- The step in `Capturing`: the frame source's answer decides (R278). -/
def State.captureStep (s : State) : State :=
  match s.answers.acquire with
  | .unavailable => s.fail .sourceUnavailable
  | .timeout => s.fail .noFrame
  | .unsupported => s.fail .unsupportedFormat
  | .frame f => s.encodeJob f

/-! ### Announcing (R283, R284, R286) -/

/-- `FORMAT_TAG[img_format]` (R114). -/
def formatTag (p : Params) : ImageFormat → List Byte
  | .png => p.formatTagPng.toList
  | .flat => p.formatTagFlat.toList
  | .raw => p.formatTagRaw.toList

/-- The 12-byte metadata record (R114). -/
def metadataRecord (p : Params) (width height : Half) (len : Word) (fmt : ImageFormat) : List Byte :=
  le16 width ++ (le16 height ++ (le32 len ++ formatTag p fmt))

/-- `min(max_payload_bytes - PROTOCOL_OVERHEAD, HARD_CAP)`, in integers (R286). -/
def chunkSizeOf (p : Params) (maxPayload : Half) : Int :=
  min ((maxPayload.toNat : Int) - p.protocolOverhead.toNat) p.hardCap.toNat

/-- Enters `Streaming` with the chunk size and the session of the snapshot latched, or fails with
`BadChunkSize` (R284, R286, R336). -/
def State.startStreaming (snap : Session) (s : State) : State :=
  let cs := chunkSizeOf s.params snap.maxPayload
  if cs < 1 then (s.raise (.badChunkSize snap.maxPayload)).fail .transferAborted
  else
    { s with job := { s.job with
        state := .streaming, chunkSize := some (BitVec.ofInt 16 cs), epoch := some snap.epoch, bytesSent := some 0#32 } }

/-- The step in `Announcing`: the subscriber check, the metadata record, the entry into `Streaming`,
against one snapshot of the session. -/
def State.announceStep (s : State) : State :=
  let snap := s.session
  if snap.connected = true ∧ snap.enabled .metadata = true then
    match s.job.imgWidth, s.job.imgHeight, s.job.imgLen, s.job.imgFormat with
    | some w, some h, some len, some fmt =>
      match s.send snap .metadata (metadataRecord s.params w h len fmt) with
      | none => s.fail .transferAborted
      | some s' => s'.startStreaming snap
    | _, _, _, _ => s.raise (.useBeforeInit .pktStep .image)
  else s.fail .noSubscriber

/-! ### Streaming (R290) -/

/-- The number of bytes of the next transfer chunk: `chunk_size` or the remainder (R290). -/
def chunkLength (size : Half) (sent len : Word) : Nat := min size.toNat (len.toNat - sent.toNat)

/-- After a chunk of `n` bytes was sent: `bytes_sent` advances, and `Done` when all is sent (R290). -/
def State.advance (sent len : Word) (n : Nat) (s : State) : State :=
  let sent' := sent + BitVec.ofNat 32 n
  { s with job := { s.job with
      bytesSent := some sent', state := if sent' = len then .done else s.job.state } }

/-- The step in `Streaming`: one transfer chunk, against one snapshot of the session. -/
def State.streamStep (s : State) : State :=
  let snap := s.session
  match s.job.bytesSent, s.job.chunkSize, s.job.imgLen with
  | some sent, some size, some len =>
    if sent = len then { s with job := { s.job with state := .done } }
    else
      let n := chunkLength size sent len
      match s.img.readBytes sent.toNat n with
      | none => s.raise (.useBeforeInit .pktStep .imgBytes)
      | some data =>
        match s.send snap .data data with
        | none => s.fail .transferAborted
        | some s' => s'.advance sent len n
  | _, _, none => s.raise (.useBeforeInit .pktStep .image)
  | _, _, _ => s.raise (.useBeforeInit .pktStep .transfer)

/-! ### Done and Failed (R296) -/

/-- The release step in `Failed`. -/
def State.releaseFailed (s : State) : State :=
  match s.job.reason with
  | some r => s.release (.failed r)
  | none => s.raise (.useBeforeInit .pktStep .pkReason)

/-- The worker's step of the job's state (R276); in `Idle` there is nothing to do (R277). -/
def State.workerStep (s : State) : State :=
  match s.job.state with
  | .idle => s
  | .capturing => s.captureStep
  | .announcing => s.announceStep
  | .streaming => s.streamStep
  | .done => s.release .done
  | .failed => s.releaseFailed

/-- `PKT_STEP` (R276). -/
def execPktStep (s : State) : Host.Outcome State Fault Refusal := .next s.workerStep

end Sys2Proof.Machine
end

