-- ==== Sys2Proof/Machine/Dispatch.lean ====
section
/-! DEFINITION. The meaning of each operation: one arm per constructor of `Instr`. -/

namespace Sys2Proof.Machine

def exec (i : Instr) (s : State) : Host.Outcome State Fault Refusal :=
  match i with
  -- CRC32 unit
  | .crcInit => Sys2Proof.Machine.execCrcInit s
  | .crcUpdate byte => Sys2Proof.Machine.execCrcUpdate byte s
  | .crcFinal => Sys2Proof.Machine.execCrcFinal s
  -- Adler32 unit
  | .adlerInit => Sys2Proof.Machine.execAdlerInit s
  | .adlerUpdate byte => Sys2Proof.Machine.execAdlerUpdate byte s
  | .adlerRead => Sys2Proof.Machine.execAdlerRead s
  | .adlerLoad running => Sys2Proof.Machine.execAdlerLoad running s
  -- colour converters
  | .convRgb565 width row => Sys2Proof.Machine.execConvRgb565 width row s
  | .convYuyv width row => Sys2Proof.Machine.execConvYuyv width row s
  -- container encoder
  | .encPng frame => Sys2Proof.Machine.execEncPng frame s
  | .encFlat frame => Sys2Proof.Machine.execEncFlat frame s
  -- packetizer: host operations, events, the worker
  | .pktConfig variant => Sys2Proof.Machine.execPktConfig variant s
  | .pktTrigger => Sys2Proof.Machine.execPktTrigger s
  | .pktPeerWrite byte => Sys2Proof.Machine.execPktPeerWrite byte s
  | .pktConnect => Sys2Proof.Machine.execPktConnect s
  | .pktDisconnect => Sys2Proof.Machine.execPktDisconnect s
  | .pktSubscribe ch => Sys2Proof.Machine.execPktSubscribe ch s
  | .pktUnsubscribe ch => Sys2Proof.Machine.execPktUnsubscribe ch s
  | .pktSetMaxPayload v => Sys2Proof.Machine.execPktSetMaxPayload v s
  | .pktStep => Sys2Proof.Machine.execPktStep s

end Sys2Proof.Machine
end

