-- ==== Sys2Proof/Machine/Step.lean ====
section
/-! DEFINITION. One step of the block: the next request on the command port, decoded and run as one atomic operation,
event or worker step (00_scope.md R8, 70_reset_and_hazards.md R385). -/

namespace Sys2Proof.Machine

/-- One step. With nothing presented no agent acts and nothing changes (log entry 1). -/
def step (s : State) : Host.Outcome State Fault Refusal :=
  match s.takeRequest with
  | none => .next s
  | some (command, s') =>
    match decode command with
    | .ok i => exec i s'
    | .error e => .next (s'.reject e)

/-- The state with the opcode `w` (its low 8 bits; an operation has no other, R90) presented as the next
request with nothing on the operand ports, so that the very next step runs it (log entry 1). -/
def State.withFetchWord (s : State) (_nbits w : Nat) : State := s.present (BitVec.ofNat 8 w)

end Sys2Proof.Machine
end

