-- ==== Sys2Proof/Safety.lean ====
section
/-! DEFINITION. The terms the statements use: the closed forms of the two containers, schedules, the invariant of the
block, and a reader of the checksum-framed container. -/

namespace Sys2Proof

/-- The events of the connection-event handler that write only the session (R264, R265 to R269). -/
def Instr.isSessionEvent : Instr → Bool
  | .pktConnect | .pktDisconnect | .pktSubscribe _ | .pktUnsubscribe _ | .pktSetMaxPayload _ => true
  | _ => false

end Sys2Proof

namespace Sys2Proof.Machine

/-! ### Closed forms (44_container_encoder.md R218, 45_flat_encoder.md R250) -/

/-- `Chunk(tag, d)` (R100, R218). -/
def chunk (tag d : List Byte) : List Byte := be32n d.length ++ (tag ++ (d ++ be32 (crc32 (tag ++ d))))

/-- `Blocks(P)` in `n` blocks: pieces of 65535 bytes, each after its header, the last one final (R216, R218). -/
def storedBlocks : Nat → List Byte → List Byte
  | 0, _ => []
  | 1, bs => blockHeader true bs.length ++ bs
  | n + 2, bs => blockHeader false blockCap ++ (bs.take blockCap ++ storedBlocks (n + 1) (bs.drop blockCap))

/-- `P`: the uncompressed payload, the rows from the top, each after its filter byte (R106, R218). -/
def pngPixels (p : Params) (ops : EncOperands) (payload : List Byte) : List Byte :=
  (List.range ops.height.toNat).flatMap fun r => pngRow p (convertRow ops payload r)

/-- The payload of the data chunk (R103). -/
def pngStream (p : Params) (ops : EncOperands) (payload : List Byte) : List Byte :=
  p.zhdr.toList ++
    (storedBlocks (blockCount ops.width.toNat ops.height.toNat) (pngPixels p ops payload) ++
      be32 (adler32 1#32 (pngPixels p ops payload)))

/-- The whole checksum-framed container (R101, R218). -/
def pngContainer (p : Params) (ops : EncOperands) (payload : List Byte) : List Byte :=
  p.signature.toList ++ (chunk p.tagMeta.toList (metaPayload p ops.width ops.height) ++
    (chunk p.tagData.toList (pngStream p ops payload) ++ chunk p.tagEnd.toList []))

/-- The whole flat file: the header, then the rows from the bottom (R250). -/
def flatFile (p : Params) (ops : EncOperands) (payload : List Byte) : List Byte :=
  flatHeader p ops.width ops.height ++
    (List.range ops.height.toNat).reverse.flatMap fun r => flatRow ops.width.toNat (convertRow ops payload r)

/-- How a sink ends a run that writes `bytes` in all: all of them accepted, or the ones before the write it
fails (R231). -/
def sinkOutcome (sink : Option SinkFailure) (bytes : List Byte) : List Byte × Status :=
  match sink with
  | none => (bytes, .ok)
  | some x => if bytes.length ≤ x.index then (bytes, .ok) else (bytes.take x.index, .abort x.error)

/-- The state after a stand-alone run that writes `bytes` in all (R47, R203, R231). -/
def State.afterRun (bytes : List Byte) (s : State) : State :=
  let o := sinkOutcome s.answers.sink bytes
  { s with
    enc := match o.2 with
      | .ok => Encoder.finished
      | .abort e => Encoder.failed e
    sink := o.1
    results := { s.results with status := some o.2 } }

/-! ### Schedules (00_scope.md R15, R16) -/

/-- The operation runs in the state and the block goes on in the result; a stop leaves the state. -/
def State.after (i : Instr) (s : State) : State :=
  match exec i s with
  | .next t => t
  | .fault _ => s
  | .refused _ => s

/-- A schedule: operations and events, each with the oracle answers it consumes. -/
def State.runSchedule (sched : List (Instr × Answers)) (s : State) : State :=
  sched.foldl (fun s x => State.after x.1 { s with answers := x.2 }) s

/-- `PKT_RUN` with the answers each step consumes (R97). -/
def State.runWorker (as : List Answers) (s : State) : State :=
  s.runSchedule (as.map fun a => (Instr.pktStep, a))

/-- The transition relation of `pk_state`, with the reason a failure is entered with (R298). -/
def jobTransition : PkState → PkState → Option Reason → Bool
  | .idle, .capturing, none => true
  | .capturing, .announcing, none => true
  | .capturing, .failed, some .sourceUnavailable => true
  | .capturing, .failed, some .noFrame => true
  | .capturing, .failed, some .unsupportedFormat => true
  | .capturing, .failed, some .encodeError => true
  | .announcing, .streaming, none => true
  | .announcing, .failed, some .noSubscriber => true
  | .announcing, .failed, some .transferAborted => true
  | .streaming, .done, none => true
  | .streaming, .failed, some .transferAborted => true
  | .done, .idle, none => true
  | .failed, .idle, none => true
  | _, _, _ => false

/-- How many bytes of `IMG`, from address 0 on, a step in `Capturing` stores for the frame `f`: the payload of a
`RAW` job that fits, or the part of the container below `IMG_MAX` (R279 to R281; without the flat variant, log entry 27). -/
def State.captureStored (f : Frame) (s : State) : Nat :=
  match s.cfgVariant with
  | .raw =>
    if dimensionsOk s.params f = true ∧ f.payload.length ≤ s.params.imgMax.toNat then f.payload.length else 0
  | .png =>
    match acceptFrame .png s.params f with
    | .ok ops => min (pngContainer s.params ops f.payload).length s.params.imgMax.toNat
    | .error _ => 0
  | .flat =>
    match acceptFrame .flat s.params f with
    | .ok ops => min (flatFile s.params ops f.payload).length s.params.imgMax.toNat
    | .error _ => 0

/-! ### The invariant of the block -/

/-- The encoder between steps: at rest, with nothing live, an error exactly when the last run was aborted
(10_state.md R26 to R31). -/
def EncoderAtRest (e : Encoder) : Prop :=
  ∃ phase err, e = Encoder.resting phase err ∧
    ((phase = .idle ∨ phase = .done) ∧ err = none ∨ phase = .aborted ∧ ∃ x, err = some x)

/-- Without a peer the session is as a disconnect leaves it (R266, R360). -/
def SessionOk (p : Params) (se : Session) : Prop :=
  se.connected = false → se.notifMeta = false ∧ se.notifData = false ∧ se.maxPayload = p.defaultMaxPayload

/-- The image buffer holds the `len` bytes `image` at the addresses from 0 on, and the image fits the buffer
(R39, R63). -/
def ImageHeld (p : Params) (m : Memory) (len : Word) (image : List Byte) : Prop :=
  m.readBytes 0 len.toNat = some image ∧ len.toNat ≤ p.imgMax.toNat

/-- What the job has sent: one metadata record, then `sent` bytes of the image in chunks of `size` bytes, only
the last of a whole image shorter, none empty (R116, R284, R290, R299 (d), (e)). -/
def Delivered (p : Params) (outbox : List (Channel × List Byte)) (w h : Half) (len : Word) (fmt : ImageFormat)
    (image : List Byte) (sent : Word) (size : Half) : Prop :=
  ∃ (before : List (Channel × List Byte)) (msgs : List (List Byte)), outbox = before ++ (Channel.metadata, metadataRecord p w h len fmt) ::
      msgs.map (fun m => (Channel.data, m)) ∧
    msgs.flatten = image.take sent.toNat ∧
    (∀ m ∈ msgs, 1 ≤ m.length ∧ m.length ≤ size.toNat) ∧
    (∀ m ∈ msgs.dropLast, m.length = size.toNat) ∧
    (sent ≠ len → ∀ m ∈ msgs, m.length = size.toNat)

/-- The transfer fields of a job that reached `Streaming` (R36, R37, R38). -/
def TransferOk (p : Params) (se : Session) (len sent : Word) (size : Half) (epoch : Nat) : Prop :=
  1 ≤ size.toNat ∧ size.toNat ≤ p.hardCap.toNat ∧ sent.toNat ≤ len.toNat ∧
    (size.toNat ∣ sent.toNat ∨ sent = len) ∧ epoch ≤ se.epoch

/-- The job record in each state of the job: which fields hold a value, and what they say
(R32 to R39, R299, R321 to R326). -/
def JobOk (s : State) : Prop :=
  match s.job.state with
  | .idle => s.job = Job.noJob ∧ s.img = []
  | .capturing => s.job = { Job.noJob with state := .capturing } ∧ s.img = []
  | .announcing =>
    ∃ fmt w h len image,
      s.job = ⟨.announcing, none, none, none, none, true, some fmt, some w, some h, some len⟩ ∧
        ImageHeld s.params s.img len image
  | .streaming =>
    ∃ fmt w h len image sent size epoch,
      s.job = ⟨.streaming, none, some sent, some size, some epoch, true, some fmt, some w, some h, some len⟩ ∧
        ImageHeld s.params s.img len image ∧ TransferOk s.params s.session len sent size epoch ∧
        Delivered s.params s.outbox w h len fmt image sent size ∧ (sent = len → len.toNat = 0)
  | .done =>
    ∃ fmt w h len image size epoch,
      s.job = ⟨.done, none, some len, some size, some epoch, true, some fmt, some w, some h, some len⟩ ∧
        ImageHeld s.params s.img len image ∧ TransferOk s.params s.session len len size epoch ∧
        Delivered s.params s.outbox w h len fmt image len size
  | .failed =>
    (∃ r, s.job = { Job.noJob with state := .failed, reason := some r } ∧ r ≠ .noSubscriber ∧ r ≠ .transferAborted) ∨
    (∃ r fmt w h len image,
      s.job = ⟨.failed, some r, none, none, none, true, some fmt, some w, some h, some len⟩ ∧
        (r = .noSubscriber ∨ r = .transferAborted) ∧ ImageHeld s.params s.img len image) ∨
    (∃ fmt w h len image sent size epoch,
      s.job = ⟨.failed, some .transferAborted, some sent, some size, some epoch, true, some fmt, some w, some h,
          some len⟩ ∧
        ImageHeld s.params s.img len image ∧ TransferOk s.params s.session len sent size epoch ∧
        Delivered s.params s.outbox w h len fmt image sent size ∧ sent.toNat < len.toNat)

/-- The invariant every step keeps. -/
structure Inv (s : State) : Prop where
  /-- The encoder is at rest (R26 to R31, R232). -/
  encoder : EncoderAtRest s.enc
  /-- The image buffer is in canonical form. -/
  memory : s.img.wf
  /-- The session record is reset while no peer is connected (R41 to R43). -/
  session : SessionOk s.params s.session
  /-- The flat variant is configured only if it exists (R33). -/
  config : s.cfgVariant = .flat → s.params.hasFlatVariant = true
  /-- `faults` is a set (R46). -/
  faults : s.faults.Nodup
  /-- The job record (R32 to R39, R299). -/
  job : JobOk s

/-! ### A reader of the checksum-framed container (30_encoding.md R109) -/

/-- A big-endian 32-bit length and what follows it. -/
def readBe32 : List Byte → Option (Word × List Byte)
  | a :: b :: c :: d :: rest => some ((a ++ b ++ c ++ d : BitVec 32), rest)
  | _ => none

/-- One container chunk: its tag, its data and what follows it, if its CRC verifies (R100). -/
def readChunk (bs : List Byte) : Option (List Byte × List Byte × List Byte) :=
  match readBe32 bs with
  | none => none
  | some (len, rest) =>
    let tag := rest.take 4
    let data := (rest.drop 4).take len.toNat
    let after := rest.drop (4 + len.toNat)
    if 4 ≤ after.length ∧ after.take 4 = be32 (crc32 (tag ++ data)) then some (tag, data, after.drop 4) else none

/-- Stored blocks up to the final one, at most `fuel` of them, each length checked against its complement:
the literal bytes and what follows the last block (R105). -/
def readBlocks : Nat → List Byte → Option (List Byte × List Byte)
  | fuel + 1, flags :: l0 :: l1 :: n0 :: n1 :: rest =>
    let len : Half := l1 ++ l0
    if (n1 ++ n0 : BitVec 16) = ~~~ len ∧ len.toNat ≤ rest.length then
      if flags = 0x01#8 then some (rest.take len.toNat, rest.drop len.toNat)
      else if flags = 0x00#8 then
        match readBlocks fuel (rest.drop len.toNat) with
        | some (bs, after) => some (rest.take len.toNat ++ bs, after)
        | none => none
      else none
    else none
  | _, _ => none

/-- `width` triples R, G, B and what follows them (R106). -/
def readTriples : Nat → List Byte → Option (List Pixel × List Byte)
  | 0, bs => some ([], bs)
  | n + 1, r :: g :: b :: rest =>
    match readTriples n rest with
    | some (ps, after) => some (⟨r, g, b⟩ :: ps, after)
    | none => none
  | _, _ => none

/-- `height` rows, each a filter byte and `width` triples, and nothing after them (R106). -/
def readRows (filter : Byte) (width : Nat) : Nat → List Byte → Option (List (List Pixel))
  | 0, [] => some []
  | n + 1, b :: rest =>
    if b = filter then
      match readTriples width rest with
      | some (ps, after) =>
        match readRows filter width n after with
        | some rows => some (ps :: rows)
        | none => none
      | none => none
    else none
  | _, _ => none

/-- The rows of the data chunk's payload, if the trailing Adler32 is that of the recovered bytes
(R103 to R107). -/
def readStream (p : Params) (width height : Word) (bs : List Byte) : Option (List (List Pixel)) :=
  if bs.take 2 = p.zhdr.toList then
    match readBlocks bs.length (bs.drop 2) with
    | some (pixels, trailer) =>
      if trailer = be32 (adler32 1#32 pixels) then readRows p.filterNone width.toNat height.toNat pixels else none
    | none => none
  else none

/-- A whole container: width, height and the rows, if every tag, length and checksum is right (R101, R220). -/
def readContainer (p : Params) (bs : List Byte) : Option (Word × Word × List (List Pixel)) :=
  if bs.take 8 = p.signature.toList then
    match readChunk (bs.drop 8) with
    | some (tag1, info, rest1) =>
      match readBe32 info with
      | some (width, info2) =>
        match readBe32 info2 with
        | some (height, info3) =>
          match readChunk rest1 with
          | some (tag2, stream, rest2) =>
            match readChunk rest2 with
            | some (tag3, last, rest3) =>
              if tag1 = p.tagMeta.toList ∧ info3 = 0x08#8 :: p.colorMode :: p.metaFlags.toList ∧
                  tag2 = p.tagData.toList ∧ tag3 = p.tagEnd.toList ∧ last = [] ∧ rest3 = [] then
                match readStream p width height stream with
                | some rows => some (width, height, rows)
                | none => none
              else none
            | none => none
          | none => none
        | none => none
      | none => none
    | none => none
  else none

end Sys2Proof.Machine
end

