-- ==== Sys2Proof/Certificates/Slice0/Obligations.lean ====
section
/-! DEFINITION. The statements for the provers. Each docstring names the rules of the spec it formalises; where a clause is the
model's own choice it names the entry of the assumption log. -/

open Sys2Proof Sys2Proof.Machine

/-! ### Encoding and the step -/

/-- Decode and encode agree (R90 to R94): an operation presented by its encoding decodes to itself with every operand,
and whatever decodes to an operation carries its opcode and its operands on the ports. -/
def Obligations.DecodeEncodeAgree : Prop :=
  (∀ i : Instr, decode (encode i) = .ok i) ∧
  (∀ (c : Command) (i : Instr), decode c = .ok i → c.opcode = (encode i).opcode ∧ Op.instr c.ports i.op = i) ∧
  (∀ i j : Instr, encode i = encode j → i = j)

/-- The opcodes the decoder rejects are exactly the six ranges of R95. That it never rejects 0x41, which R95 also calls
illegal without the flat variant, is the model's choice: there the meaning raises the fault (log entry 16; EncRefusals). -/
def Obligations.IllegalOpcodes : Prop :=
  ∀ c : Command, decode c = .error (.illegalOpcode c.opcode) ↔
    (c.opcode.toNat ≤ 0x0F ∨ 0x13 ≤ c.opcode.toNat ∧ c.opcode.toNat ≤ 0x1F ∨
      0x24 ≤ c.opcode.toNat ∧ c.opcode.toNat ≤ 0x2F ∨ 0x32 ≤ c.opcode.toNat ∧ c.opcode.toNat ≤ 0x3F ∨
      0x42 ≤ c.opcode.toNat ∧ c.opcode.toNat ≤ 0x4F ∨ 0x59 ≤ c.opcode.toNat)

/-- A few words of the opcode map (R94), one a unit, with operands on their ports (R92). -/
def Obligations.DecodeWords : Prop :=
  decode ⟨0b00010001#8, { Ports.zero with din8 := 0x61#8 }⟩ = .ok (.crcUpdate 0x61#8) ∧
  decode ⟨0b00100011#8, { Ports.zero with din32 := 0x01F800CB#32 }⟩ = .ok (.adlerLoad 0x01F800CB#32) ∧
  decode ⟨0b00110000#8, { Ports.zero with width := 1#32, rowIn := [0xF8#8, 0x00#8] }⟩ =
    .ok (.convRgb565 1#32 [0xF8#8, 0x00#8]) ∧
  decode ⟨0b01000000#8, { Ports.zero with frameIn := ⟨0, 1#32, 1#32, 2#32, [0x12#8, 0x34#8]⟩ }⟩ =
    .ok (.encPng ⟨0, 1#32, 1#32, 2#32, [0x12#8, 0x34#8]⟩) ∧
  decode ⟨0b01010101#8, { Ports.zero with ch := 2 }⟩ = .ok (.pktSubscribe 2) ∧
  decode ⟨0b01010111#8, { Ports.zero with din16 := 247#16 }⟩ = .ok (.pktSetMaxPayload 247#16) ∧
  decode ⟨0b01011000#8, Ports.zero⟩ = .ok .pktStep

/-- A step runs the decoded operation (R90, R385): the next request leaves the schedule, its oracle answers stand, the
result ports are empty (R93; log entries 1, 2, 4), and the rest is `exec`. -/
def Obligations.StepRunsDecoded : Prop :=
  ∀ (s : State) (r : Request) (rest : List Request) (i : Instr), s.inputs = r :: rest → decode r.command = .ok i →
    step s = exec i { s with inputs := rest, answers := r.answers, results := Results.empty }

/-- An illegal opcode raises `IllegalOpcode(opcode)` and changes no state of the block (R95, R332); taking the request off
the schedule and emptying the result ports is the model's own (log entries 1, 2, 4). -/
def Obligations.StepIllegalOpcode : Prop :=
  ∀ (s : State) (r : Request) (rest : List Request), s.inputs = r :: rest →
    decode r.command = .error (.illegalOpcode r.command.opcode) →
    step s = .next (State.raise (.illegalOpcode r.command.opcode)
      { s with inputs := rest, answers := r.answers, results := Results.empty })

/-- "The block does not stop" (R330): every operation in every state gives a next state, and so does every step; with
nothing presented a step changes nothing (log entry 1). -/
def Obligations.NeverStops : Prop :=
  (∀ (i : Instr) (s : State), ∃ t, exec i s = .next t) ∧ (∀ s : State, ∃ t, step s = .next t) ∧
  (∀ s : State, s.inputs = [] → step s = .next s)

/-! ### CRC32 unit -/

/-- `CRC_INIT` (R132), opcode 0x10: `crc_acc <- 0xFFFFFFFF` in every state, and nothing else. -/
def Obligations.CrcInit : Prop :=
  (∀ p : Ports, decode ⟨0x10#8, p⟩ = .ok .crcInit) ∧ ∀ s : State, exec .crcInit s = .next { s with crcAcc := some 0xFFFFFFFF#32 }

/-- `CRC_UPDATE byte` (R133), opcode 0x11 with the byte on `DIN8`: the table formula, or `UseBeforeInit` with `crc_acc` still without a value; nothing else
changes. The accumulator holds no value exactly when no `CRC_INIT` was executed since reset (last clause). -/
def Obligations.CrcUpdate : Prop :=
  (∀ p : Ports, decode ⟨0x11#8, p⟩ = .ok (.crcUpdate p.din8)) ∧
  (∀ (s : State) (byte : Byte),
    (∀ acc, s.crcAcc = some acc → exec (.crcUpdate byte) s =
      .next { s with crcAcc := some (crcTab ((acc ^^^ byte.setWidth 32).setWidth 8) ^^^ (acc >>> 8)) }) ∧
    (s.crcAcc = none → exec (.crcUpdate byte) s = .next (s.raise (.useBeforeInit .crcUpdate .crcAcc)))) ∧
  (∀ sched : List (Instr × Answers),
    (State.reset.runSchedule sched).crcAcc = none ↔ ∀ x ∈ sched, x.1 ≠ .crcInit)

/-- `CRC_FINAL -> v` (R134): `DOUT32` is the inverted accumulator, which is kept (the spec's choice, D6); without a value
`UseBeforeInit` and no result. -/
def Obligations.CrcFinal : Prop :=
  ∀ s : State,
    (∀ acc, s.crcAcc = some acc →
      exec .crcFinal s = .next { s with results := { s.results with dout32 := some (acc ^^^ 0xFFFFFFFF#32) } }) ∧
    (s.crcAcc = none → exec .crcFinal s =
      .next (State.raise (.useBeforeInit .crcFinal .crcAcc) { s with results := { s.results with dout32 := none } }))

/-- The table-free equivalent of `CRC_UPDATE` (R138). -/
def Obligations.CrcTableFree : Prop :=
  ∀ (s : State) (byte : Byte) (acc : Word), s.crcAcc = some acc →
    exec (.crcUpdate byte) s = .next { s with crcAcc := some (Nat.iterate
      (fun c : Word => if c.getLsbD 0 then 0xEDB88320#32 ^^^ (c >>> 1) else c >>> 1) 8 (acc ^^^ byte.setWidth 32)) }

/-- A CRC stream in two parts (R135, R137): `CRC_INIT`, the updates of `xs`, of `ys`, `CRC_FINAL` return
`CRC32(xs ‖ ys)` from every state, and a read in between changes nothing. -/
def Obligations.CrcStream : Prop :=
  ∀ (s : State) (a : Answers) (xs ys : List Byte),
    let feed := fun bs : List Byte => bs.map fun b => (Instr.crcUpdate b, a)
    let t := s.runSchedule ((.crcInit, a) :: (feed xs ++ (.crcFinal, a) :: (feed ys ++ [(.crcFinal, a)])))
    t.results.dout32 = some (crc32 (xs ++ ys)) ∧ t.crcAcc = some (~~~ (crc32 (xs ++ ys))) ∧ t.faults = s.faults

/-! ### Adler32 unit -/

/-- `ADLER_INIT` (R152), opcode 0x20: a = 1, b = 0 in every state, and nothing else. -/
def Obligations.AdlerInit : Prop :=
  (∀ p : Ports, decode ⟨0x20#8, p⟩ = .ok .adlerInit) ∧ ∀ s : State, exec .adlerInit s = .next { s with adler := some ⟨1#16, 0#16⟩ }

/-- `ADLER_UPDATE byte` (R153), opcode 0x21 with the byte on `DIN8`: both sums modulo 65521, the new `a` in `b`; or `UseBeforeInit`, exactly while neither
`ADLER_INIT` nor `ADLER_LOAD` was executed since reset (last clause); whatever element the record names (log entry 23). -/
def Obligations.AdlerUpdate : Prop :=
  (∀ p : Ports, decode ⟨0x21#8, p⟩ = .ok (.adlerUpdate p.din8)) ∧
  (∀ (s : State) (byte : Byte),
    (∀ a b : Half, s.adler = some ⟨a, b⟩ → exec (.adlerUpdate byte) s =
      .next { s with adler := some ⟨BitVec.ofNat 16 ((a.toNat + byte.toNat) % 65521),
        BitVec.ofNat 16 ((b.toNat + (a.toNat + byte.toNat) % 65521) % 65521)⟩ }) ∧
    (s.adler = none → ∃ el, exec (.adlerUpdate byte) s = .next (s.raise (.useBeforeInit .adlerUpdate el)))) ∧
  (∀ sched : List (Instr × Answers),
    (State.reset.runSchedule sched).adler = none ↔ ∀ x ∈ sched, x.1 ≠ .adlerInit ∧ ∀ v, x.1 ≠ .adlerLoad v)

/-- `ADLER_READ -> v` (R154), opcode 0x22: `(b << 16) | a`, the sums kept; or `UseBeforeInit` and no result. -/
def Obligations.AdlerRead : Prop :=
  (∀ p : Ports, decode ⟨0x22#8, p⟩ = .ok .adlerRead) ∧ ∀ s : State,
    (∀ a b : Half, s.adler = some ⟨a, b⟩ → exec .adlerRead s =
      .next { s with results := { s.results with dout32 := some ((b.setWidth 32 <<< 16) ||| a.setWidth 32) } }) ∧
    (s.adler = none → ∃ el, exec .adlerRead s =
      .next (State.raise (.useBeforeInit .adlerRead el) { s with results := { s.results with dout32 := none } }))

/-- `ADLER_LOAD running` (R155): the halves as they are (unreduced ones too, the spec's choice D7); loading 1 is
`ADLER_INIT`, and a read returns what was loaded. -/
def Obligations.AdlerLoad : Prop :=
  (∀ (s : State) (v : Word), exec (.adlerLoad v) s =
    .next { s with adler := some ⟨v.extractLsb' 0 16, v.extractLsb' 16 16⟩ }) ∧
  (∀ s : State, exec (.adlerLoad 1#32) s = exec .adlerInit s) ∧
  (∀ (s : State) (v : Word), ∃ t, exec .adlerRead (s.after (.adlerLoad v)) = .next t ∧ t.results.dout32 = some v)

/-- An Adler stream saved and resumed (R156, R157): load, updates of `xs`, read, load of that value, updates of `ys`, read
give `ADLER32(running, xs ‖ ys)`; after a byte both sums are below 65521. -/
def Obligations.AdlerStream : Prop :=
  (∀ (s : State) (a : Answers) (running : Word) (xs ys : List Byte),
    let feed := fun bs : List Byte => bs.map fun b => (Instr.adlerUpdate b, a)
    let mid := s.runSchedule ((.adlerLoad running, a) :: (feed xs ++ [(.adlerRead, a)]))
    mid.results.dout32 = some (adler32 running xs) ∧
    (mid.runSchedule ((.adlerLoad (adler32 running xs), a) :: (feed ys ++ [(.adlerRead, a)]))).results.dout32 =
      some (adler32 running (xs ++ ys))) ∧
  (∀ (running : Word) (xs : List Byte), xs ≠ [] →
    (Adler.unpack (adler32 running xs)).a.toNat < 65521 ∧ (Adler.unpack (adler32 running xs)).b.toNat < 65521)

/-! ### Colour converters -/

/-- `CONV_RGB565 width, row -> pix` (R171 to R173, R334): `width` pixels, pixel `i` from bytes `2i`, `2i + 1` alone, and
nothing else changes; a short row gives `RowTooShort` and no pixel. -/
def Obligations.ConvRgb565 : Prop :=
  ∀ (s : State) (width : Word) (row : List Byte),
    (2 * width.toNat ≤ row.length → ∃ px, exec (.convRgb565 width row) s =
        .next { s with results := { s.results with pix := some px } } ∧ px.length = width.toNat ∧
      ∀ i hi lo, i < width.toNat → row[2 * i]? = some hi → row[2 * i + 1]? = some lo →
        ∃ v : Half, v.toNat = hi.toNat * 256 + lo.toNat ∧
          px[i]? = some ⟨BitVec.ofNat 8 (v.toNat / 2048 * 8 + v.toNat / 2048 / 4),
            BitVec.ofNat 8 (v.toNat / 32 % 64 * 4 + v.toNat / 32 % 64 / 16),
            BitVec.ofNat 8 (v.toNat % 32 * 8 + v.toNat % 32 / 4)⟩) ∧
    (row.length < 2 * width.toNat → exec (.convRgb565 width row) s =
      .next (State.raise (.rowTooShort .convRgb565 row.length (2 * width.toNat))
        { s with results := { s.results with pix := none } }))

/-- `CONV_YUYV width, row -> pix` (R185 to R189, R334): `width` pixels, pixels `2g`, `2g + 1` from group `g` alone, never
`width + 1`, the integer transform with a clamp, and nothing else changes; a short row gives `RowTooShort`. -/
def Obligations.ConvYuyv : Prop :=
  ∀ (s : State) (width : Word) (row : List Byte),
    let need := 4 * ((width.toNat + 1) / 2)
    (need ≤ row.length → ∃ px, exec (.convYuyv width row) s =
        .next { s with results := { s.results with pix := some px } } ∧ px.length = width.toNat ∧
      ∀ i y u v, i < width.toNat → row[4 * (i / 2) + 2 * (i % 2)]? = some y → row[4 * (i / 2) + 1]? = some u →
        row[4 * (i / 2) + 3]? = some v →
        px[i]? = some ⟨clamp255 ((298 * ((y.toNat : Int) - 16) + 409 * ((v.toNat : Int) - 128) + 128) / 256),
          clamp255 ((298 * ((y.toNat : Int) - 16) - 100 * ((u.toNat : Int) - 128) - 208 * ((v.toNat : Int) - 128) + 128)
            / 256),
          clamp255 ((298 * ((y.toNat : Int) - 16) + 516 * ((u.toNat : Int) - 128) + 128) / 256)⟩) ∧
    (row.length < need → exec (.convYuyv width row) s =
      .next (State.raise (.rowTooShort .convYuyv row.length need) { s with results := { s.results with pix := none } }))

/-- The two expansions (R174): strictly increasing, 0 to 0, the maximum to 255. -/
def Obligations.Expansions : Prop :=
  (∀ v w : BitVec 5, v < w → expand5 v < expand5 w) ∧ (∀ v w : BitVec 6, v < w → expand6 v < expand6 w) ∧
  expand5 0#5 = 0#8 ∧ expand5 31#5 = 255#8 ∧ expand6 0#6 = 0#8 ∧ expand6 63#6 = 255#8

/-- The sums of the YUV transform (R190), and the two readings of the shift of a negative sum, which the clamp makes one
(R191). -/
def Obligations.YuvArithmetic : Prop :=
  (∀ y u v : Byte, -56992 ≤ yuvRedSum y v ∧ yuvRedSum y v ≤ 123293 ∧
    -43756 ≤ yuvGreenSum y u v ∧ yuvGreenSum y u v ≤ 110774 ∧ -70688 ≤ yuvBlueSum y u ∧ yuvBlueSum y u ≤ 136882) ∧
  (∀ x : Int, clamp255 (Int.tdiv x 256) = clamp255 (asr x 8))

/-! ### Container encoder -/

/-- Acceptance of a frame (R202, R61), condition by condition, and what an accepted run latches (R203); a refusal names at
least one condition. -/
def Obligations.FrameAcceptance : Prop :=
  ∀ (v : Variant) (p : Params) (f : Frame),
    (∀ ops, acceptFrame v p f = .ok ops ↔ ∃ fmt need,
      (f.pixelFormat = 0 ∧ fmt = .rgb565be ∧ need = 2 * f.width.toNat ∨
        f.pixelFormat = 1 ∧ fmt = .yuyv422 ∧ need = 4 * ((f.width.toNat + 1) / 2)) ∧
      1 ≤ f.width.toNat ∧ f.width.toNat ≤ p.maxWidth.toNat ∧ 1 ≤ f.height.toNat ∧ f.height.toNat ≤ p.maxHeight.toNat ∧
      need ≤ f.rowStride.toNat ∧ (f.height.toNat - 1) * f.rowStride.toNat + need ≤ f.payload.length ∧
      (v = .png → 2 + f.height.toNat * (f.width.toNat * 3 + 1) +
        5 * ((f.height.toNat * (f.width.toNat * 3 + 1) + 65534) / 65535) + 4 ≤ p.lenMax.toNat) ∧
      (v = .flat → 54 + (f.width.toNat * 3 + 3) / 4 * 4 * f.height.toNat ≤ 4294967295) ∧
      ops = ⟨v, fmt, f.width, f.height, f.rowStride⟩) ∧
    (∀ which, acceptFrame v p f = .error which → which ≠ [])

/-- `ENC_PNG` on an accepted frame (R203, R205, R218, R231): it runs from every state, whatever the sink answers, and ends
in the state of the closed form: the whole container and `DONE`, or its prefix and `ABORTED`; nothing else changes. That
no accumulator holds a value after `DONE`, and that a phase no run leaves the encoder in is accepted too, are the model's
choice (log entries 13, 15). -/
def Obligations.EncPngResult : Prop :=
  ∀ (s : State) (f : Frame) (ops : EncOperands), acceptFrame .png s.params f = .ok ops →
    exec (.encPng f) s = .next (s.afterRun (pngContainer s.params ops f.payload))

/-- `ENC_FLAT` on an accepted frame where the variant exists (R203, R241, R249, R250): as `EncPngResult`, with
its log entries 13 and 15. -/
def Obligations.EncFlatResult : Prop :=
  ∀ (s : State) (f : Frame) (ops : EncOperands), s.params.hasFlatVariant = true →
    acceptFrame .flat s.params f = .ok ops →
    exec (.encFlat f) s = .next (s.afterRun (flatFile s.params ops f.payload))

/-- What an encoder run does not do (R203, R335, R95, R332): a refused frame records `BadFrame`, emits nothing and leaves
the encoder; `ENC_FLAT` without the variant is `IllegalOpcode(0x41)`. That every failing condition is named is the model's
choice (log entry 8). -/
def Obligations.EncRefusals : Prop :=
  ∀ (s : State) (f : Frame) (which : List FrameCondition),
    let noStatus : State := { s with results := { s.results with status := none } }
    (acceptFrame .png s.params f = .error which →
      exec (.encPng f) s = .next (noStatus.raise (.badFrame .encPng which))) ∧
    (s.params.hasFlatVariant = true → acceptFrame .flat s.params f = .error which →
      exec (.encFlat f) s = .next (noStatus.raise (.badFrame .encFlat which))) ∧
    (s.params.hasFlatVariant = false → exec (.encFlat f) s = .next (noStatus.raise (.illegalOpcode 0x41#8)))

/-- A sink error (R231, R328): the run ends aborted exactly when the sink fails one of the container's writes; then the
sink holds a strict prefix of the container, the error is reported in `STATUS` and `enc_err`, no fault is recorded, and
no other encoder register holds a value. After a good run too none holds a value: of the accumulators the rules say it for
an abort only, so that is the model's choice (log entry 13). -/
def Obligations.EncAbort : Prop :=
  ∀ (s t : State) (f : Frame) (ops : EncOperands), acceptFrame .png s.params f = .ok ops → exec (.encPng f) s = .next t →
    let whole := pngContainer s.params ops f.payload
    (∀ x, s.answers.sink = some x → x.index < whole.length →
      t.sink = whole.take x.index ∧ t.sink.length < whole.length ∧ t.results.status = some (.abort x.error) ∧
        t.enc = Encoder.resting .aborted (some x.error)) ∧
    ((∀ x, s.answers.sink = some x → whole.length ≤ x.index) →
      t.sink = whole ∧ t.results.status = some .ok ∧ t.enc = Encoder.resting .done none) ∧
    t.faults = s.faults

/-- The blocks of a stored stream (R105, R216): full blocks of 65535 bytes without the final flag, then one final block
of 1 to 65535 bytes, each after its length and the complement of its length. -/
def Obligations.StoredBlocks : Prop :=
  ∀ P : List Byte, 1 ≤ P.length →
    ∃ (front : List (List Byte)) (last : List Byte), P = front.flatten ++ last ∧
      front.length + 1 = (P.length + 65534) / 65535 ∧ (∀ b ∈ front, b.length = 65535) ∧
      1 ≤ last.length ∧ last.length ≤ 65535 ∧
      storedBlocks ((P.length + 65534) / 65535) P =
        front.flatMap (fun b => [0x00#8, 0xFF#8, 0xFF#8, 0x00#8, 0x00#8] ++ b) ++
          ([0x01#8] ++ le16 (BitVec.ofNat 16 last.length) ++ le16 (~~~ (BitVec.ofNat 16 last.length)) ++ last)

/-- Sizes (R101, R209, R219, R247, R250): the data chunk's payload is `wrapped_len` bytes, the container
`57 + wrapped_len`, the flat file `54 + row_size * H`. -/
def Obligations.ContainerSizes : Prop :=
  ∀ (v : Variant) (p : Params) (f : Frame) (ops : EncOperands), acceptFrame v p f = .ok ops →
    let n := f.height.toNat * (f.width.toNat * 3 + 1)
    let wrapped := 2 + n + 5 * ((n + 65534) / 65535) + 4
    (pngPixels p ops f.payload).length = n ∧ (pngStream p ops f.payload).length = wrapped ∧
      (pngContainer p ops f.payload).length = 57 + wrapped ∧
      (flatFile p ops f.payload).length = 54 + (f.width.toNat * 3 + 3) / 4 * 4 * f.height.toNat

/-- Round trip (R220): reading back, by the reader of R109, what an accepted `ENC_PNG` run writes to a sink that never
fails gives the frame's width, height and the converter's rows, with every checksum and length verified. -/
def Obligations.RoundTrip : Prop :=
  ∀ (s : State) (f : Frame) (ops : EncOperands), acceptFrame .png s.params f = .ok ops → s.answers.sink = none →
    ∃ t, exec (.encPng f) s = .next t ∧ readContainer s.params t.sink =
      some (f.width, f.height, (List.range f.height.toNat).map (convertRow ops f.payload))

/-- Padding is not read (R61, R204): two accepted frames of one format and size that agree on the bytes a row needs, row
by row, give the same run in both containers, whatever their strides and padding bytes. -/
def Obligations.PaddingUnread : Prop :=
  ∀ (s : State) (f g : Frame) (fmt : PixelFormat), PixelFormat.ofCode? f.pixelFormat = some fmt →
    f.pixelFormat = g.pixelFormat → f.width = g.width → f.height = g.height →
    (∀ r k, r < f.height.toNat → k < fmt.need f.width.toNat →
      f.payload[r * f.rowStride.toNat + k]? = g.payload[r * g.rowStride.toNat + k]?) →
    ((∃ o, acceptFrame .png s.params f = .ok o) → (∃ o, acceptFrame .png s.params g = .ok o) →
      exec (.encPng f) s = exec (.encPng g) s) ∧
    ((∃ o, acceptFrame .flat s.params f = .ok o) → (∃ o, acceptFrame .flat s.params g = .ok o) →
      exec (.encFlat f) s = exec (.encFlat g) s)

/-! ### Packetizer: host operations and events -/

/-- `PKT_CONFIG variant` (R261, R333): stored in `Idle`, ignored otherwise, `IllegalOperand` for a variant above 2 or for
`FLAT` without the flat variant. -/
def Obligations.PktConfig : Prop :=
  ∀ (s : State) (variant : Nat) (fmt : ImageFormat),
    (variant = 0 ∧ fmt = .png ∨ variant = 1 ∧ fmt = .flat ∧ s.params.hasFlatVariant = true ∨ variant = 2 ∧ fmt = .raw →
      (s.job.state = .idle → exec (.pktConfig variant) s = .next { s with cfgVariant := fmt }) ∧
      (s.job.state ≠ .idle → exec (.pktConfig variant) s = .next s)) ∧
    (2 < variant ∨ variant = 1 ∧ s.params.hasFlatVariant = false →
      exec (.pktConfig variant) s = .next (s.raise (.illegalOperand .pktConfig variant)))

/-- `PKT_TRIGGER` (R262), opcode 0x51: in `Idle` the job state becomes `Capturing`; in every other state nothing changes. -/
def Obligations.PktTrigger : Prop :=
  (∀ p : Ports, decode ⟨0x51#8, p⟩ = .ok .pktTrigger) ∧ ∀ s : State,
    (s.job.state = .idle → exec .pktTrigger s = .next { s with job := { s.job with state := .capturing } }) ∧
    (s.job.state ≠ .idle → exec .pktTrigger s = .next s)

/-- `PKT_PEER_WRITE byte` (R263): 0x01 from a connected peer is the trigger; anything else is ignored. -/
def Obligations.PktPeerWrite : Prop :=
  ∀ (s : State) (byte : Byte),
    (s.session.connected = true → byte = 0x01#8 →
      (s.job.state = .idle →
        exec (.pktPeerWrite byte) s = .next { s with job := { s.job with state := .capturing } }) ∧
      (s.job.state ≠ .idle → exec (.pktPeerWrite byte) s = .next s)) ∧
    (s.session.connected = false ∨ byte ≠ 0x01#8 → exec (.pktPeerWrite byte) s = .next s)

/-- `PKT_CONNECT` (R265): a fresh session with the next epoch; ignored while connected. -/
def Obligations.PktConnect : Prop :=
  ∀ s : State,
    (s.session.connected = false → exec .pktConnect s = .next { s with session :=
      { connected := true, notifMeta := false, notifData := false, maxPayload := s.params.defaultMaxPayload,
        epoch := s.session.epoch + 1 } }) ∧
    (s.session.connected = true → exec .pktConnect s = .next s)

/-- `PKT_DISCONNECT` (R266): every session field reset but the epoch, the job untouched; ignored without a session. -/
def Obligations.PktDisconnect : Prop :=
  ∀ s : State,
    (s.session.connected = true → exec .pktDisconnect s = .next { s with session :=
      { connected := false, notifMeta := false, notifData := false, maxPayload := s.params.defaultMaxPayload,
        epoch := s.session.epoch } }) ∧
    (s.session.connected = false → exec .pktDisconnect s = .next s)

/-- `PKT_SUBSCRIBE ch` (R267), opcode 0x55 with `ch` on `CH`: `META` or `DATA` enters `notif_en` while connected; `TRIG`, or no session, is ignored; a
channel above 2 is `IllegalOperand`. -/
def Obligations.PktSubscribe : Prop :=
  (∀ p : Ports, decode ⟨0x55#8, p⟩ = .ok (.pktSubscribe p.ch)) ∧ ∀ (s : State) (ch : Nat),
    (2 < ch → exec (.pktSubscribe ch) s = .next (s.raise (.illegalOperand .pktSubscribe ch))) ∧
    (s.session.connected = true → ch = 1 →
      exec (.pktSubscribe ch) s = .next { s with session := { s.session with notifMeta := true } }) ∧
    (s.session.connected = true → ch = 2 →
      exec (.pktSubscribe ch) s = .next { s with session := { s.session with notifData := true } }) ∧
    (ch = 0 ∨ s.session.connected = false ∧ ch ≤ 2 → exec (.pktSubscribe ch) s = .next s)

/-- `PKT_UNSUBSCRIBE ch` (R268): as `PktSubscribe`, taking the channel out. -/
def Obligations.PktUnsubscribe : Prop :=
  ∀ (s : State) (ch : Nat),
    (2 < ch → exec (.pktUnsubscribe ch) s = .next (s.raise (.illegalOperand .pktUnsubscribe ch))) ∧
    (s.session.connected = true → ch = 1 →
      exec (.pktUnsubscribe ch) s = .next { s with session := { s.session with notifMeta := false } }) ∧
    (s.session.connected = true → ch = 2 →
      exec (.pktUnsubscribe ch) s = .next { s with session := { s.session with notifData := false } }) ∧
    (ch = 0 ∨ s.session.connected = false ∧ ch ≤ 2 → exec (.pktUnsubscribe ch) s = .next s)

/-- `PKT_SET_MAX_PAYLOAD v` (R269): stored as given while connected, a running job's chunk size untouched; else ignored. -/
def Obligations.PktSetMaxPayload : Prop :=
  ∀ (s : State) (v : Half),
    (s.session.connected = true →
      exec (.pktSetMaxPayload v) s = .next { s with session := { s.session with maxPayload := v } }) ∧
    (s.session.connected = false → exec (.pktSetMaxPayload v) s = .next s)

/-! ### Packetizer: the worker -/

/-- `PKT_STEP` in `Idle` (R277): nothing to do. -/
def Obligations.WorkerIdle : Prop :=
  ∀ s : State, s.job.state = .idle → exec .pktStep s = .next s

/-- `PKT_STEP` in `Capturing` when no frame comes (R278, R321 to R323): the job fails with the answer's reason by exactly
two writes (R320). -/
def Obligations.WorkerNoFrame : Prop :=
  ∀ (s : State) (r : Reason), s.job.state = .capturing →
    (s.answers.acquire = .unavailable ∧ r = .sourceUnavailable ∨ s.answers.acquire = .timeout ∧ r = .noFrame ∨
      s.answers.acquire = .unsupported ∧ r = .unsupportedFormat) →
    exec .pktStep s = .next { s with job := { s.job with reason := some r, state := .failed } }

/-- `PKT_STEP` in `Capturing`, `RAW` (R279, R281, R324): the payload whole, or a failure. The operation named in the fault
is the model's choice (log entry 8). -/
def Obligations.WorkerCaptureRaw : Prop :=
  ∀ (s : State) (f : Frame), s.job.state = .capturing → s.answers.acquire = .frame f → s.cfgVariant = .raw →
    let sized := 1 ≤ f.width.toNat ∧ f.width.toNat ≤ s.params.maxWidth.toNat ∧ 1 ≤ f.height.toNat ∧
      f.height.toNat ≤ s.params.maxHeight.toNat
    let failedJob : Job := { s.job with reason := some .encodeError, state := .failed }
    (¬ sized → exec .pktStep s = .next (State.raise (.badFrame .pktStep [.dimensions]) { s with job := failedJob })) ∧
    (sized → s.params.imgMax.toNat < f.payload.length → exec .pktStep s = .next { s with job := failedJob }) ∧
    (sized → f.payload.length ≤ s.params.imgMax.toNat → exec .pktStep s = .next { s with
      img := s.img.writeBytes 0 f.payload
      job := { s.job with
        state := .announcing, imgValid := true, imgFormat := some .raw, imgWidth := some (f.width.setWidth 16),
        imgHeight := some (f.height.setWidth 16), imgLen := some (BitVec.ofNat 32 f.payload.length) } })

/-- `PKT_STEP` in `Capturing`, an accepted frame and the checksum-framed container (R279, R280): the container stands in
`IMG` and the job goes on, or it does not fit and the job fails with `EncodeError`, whatever error value the buffer gives.
That the part below `IMG_MAX` stays in `IMG` until the release is the model's choice (log entry 14), and so are that no
accumulator holds a value after `DONE` (log entry 13), that a job's run leaves the history `sink` and `STATUS` alone (log
entry 11), and the counter of the free error value (log entry 10). -/
def Obligations.WorkerCapturePng : Prop :=
  ∀ (s : State) (f : Frame) (ops : EncOperands), s.job.state = .capturing → s.answers.acquire = .frame f →
    s.cfgVariant = .png → acceptFrame .png s.params f = .ok ops →
    let bytes := pngContainer s.params ops f.payload
    (bytes.length ≤ s.params.imgMax.toNat → exec .pktStep s = .next { s with
      enc := Encoder.resting .done none
      img := s.img.writeBytes 0 bytes
      job := { s.job with
        state := .announcing, imgValid := true, imgFormat := some .png, imgWidth := some (f.width.setWidth 16),
        imgHeight := some (f.height.setWidth 16), imgLen := some (BitVec.ofNat 32 bytes.length) } }) ∧
    (s.params.imgMax.toNat < bytes.length → ∃ e, exec .pktStep s = .next { s with
      enc := Encoder.resting .aborted (some e)
      img := s.img.writeBytes 0 (bytes.take s.params.imgMax.toNat)
      freeCount := s.freeCount + 1
      job := { s.job with reason := some .encodeError, state := .failed } })

/-- `PKT_STEP` in `Capturing`, an accepted frame and the flat container (R279, R280): as `WorkerCapturePng`,
with the same choices of the model (log entries 10, 11, 13, 14). That it holds also where the flat variant does not exist, a state no
run reaches, is the model's choice (log entry 27). -/
def Obligations.WorkerCaptureFlat : Prop :=
  ∀ (s : State) (f : Frame) (ops : EncOperands), s.job.state = .capturing → s.answers.acquire = .frame f →
    s.cfgVariant = .flat → acceptFrame .flat s.params f = .ok ops →
    let bytes := flatFile s.params ops f.payload
    (bytes.length ≤ s.params.imgMax.toNat → exec .pktStep s = .next { s with
      enc := Encoder.resting .done none
      img := s.img.writeBytes 0 bytes
      job := { s.job with
        state := .announcing, imgValid := true, imgFormat := some .flat, imgWidth := some (f.width.setWidth 16),
        imgHeight := some (f.height.setWidth 16), imgLen := some (BitVec.ofNat 32 bytes.length) } }) ∧
    (s.params.imgMax.toNat < bytes.length → ∃ e, exec .pktStep s = .next { s with
      enc := Encoder.resting .aborted (some e)
      img := s.img.writeBytes 0 (bytes.take s.params.imgMax.toNat)
      freeCount := s.freeCount + 1
      job := { s.job with reason := some .encodeError, state := .failed } })

/-- `PKT_STEP` in `Capturing`, a frame refused by the encoder (R279, R324, R335): the fault stays recorded and the job
fails with `EncodeError`; the encoder and the image buffer are untouched (log entry 8 for the names in the record;
log entry 27 for `FLAT` where the flat variant does not exist). -/
def Obligations.WorkerBadFrame : Prop :=
  ∀ (s : State) (f : Frame) (which : List FrameCondition), s.job.state = .capturing → s.answers.acquire = .frame f →
    let failedJob : Job := { s.job with reason := some .encodeError, state := .failed }
    (s.cfgVariant = .png → acceptFrame .png s.params f = .error which →
      exec .pktStep s = .next (State.raise (.badFrame .encPng which) { s with job := failedJob })) ∧
    (s.cfgVariant = .flat → acceptFrame .flat s.params f = .error which →
      exec .pktStep s = .next (State.raise (.badFrame .encFlat which) { s with job := failedJob }))

/-- `PKT_STEP` in `Announcing` (R283 to R286, R336): no subscriber, a failed send, a chunk size below 1, or `Streaming`
with the record sent and the chunk size and epoch of the one snapshot latched. A job in this state has no epoch yet, so
the send is forced to fail by nothing but the subscriber check (R285). -/
def Obligations.WorkerAnnounce : Prop :=
  ∀ (s : State) (w h : Half) (len : Word) (fmt : ImageFormat), s.job.state = .announcing → s.job.imgWidth = some w →
    s.job.imgHeight = some h → s.job.imgLen = some len → s.job.imgFormat = some fmt → s.job.epoch = none →
    let fails := fun (r : Reason) (t : State) => ({ t with job := { t.job with reason := some r, state := .failed } } : State)
    let record := le16 w ++ (le16 h ++ (le32 len ++ formatTag s.params fmt))
    let sent : State := { s with outbox := s.outbox ++ [(.metadata, record)] }
    let cs : Int := min ((s.session.maxPayload.toNat : Int) - s.params.protocolOverhead.toNat) s.params.hardCap.toNat
    (s.session.connected = false ∨ s.session.notifMeta = false →
      exec .pktStep s = .next (fails .noSubscriber s)) ∧
    (s.session.connected = true → s.session.notifMeta = true → s.answers.send = .fail →
      exec .pktStep s = .next (fails .transferAborted s)) ∧
    (s.session.connected = true → s.session.notifMeta = true → s.answers.send = .ok → cs < 1 →
      exec .pktStep s = .next (fails .transferAborted (sent.raise (.badChunkSize s.session.maxPayload)))) ∧
    (s.session.connected = true → s.session.notifMeta = true → s.answers.send = .ok → 1 ≤ cs →
      ∃ size : Half, (size.toNat : Int) = cs ∧ record.length = 12 ∧ exec .pktStep s = .next { sent with
        job := { s.job with
          state := .streaming, chunkSize := some size, epoch := some s.session.epoch, bytesSent := some 0#32 } })

/-- `PKT_STEP` in `Streaming` (R290, with `Send` by R285): an empty image is done; else one chunk of
`min(chunk_size, img_len - bytes_sent)` bytes of `IMG` is sent and counted, or the job fails with `bytes_sent` as it was.
The second and third forced failures of `Send` are the spec's own (D21). -/
def Obligations.WorkerStream : Prop :=
  ∀ (s : State) (sent len : Word) (size : Half) (epoch : Nat) (data : List Byte), s.job.state = .streaming →
    s.job.bytesSent = some sent → s.job.chunkSize = some size → s.job.imgLen = some len → s.job.epoch = some epoch →
    let n := min size.toNat (len.toNat - sent.toNat)
    let mayDeliver := s.session.connected = true ∧ s.session.notifData = true ∧ s.session.epoch = epoch ∧
      s.answers.send = .ok
    (sent = len → exec .pktStep s = .next { s with job := { s.job with state := .done } }) ∧
    (sent.toNat < len.toNat → s.img.readBytes sent.toNat n = some data →
      (¬ mayDeliver → exec .pktStep s =
        .next { s with job := { s.job with reason := some .transferAborted, state := .failed } }) ∧
      (mayDeliver → ∃ sent' : Word, sent'.toNat = sent.toNat + n ∧ exec .pktStep s = .next { s with
        outbox := s.outbox ++ [(.data, data)]
        job := { s.job with bytesSent := some sent', state := if sent' = len then .done else .streaming } }))

/-- `PKT_STEP` in `Done` and `Failed`, the release (R296, R320): the outcome is recorded, every job field and the image are
released, and the block is idle. -/
def Obligations.WorkerRelease : Prop :=
  ∀ s : State,
    (s.job.state = .done → exec .pktStep s = .next { s with lastOutcome := .done, job := Job.noJob, img := [] }) ∧
    (∀ r, s.job.state = .failed → s.job.reason = some r →
      exec .pktStep s = .next { s with lastOutcome := .failed r, job := Job.noJob, img := [] })

/-! ### The machine as a whole -/

/-- The transition relation of `pk_state` (R298, R320): every operation leaves the state or takes one listed transition,
a failure with the listed reason; from `Idle` it is a trigger, from every other state the worker's step. -/
def Obligations.JobTransitions : Prop :=
  ∀ (i : Instr) (s t : State), exec i s = .next t → t.job.state = s.job.state ∨
    ∃ r, jobTransition s.job.state t.job.state r = true ∧ (t.job.state = .failed → t.job.reason = r) ∧
      (s.job.state = .idle → i = .pktTrigger ∨ i = .pktPeerWrite 0x01#8 ∧ s.session.connected = true) ∧
      (s.job.state ≠ .idle → i = .pktStep)

/-- Events and the worker keep apart (R264, R342, R350): an event changes the session and may record a fault, nothing
else; no other operation changes the session; the epoch only grows, by connecting. -/
def Obligations.SessionSeparation : Prop :=
  ∀ (i : Instr) (s t : State), exec i s = .next t →
    (i.isSessionEvent = true → t = { s with session := t.session, faults := t.faults }) ∧
    (i.isSessionEvent = false → t.session = s.session) ∧ s.session.epoch ≤ t.session.epoch ∧
    (t.session.epoch ≠ s.session.epoch →
      i = .pktConnect ∧ s.session.connected = false ∧ t.session.epoch = s.session.epoch + 1)

/-- The frame of every operation (R16, R25, R29, R33, R40, R47, R93): each state element is written only by the operations
named for it; no operation writes the parameters, the schedule or the oracle answers. That `PKT_STEP`, whose `Capturing` step runs the
encoder, writes neither the history `sink` nor `STATUS` is the model's reading (log entry 11); the counter `freeCount` is the
model's own field (log entry 10), and so are the schedule and the answers as data (log entries 1, 2). -/
def Obligations.StateFrame : Prop :=
  ∀ (i : Instr) (s t : State), exec i s = .next t →
    t.params = s.params ∧ t.inputs = s.inputs ∧ t.answers = s.answers ∧
    (i.op ≠ .crcInit → i.op ≠ .crcUpdate → t.crcAcc = s.crcAcc) ∧
    (i.op ≠ .adlerInit → i.op ≠ .adlerUpdate → i.op ≠ .adlerLoad → t.adler = s.adler) ∧
    (i.op ≠ .encPng → i.op ≠ .encFlat → i.op ≠ .pktStep → t.enc = s.enc) ∧
    (i.op ≠ .encPng → i.op ≠ .encFlat → t.sink = s.sink ∧ t.results.status = s.results.status) ∧
    (i.op ≠ .crcFinal → i.op ≠ .adlerRead → t.results.dout32 = s.results.dout32) ∧
    (i.op ≠ .convRgb565 → i.op ≠ .convYuyv → t.results.pix = s.results.pix) ∧
    (i.op ≠ .pktConfig → t.cfgVariant = s.cfgVariant) ∧
    (i.op ≠ .pktTrigger → i.op ≠ .pktPeerWrite → i.op ≠ .pktStep → t.job = s.job) ∧
    (i.op ≠ .pktStep → t.lastOutcome = s.lastOutcome ∧ t.outbox = s.outbox ∧ t.freeCount = s.freeCount)

/-- The frame of the image buffer (R371, R279, R296): no operation but the worker's step writes a byte of it; the step
writes only in `Capturing`, only below the number of bytes it stores, and the release empties it.What a `FLAT` job stores where
the flat variant does not exist is the model's choice (log entry 27). -/
def Obligations.ImageFrame : Prop :=
  ∀ (i : Instr) (s t : State), exec i s = .next t →
    (i ≠ .pktStep → ∀ a, t.img.read a = s.img.read a) ∧
    (i = .pktStep →
      (s.job.state = .idle ∨ s.job.state = .announcing ∨ s.job.state = .streaming → ∀ a, t.img.read a = s.img.read a) ∧
      (s.job.state = .capturing → (∀ f, s.answers.acquire ≠ .frame f) → ∀ a, t.img.read a = s.img.read a) ∧
      (s.job.state = .capturing → ∀ f, s.answers.acquire = .frame f →
        ∀ a, s.captureStored f ≤ a → t.img.read a = s.img.read a) ∧
      (s.job.state = .done ∨ s.job.state = .failed ∧ s.job.reason ≠ none → ∀ a, t.img.read a = none))

/-- The fault set is sticky (R46, R330): no step removes a record. -/
def Obligations.FaultsSticky : Prop :=
  ∀ (s t : State), step s = .next t → ∀ r ∈ s.faults, r ∈ t.faults

/-- The reset state (R360): every element the spec's table lists. -/
def Obligations.ResetState : Prop :=
  State.reset.crcAcc = none ∧ State.reset.adler = none ∧ State.reset.enc = Encoder.resting .idle none ∧
  State.reset.cfgVariant = .png ∧ State.reset.job.state = .idle ∧ State.reset.job.reason = none ∧
  State.reset.job.bytesSent = none ∧ State.reset.job.chunkSize = none ∧ State.reset.job.epoch = none ∧
  State.reset.job.imgValid = false ∧ State.reset.job.imgFormat = none ∧ State.reset.job.imgWidth = none ∧
  State.reset.job.imgHeight = none ∧ State.reset.job.imgLen = none ∧ (∀ a, State.reset.img.read a = none) ∧
  State.reset.lastOutcome = .none ∧ State.reset.session.connected = false ∧ State.reset.session.notifMeta = false ∧
  State.reset.session.notifData = false ∧ State.reset.session.maxPayload = State.reset.params.defaultMaxPayload ∧
  State.reset.session.epoch = 0 ∧ State.reset.faults = [] ∧ State.reset.sink = [] ∧ State.reset.outbox = [] ∧
  State.reset.results.dout32 = none ∧ State.reset.results.pix = none ∧ State.reset.results.status = none

/-- The invariant holds after reset (R360). -/
def Obligations.InvReset : Prop := Inv State.reset

/-- Every step keeps the invariant: the encoder at rest, the image buffer canonical, the session reset while no peer is
connected, `faults` a set, and the job record and what it has delivered as R299 and R32 to R39 say. That an encoder at rest
holds no accumulator after `DONE` and that the set is a list without repeats are the model's choice (log entries 13, 7). -/
def Obligations.InvStep : Prop :=
  ∀ s t : State, Inv s → step s = .next t → Inv t

/-- The invariants of R299 (b) to (f), of the state after a step from a state that meets `Inv`. (b): when an image is held.
(c): a streaming job has bytes to send unless its image is empty. (d), (e): a job with a byte count ends `outbox` with its one
metadata record, made of its own fields, and DATA messages whose concatenation is `IMG[0 .. bytes_sent)`. (f): done means the
whole image, and a failed job with a byte count was aborted before it. (e), step by step: a record is sent only by leaving
`Announcing`, a DATA message only in `Streaming`, one a step. -/
def Obligations.JobInvariants : Prop :=
  ∀ s t : State, Inv s → step s = .next t →
    (t.job.imgValid = true ↔ t.job.state = .announcing ∨ t.job.state = .streaming ∨ t.job.state = .done ∨
      t.job.state = .failed ∧ (t.job.reason = some .noSubscriber ∨ t.job.reason = some .transferAborted)) ∧
    (t.job.state = .streaming → ∃ sent len, t.job.bytesSent = some sent ∧ t.job.imgLen = some len ∧
      (sent.toNat < len.toNat ∨ len.toNat = 0)) ∧
    (∀ sent, t.job.bytesSent = some sent → ∃ (w h : Half) (len : Word) (fmt : ImageFormat)
        (before : List (Channel × List Byte)) (msgs : List (List Byte)),
      t.job.imgWidth = some w ∧ t.job.imgHeight = some h ∧ t.job.imgLen = some len ∧ t.job.imgFormat = some fmt ∧
      t.outbox = before ++ (Channel.metadata, metadataRecord t.params w h len fmt) ::
        msgs.map (fun m => (Channel.data, m)) ∧
      t.img.readBytes 0 sent.toNat = some msgs.flatten) ∧
    (t.job.state = .done → ∃ len, t.job.imgLen = some len ∧ t.job.bytesSent = some len) ∧
    (t.job.state = .failed → ∀ sent, t.job.bytesSent = some sent → t.job.reason = some .transferAborted ∧
      ∃ len, t.job.imgLen = some len ∧ sent.toNat < len.toNat) ∧
    (t.outbox = s.outbox ∨
      (s.job.state = .announcing ∧ t.job.state ≠ .announcing ∧ ∃ w h len fmt, s.job.imgWidth = some w ∧
        s.job.imgHeight = some h ∧ s.job.imgLen = some len ∧ s.job.imgFormat = some fmt ∧
        t.outbox = s.outbox ++ [(Channel.metadata, metadataRecord s.params w h len fmt)]) ∨
      (s.job.state = .streaming ∧ ∃ data : List Byte, 1 ≤ data.length ∧ t.outbox = s.outbox ++ [(Channel.data, data)]))

/-- The worker never hangs (R276, R296, R336): from every state that meets `Inv`, `IMG_MAX + 4` worker steps with whatever
oracle answers and no trigger between them bring the block to `Idle`. -/
def Obligations.WorkerReturns : Prop :=
  ∀ (s : State) (as : List Answers), Inv s → s.params.imgMax.toNat + 4 ≤ as.length →
    (s.runWorker as).job.state = .idle

/-- A transfer runs to its end (R290, R291, R381): with the peer connected and every send answered `ok`, `ceil(img_len /
chunk_size)` steps from the start of `Streaming` send the image in pieces of `chunk_size` bytes and end in `Done` with
`bytes_sent = img_len`. -/
def Obligations.StreamingCompletes : Prop :=
  ∀ (s : State) (as : List Answers) (size : Half) (len : Word) (image : List Byte), s.job.state = .streaming →
    s.job.bytesSent = some 0#32 → s.job.chunkSize = some size → 1 ≤ size.toNat → s.job.imgLen = some len →
    1 ≤ len.toNat → s.job.epoch = some s.session.epoch → s.session.connected = true → s.session.notifData = true →
    s.img.readBytes 0 len.toNat = some image → (∀ a ∈ as, a.send = .ok) →
    as.length = (len.toNat + size.toNat - 1) / size.toNat →
    let t := s.runWorker as
    t.job.state = .done ∧ t.job.bytesSent = some len ∧ t.outbox = s.outbox ++
      (List.range as.length).map fun k => (Channel.data, (image.drop (k * size.toNat)).take size.toNat)

/-- Disconnecting in `Streaming` (R266, R285, R293): whatever operations and events follow, a new peer connecting and
subscribing among them, the very next worker step fails the job with `TransferAborted`, and nothing is sent. -/
def Obligations.DisconnectAborts : Prop :=
  ∀ (s : State) (a b : Answers) (between : List (Instr × Answers)), Inv s → s.job.state = .streaming →
    s.job.bytesSent ≠ s.job.imgLen → (∀ x ∈ between, x.1 ≠ .pktStep) →
    let t := s.runSchedule ((.pktDisconnect, a) :: (between ++ [(.pktStep, b)]))
    t.job = { s.job with state := .failed, reason := some .transferAborted } ∧ t.outbox = s.outbox
end

