-- ==== Sys2Proof/Laws/Emission.lean ====
section
/-! SUPPORT. What an emitting procedure can do, said once: it yields a byte sequence, and a sink that fails one write cuts
the run there. The lemmas of the single phases are composed by `Yields.andThen`. -/

namespace Sys2Proof.Machine

/-- How a run that has written `bytes` in all stands with a sink: still going, or aborted at the write the
sink fails with the bytes before it accepted (R231). -/
def Run.upTo (sink : Option SinkFailure) (e : Encoder) (bytes : List Byte) : Run :=
  match sink with
  | none => .going e bytes
  | some x => if bytes.length ≤ x.index then .going e bytes else .aborted x.error (bytes.take x.index)

theorem Run.upTo_fits {x : SinkFailure} {e : Encoder} {bytes : List Byte} (h : bytes.length ≤ x.index) :
    Run.upTo (some x) e bytes = .going e bytes := if_pos h

theorem Run.upTo_cut {x : SinkFailure} {e : Encoder} {bytes : List Byte} (h : ¬ bytes.length ≤ x.index) :
    Run.upTo (some x) e bytes = .aborted x.error (bytes.take x.index) := if_neg h

/-- The procedure `k` takes the encoder `e` to `e'` and writes `bs`, whatever the sink and whatever was
written before. -/
def Yields (k : Option SinkFailure → Encoder → List Byte → Run) (e e' : Encoder) (bs : List Byte) : Prop :=
  ∀ sink out, (∀ x, sink = some x → out.length ≤ x.index) → k sink e out = Run.upTo sink e' (out ++ bs)

theorem Yields.nothing (e : Encoder) : Yields (fun _ e out => .going e out) e e [] := by
  intro sink out h
  cases sink with
  | none => simp [Run.upTo]
  | some x => simp [Run.upTo, h x rfl]

theorem Yields.andThen {k l : Option SinkFailure → Encoder → List Byte → Run} {e e' e'' : Encoder} {bs cs : List Byte}
    (hk : Yields k e e' bs) (hl : Yields l e' e'' cs) :
    Yields (fun sink e out => (k sink e out).andThen (l sink)) e e'' (bs ++ cs) := by
  intro sink out h
  beta_reduce
  rw [hk sink out h]
  cases sink with
  | none => simpa [Run.upTo, Run.andThen] using hl none (out ++ bs) (by simp)
  | some x =>
    by_cases hx : (out ++ bs).length ≤ x.index
    · rw [Run.upTo_fits hx, ← List.append_assoc]
      exact hl (some x) (out ++ bs) (by rintro y ⟨⟩; exact hx)
    · have hle : ¬ (out ++ (bs ++ cs)).length ≤ x.index := by
        simp only [List.length_append] at hx ⊢; omega
      rw [Run.upTo_cut hx, Run.upTo_cut hle, ← List.append_assoc, List.take_append_of_le_length (l₁ := out ++ bs) (by omega)]
      rfl

/-- A procedure equal to another at every sink and output yields the same. -/
theorem Yields.of_eq {k l : Option SinkFailure → Encoder → List Byte → Run} {e e' : Encoder} {bs : List Byte}
    (hl : Yields l e e' bs) (h : ∀ sink out, k sink e out = l sink e out) : Yields k e e' bs :=
  fun sink out hs => (h sink out).trans (hl sink out hs)

/-- The run so far is within the sink, so the next write is accepted or ends the run. -/
theorem yields_sinkWrite (e : Encoder) (b : Byte) : Yields (fun sink e out => sinkWrite sink b e out) e e [b] := by
  intro sink out h
  cases sink with
  | none => rfl
  | some x =>
    have := h x rfl
    by_cases hx : out.length < x.index
    · simp [sinkWrite, Run.upTo, hx, Nat.succ_le_of_lt hx]
    · have heq : x.index = out.length := by omega
      simp [sinkWrite, Run.upTo, heq]

theorem yields_emit (bs : List Byte) (e : Encoder) : Yields (fun sink e out => emit sink bs e out) e e bs := by
  induction bs with
  | nil => exact Yields.nothing e
  | cons b bs ih => exact ((yields_sinkWrite e b).andThen ih).of_eq fun _ _ => rfl

/-- `EmitC` writes its bytes and feeds them, in order, to `enc_crc` (R208). -/
theorem yields_emitC (bs : List Byte) (e : Encoder) (c : Word) (hc : e.crc = some c) :
    Yields (fun sink e out => emitC sink bs e out) e { e with crc := some (crcFeed c bs) } bs := by
  induction bs generalizing e c with
  | nil =>
    have : ({ e with crc := some (crcFeed c []) } : Encoder) = e := by
      cases e; simp_all [crcFeed]
    rw [this]
    exact Yields.nothing e
  | cons b bs ih =>
    have hstep := ih { e with crc := some (crcStep c b) } (crcStep c b) rfl
    refine ((yields_sinkWrite e b).andThen (l := fun sink e out =>
      match e.crc with
      | some c => emitC sink bs { e with crc := some (crcStep c b) } out
      | none => .noValue .encCrc) (e'' := { e with crc := some (crcFeed c (b :: bs)) }) (cs := bs) ?_).of_eq
      fun _ _ => rfl
    intro sink out h
    simp only [hc]
    exact hstep sink out h

/-- `Emit(be32(~enc_crc))`. -/
theorem yields_emitCrc (e : Encoder) (c : Word) (hc : e.crc = some c) :
    Yields (fun sink e out => emitCrc sink e out) e e (be32 (~~~ c)) :=
  (yields_emit (be32 (~~~ c)) e).of_eq fun sink out => by simp [emitCrc, hc]

/-- A chunk's opening writes its length and tag and leaves the CRC of the tag (R100, R208). -/
theorem yields_openChunk (n : Nat) (tag : List Byte) (e : Encoder) :
    Yields (fun sink e out => openChunk sink n tag e out) e { e with crc := some (crcFeed crcStart tag) }
      (be32n n ++ tag) := by
  refine (yields_emit (be32n n) e).andThen (l := fun sink e out => emitC sink tag { e with crc := some crcStart } out) ?_
  exact fun sink out h => yields_emitC tag { e with crc := some crcStart } crcStart rfl sink out h

/-- Rows emitted one after the other: an invariant `P` on the rows still to come carries the encoder along. -/
theorem yields_emitRows {body : Option SinkFailure → Nat → Encoder → List Byte → Run} {bytes : List Nat → List Byte}
    {P : List Nat → Encoder → Prop} (hnil : bytes [] = [])
    (hrow : ∀ r rs e, P (r :: rs) e → ∃ e' bs, Yields (fun sink e out => body sink r e out) e e' bs ∧ P rs e' ∧
      bytes (r :: rs) = bs ++ bytes rs)
    (rs : List Nat) (e : Encoder) (h : P rs e) :
    ∃ e', P [] e' ∧ Yields (fun sink e out => emitRows (body sink) rs e out) e e' (bytes rs) := by
  induction rs generalizing e with
  | nil => exact ⟨e, h, by rw [hnil]; exact Yields.nothing e⟩
  | cons r rs ih =>
    obtain ⟨e1, bs, hy, hP, hb⟩ := hrow r rs e h
    obtain ⟨e2, hP2, hy2⟩ := ih e1 hP
    exact ⟨e2, hP2, by rw [hb]; exact (hy.andThen hy2).of_eq fun _ _ => rfl⟩

end Sys2Proof.Machine
end

