-- ==== Sys2Proof/Laws/Encoder.lean ====
section
/-! SUPPORT. The shared operations of the container encoder, each said once: what acceptance gives, how many pixels a row
converts to, the sizes with their literals, what the payload of the data chunk does to the registers, and what a chunk
and the rows of the checksum-framed variant yield. -/

namespace Sys2Proof.Machine

/-! ### Acceptance and rows -/

/-- Everything an accepted frame meets (R202, R203). -/
theorem acceptFrame_spec {v : Variant} {p : Params} {f : Frame} {ops : EncOperands} (h : acceptFrame v p f = .ok ops) :
    ∃ fmt, PixelFormat.ofCode? f.pixelFormat = some fmt ∧ ops = ⟨v, fmt, f.width, f.height, f.rowStride⟩ ∧
      dimensionsOk p f = true ∧ strideOk fmt f = true ∧ payloadOk fmt f = true ∧ lengthOk v p f = true := by
  unfold acceptFrame at h
  split at h
  · rename_i fmt h1 h2
    cases h
    refine ⟨fmt, h1, rfl, ?_⟩
    simpa [frameFailures, h1] using h2
  · cases h

/-- The data length with its literals (R209). -/
theorem dataLen_eq (w h : Nat) : dataLen w h = h * (w * 3 + 1) := rfl

/-- The block count with its literals (R209). -/
theorem blockCount_eq (w h : Nat) : blockCount w h = (h * (w * 3 + 1) + 65534) / 65535 := by
  unfold blockCount ceilDiv blockCap dataLen; omega

/-- The declared length with its literals (R209). -/
theorem wrappedLen_eq (w h : Nat) :
    wrappedLen w h = 2 + h * (w * 3 + 1) + 5 * ((h * (w * 3 + 1) + 65534) / 65535) + 4 := by
  unfold wrappedLen; rw [blockCount_eq, dataLen_eq]

theorem rgb565Row_length (w : Nat) (row : List Byte) (h : 2 * w ≤ row.length) : (rgb565Row w row).length = w := by
  induction w generalizing row with
  | zero => simp [rgb565Row]
  | succ w ih =>
    match row, h with
    | hi :: lo :: rest, h => simp [rgb565Row]; exact ih rest (by simp at h; omega)
    | [_], h => simp at h; omega
    | [], h => simp at h

theorem yuyvRow_length (w : Nat) (row : List Byte) (h : 4 * ceilDiv w 2 ≤ row.length) :
    (yuyvRow w row).length = w := by
  fun_induction yuyvRow w row with
  | case1 => simp
  | case2 w y0 u y1 v rest ih => simp; exact ih (by simp [ceilDiv] at h ⊢; omega)
  | case3 w row h1 h2 =>
    match w, row, h with
    | 0, _, _ => rfl
    | 1, a :: b :: c :: d :: r, _ => exact absurd rfl (h1 a b c d r rfl)
    | w + 2, a :: b :: c :: d :: r, _ => exact absurd rfl (h2 w a b c d r rfl)
    | w + 1, [], h => simp [ceilDiv] at h
    | w + 1, [_], h => simp [ceilDiv] at h; omega
    | w + 1, [_, _], h => simp [ceilDiv] at h; omega
    | w + 1, [_, _, _], h => simp [ceilDiv] at h; omega

/-- Every row of an accepted frame converts to `width` pixels: the read is in range (R204). -/
theorem convertRow_length {v : Variant} {p : Params} {f : Frame} {ops : EncOperands} (h : acceptFrame v p f = .ok ops)
    (r : Nat) (hr : r < f.height.toNat) : (convertRow ops f.payload r).length = f.width.toNat := by
  obtain ⟨fmt, -, rfl, -, -, h4, -⟩ := acceptFrame_spec h
  simp only [payloadOk, decide_eq_true_eq] at h4
  have hlen : ((f.payload.drop (r * f.rowStride.toNat)).take (fmt.need f.width.toNat)).length =
      fmt.need f.width.toNat := by
    have : r * f.rowStride.toNat ≤ (f.height.toNat - 1) * f.rowStride.toNat := Nat.mul_le_mul_right _ (by omega)
    have h6 : ((f.height.toNat : Int) - 1) = ((f.height.toNat - 1 : Nat) : Int) := by omega
    rw [h6] at h4
    have h7 : (f.height.toNat - 1) * f.rowStride.toNat + fmt.need f.width.toNat ≤ f.payload.length := by exact_mod_cast h4
    simp
    omega
  unfold convertRow convertPixels
  cases fmt with
  | rgb565be => exact rgb565Row_length _ _ (by rw [hlen]; simp [PixelFormat.need])
  | yuyv422 => exact yuyvRow_length _ _ (by rw [hlen]; simp [PixelFormat.need])

theorem pngRow_length (p : Params) (ps : List Pixel) : (pngRow p ps).length = 1 + 3 * ps.length := by
  induction ps with
  | nil => simp [pngRow]
  | cons a l ih => simp [pngRow, Pixel.rgb] at *; omega

theorem flatRow_length (w : Nat) (ps : List Pixel) (h : ps.length = w) : (flatRow w ps).length = flatRowSize w := by
  have hb : (ps.flatMap Pixel.bgr).length = 3 * ps.length := by
    clear h
    induction ps with
    | nil => rfl
    | cons a l ih => simp [Pixel.bgr] at *; omega
  simp only [flatRow, List.length_append, List.length_replicate, hb, h, flatRowSize]
  omega

theorem crcFeed_append (c : Word) (xs ys : List Byte) : crcFeed c (xs ++ ys) = crcFeed (crcFeed c xs) ys := by
  simp [crcFeed]

theorem adlerFeed_append (x : Adler) (xs ys : List Byte) : adlerFeed x (xs ++ ys) = adlerFeed (adlerFeed x xs) ys := by
  simp [adlerFeed]

/-! ### The counters (R28) -/

@[simp] theorem Encoder.startRows_crc (ops : EncOperands) (e : Encoder) : (e.startRows ops).crc = e.crc := rfl
@[simp] theorem Encoder.startRows_adler (ops : EncOperands) (e : Encoder) : (e.startRows ops).adler = e.adler := rfl
@[simp] theorem Encoder.startRows_phase (ops : EncOperands) (e : Encoder) : (e.startRows ops).phase = .rows := rfl
@[simp] theorem Encoder.startRows_blkLeft (ops : EncOperands) (e : Encoder) : (e.startRows ops).blkLeft = some 0#16 := rfl
@[simp] theorem Encoder.startRows_remaining (ops : EncOperands) (e : Encoder) :
    (e.startRows ops).remaining = some (Machine.dataLen ops.width.toNat ops.height.toNat) := rfl
@[simp] theorem Encoder.startRows_dataLen (ops : EncOperands) (e : Encoder) :
    (e.startRows ops).dataLen = some (Machine.dataLen ops.width.toNat ops.height.toNat) := rfl
@[simp] theorem Encoder.dropCounters_crc (e : Encoder) : e.dropCounters.crc = e.crc := rfl
@[simp] theorem Encoder.dropCounters_counters (e : Encoder) : e.dropCounters.row = none ∧ e.dropCounters.dataLen = none ∧
    e.dropCounters.remaining = none ∧ e.dropCounters.blkLeft = none := ⟨rfl, rfl, rfl, rfl⟩

/-! ### Payload bytes with their block headers (R211, R212) -/

/-- What `enc_blk_left` is after the payload bytes, from `bl` left in the block and `rem` in all. -/
def blAfter (bl rem : Nat) : List Byte → Nat
  | [] => bl
  | _ :: bs => blAfter ((if bl = 0 then min rem blockCap else bl) - 1) (rem - 1) bs

/-- The payload bytes with the block headers between them. -/
def framed (bl rem : Nat) : List Byte → List Byte
  | [] => []
  | b :: bs =>
    (if bl = 0 then blockHeader (decide (rem = min rem blockCap)) (min rem blockCap) else []) ++
      (b :: framed ((if bl = 0 then min rem blockCap else bl) - 1) (rem - 1) bs)

theorem blAfter_le {bl : Nat} (bs : List Byte) (rem : Nat) (h : bl ≤ blockCap) : blAfter bl rem bs ≤ blockCap := by
  induction bs generalizing bl rem with
  | nil => exact h
  | cons b bs ih =>
    refine ih (bl := (if bl = 0 then min rem blockCap else bl) - 1) _ ?_
    split <;> omega

theorem framed_append (bl rem : Nat) (xs ys : List Byte) :
    framed bl rem (xs ++ ys) = framed bl rem xs ++ framed (blAfter bl rem xs) (rem - xs.length) ys := by
  induction xs generalizing bl rem with
  | nil => simp [framed, blAfter]
  | cons b xs ih => simp [framed, blAfter, ih, Nat.sub_sub, Nat.add_comm]

theorem framed_open (bl rem : Nat) (xs : List Byte) (h : xs.length ≤ bl) :
    framed bl rem xs = xs ∧ blAfter bl rem xs = bl - xs.length := by
  induction xs generalizing bl rem with
  | nil => simp [framed, blAfter]
  | cons b xs ih =>
    have hb : bl ≠ 0 := by rintro rfl; simp at h
    obtain ⟨h1, h2⟩ := ih (bl - 1) (rem - 1) (by simp at h; omega)
    simp [framed, blAfter, hb, h1, h2, Nat.sub_sub, Nat.add_comm]

theorem framed_block (rem : Nat) (xs : List Byte) (h1 : xs.length = min rem blockCap) (h0 : 1 ≤ rem) :
    framed 0 rem xs = blockHeader (decide (rem = min rem blockCap)) (min rem blockCap) ++ xs ∧ blAfter 0 rem xs = 0 := by
  have hc : 0 < blockCap := by decide
  cases xs with
  | nil => simp at h1; omega
  | cons b xs =>
    obtain ⟨h2, h3⟩ := framed_open (min rem blockCap - 1) (rem - 1) xs (by simp at h1; omega)
    simp only [framed, blAfter, if_true, h2, h3]
    simp at h1
    simp
    omega

theorem ceilDiv_blockCap (len : Nat) (h0 : 1 ≤ len) :
    (ceilDiv len blockCap = 1 → len ≤ blockCap) ∧
    (∀ n, ceilDiv len blockCap = n + 2 → blockCap < len ∧ ceilDiv (len - blockCap) blockCap = n + 1) ∧
    ceilDiv len blockCap ≠ 0 := by
  simp only [ceilDiv, blockCap]
  exact ⟨by omega, fun n h => ⟨by omega, by omega⟩, by omega⟩

/-- Emitting headers on demand gives the blocks of the closed form (R216). -/
theorem framed_storedBlocks (n : Nat) (P : List Byte) (h0 : 1 ≤ P.length) (hn : ceilDiv P.length blockCap = n) :
    framed 0 P.length P = storedBlocks n P := by
  induction n generalizing P with
  | zero => exact absurd hn (ceilDiv_blockCap _ h0).2.2
  | succ n ih =>
    cases n with
    | zero =>
      have : P.length ≤ blockCap := (ceilDiv_blockCap _ h0).1 hn
      rw [(framed_block P.length P (by omega) h0).1]
      simp [storedBlocks, Nat.min_eq_left this]
    | succ n =>
      obtain ⟨hlen, hnext⟩ := (ceilDiv_blockCap _ h0).2.1 n hn
      conv_lhs => rw [← List.take_append_drop blockCap P]
      rw [framed_append]
      have hl : (P.take blockCap).length = blockCap := by simp; omega
      have := framed_block P.length (P.take blockCap) (by rw [hl]; omega) h0
      rw [show (P.take blockCap ++ P.drop blockCap).length = P.length by simp]
      rw [this.1, this.2, hl]
      have h2 : P.length - blockCap = (P.drop blockCap).length := by simp
      rw [h2, ih (P.drop blockCap) (by simp; omega) (by rw [← h2]; exact hnext)]
      have h3 : P.length ≠ blockCap := by omega
      simp [storedBlocks, Nat.min_eq_right hlen.le, h3]

/-! ### What the pieces yield -/

/-- A procedure that emits nothing. -/
theorem Yields.to {k : Option SinkFailure → Encoder → List Byte → Run} {e e' : Encoder}
    (h : ∀ sink out, k sink e out = .going e' out) : Yields k e e' [] :=
  fun sink out hs => by rw [h]; simpa using (Yields.nothing e') sink out hs

/-- A procedure that first writes registers and then does what another does. -/
theorem Yields.after {k : Option SinkFailure → Encoder → List Byte → Run} {e e0 e' : Encoder} {bs : List Byte}
    (h : Yields k e0 e' bs) (k' : Option SinkFailure → Encoder → List Byte → Run)
    (hk : ∀ sink out, k' sink e out = k sink e0 out) : Yields k' e e' bs :=
  fun sink out hs => (hk sink out).trans (h sink out hs)

/-- A whole chunk (R100, R208). -/
theorem yields_chunk (n : Nat) (tag d : List Byte) (hn : d.length = n) (e : Encoder) :
    Yields (fun sink e out => (openChunk sink n tag e out).andThen fun e out => (emitC sink d e out).andThen (emitCrc sink))
      e { e with crc := some (crcFeed crcStart (tag ++ d)) } (chunk tag d) := by
  have h1 := yields_openChunk n tag e
  have h2 := (yields_emitC d { e with crc := some (crcFeed crcStart tag) } _ rfl).andThen (yields_emitCrc _ _ rfl)
  have := h1.andThen h2
  subst hn
  simpa [chunk, crc32, crcFeed_append] using this

/-- Counting one byte of a block in `enc_blk_left` (R28: 16 bits). -/
theorem blk_sub {bl : Nat} (h1 : 1 ≤ bl) : BitVec.ofNat 16 bl - 1#16 = BitVec.ofNat 16 (bl - 1) := by
  apply BitVec.eq_of_toNat_eq
  simp
  omega

/-- One payload byte: its header if one is due, the CRC over both, the Adler sums over the byte (R212, R213). -/
theorem yields_payloadByte (b : Byte) (e : Encoder) (c : Word) (x : Adler) (bl rem : Nat)
    (hc : e.crc = some c) (hx : e.adler = some x) (hbl : e.blkLeft = some (BitVec.ofNat 16 bl))
    (hr : e.remaining = some rem) (hcap : bl ≤ blockCap) (hpos : 1 ≤ rem) :
    Yields (fun sink e out => emitPayloadByte sink b e out) e
      { e with crc := some (crcFeed c (framed bl rem [b])), adler := some (adlerStep x b),
               blkLeft := some (BitVec.ofNat 16 (blAfter bl rem [b])), remaining := some (rem - 1) }
      (framed bl rem [b]) := by
  have hwrite : ∀ (e : Encoder) c bl, e.crc = some c → e.adler = some x → e.blkLeft = some (BitVec.ofNat 16 bl) →
      e.remaining = some rem → 1 ≤ bl → Yields (fun sink e out => (emitC sink [b] e out).andThen (countByte b)) e
      { e with crc := some (crcFeed c [b]), adler := some (adlerStep x b),
               blkLeft := some (BitVec.ofNat 16 (bl - 1)), remaining := some (rem - 1) } ([b] ++ []) := by
    intro e c bl hc hx hbl hr h1
    refine (yields_emitC [b] e c hc).andThen (l := fun _ e out => countByte b e out) ?_
    exact Yields.to fun _ _ => by simp only [countByte, hx, hbl, hr, blk_sub h1]
  have hc65535 : blockCap = 65535 := rfl
  cases bl with
  | succ bl =>
    have := (hwrite e c (bl + 1) hc hx hbl hr (by omega))
    have hne : BitVec.ofNat 16 (bl + 1) ≠ 0#16 := by
      intro h0
      have := congrArg BitVec.toNat h0
      simp at this
      omega
    simp only [framed, blAfter, List.append_nil] at this ⊢
    simp only [Nat.add_eq_zero_iff, one_ne_zero, and_false, if_false, List.nil_append] at this ⊢
    exact this.of_eq fun sink out => by simp only [emitPayloadByte, hbl, hne, if_false]
  | zero =>
    have hopen : Yields (fun sink e out => openBlock sink e out) e
        { e with crc := some (crcFeed c (blockHeader (decide (rem = min rem blockCap)) (min rem blockCap))),
                 blkLeft := some (BitVec.ofNat 16 (min rem blockCap)) }
        (blockHeader (decide (rem = min rem blockCap)) (min rem blockCap) ++ []) := by
      refine ((yields_emitC _ e c hc).andThen 
        (l := fun _ e out => .going { e with blkLeft := some (BitVec.ofNat 16 (min rem blockCap)) } out)
        (Yields.to fun _ _ => rfl)).of_eq fun sink out => by simp only [openBlock, hr]
    have := hopen.andThen (hwrite _ _ (min rem blockCap) rfl hx rfl hr (by omega))
    simp only [framed, blAfter, List.append_nil, if_true] at this ⊢
    have h2 : crcFeed (crcFeed c (blockHeader (decide (rem = min rem blockCap)) (min rem blockCap))) [b] =
      crcFeed c (blockHeader (decide (rem = min rem blockCap)) (min rem blockCap) ++ [b]) := by simp [crcFeed]
    rw [h2] at this
    exact this.of_eq fun sink out => by simp only [emitPayloadByte, hbl, if_true]

/-- A run of payload bytes. -/
theorem yields_payload (bs : List Byte) (e : Encoder) (c : Word) (x : Adler) (bl rem : Nat)
    (hc : e.crc = some c) (hx : e.adler = some x) (hbl : e.blkLeft = some (BitVec.ofNat 16 bl))
    (hr : e.remaining = some rem) (hcap : bl ≤ blockCap) (hlen : bs.length ≤ rem) :
    Yields (fun sink e out => emitPayload sink bs e out) e
      { e with crc := some (crcFeed c (framed bl rem bs)), adler := some (adlerFeed x bs),
               blkLeft := some (BitVec.ofNat 16 (blAfter bl rem bs)), remaining := some (rem - bs.length) }
      (framed bl rem bs) := by
  induction bs generalizing e c x bl rem with
  | nil =>
    have : e = Encoder.mk e.phase e.operands e.row e.dataLen (some rem) (some (BitVec.ofNat 16 (blAfter bl rem [])))
        (some (crcFeed c (framed bl rem []))) (some (adlerFeed x [])) e.rowbuf e.err := by
      cases e; simp_all [crcFeed, adlerFeed, framed, blAfter]
    simp only [List.length_nil, Nat.sub_zero]
    rw [← this]; exact Yields.nothing e
  | cons b bs ih =>
    have hlen' : bs.length + 1 ≤ rem := hlen
    have h1 := yields_payloadByte b e c x bl rem hc hx hbl hr hcap (by omega)
    have h2 := h1.andThen (ih _ _ _ (blAfter bl rem [b]) (rem - 1) rfl rfl rfl rfl (blAfter_le [b] rem hcap) (by omega))
    have h3 : framed bl rem (b :: bs) = framed bl rem [b] ++ framed (blAfter bl rem [b]) (rem - 1) bs :=
      framed_append bl rem [b] bs
    have h4 : blAfter bl rem (b :: bs) = blAfter (blAfter bl rem [b]) (rem - 1) bs := rfl
    rw [h3, h4]
    have h5 : rem - 1 - bs.length = rem - (b :: bs).length := by simp; omega
    have h6 : crcFeed (crcFeed c (framed bl rem [b])) (framed (blAfter bl rem [b]) (rem - 1) bs) =
      crcFeed c (framed bl rem [b] ++ framed (blAfter bl rem [b]) (rem - 1) bs) := by simp [crcFeed]
    rw [h5, h6] at h2
    exact h2.of_eq fun _ _ => rfl

/-- The rows of the checksum-framed variant (R205 phase ROWS, R211 to R214). -/
theorem yields_pngRows (p : Params) (ops : EncOperands) (payload : List Byte) (rs : List Nat) (e : Encoder) (c : Word)
    (x : Adler) (bl rem : Nat)
    (hc : e.crc = some c) (hx : e.adler = some x) (hbl : e.blkLeft = some (BitVec.ofNat 16 bl))
    (hr : e.remaining = some rem) (hcap : bl ≤ blockCap)
    (hlen : (rs.flatMap fun r => pngRow p (convertRow ops payload r)).length ≤ rem) :
    ∃ e', Yields (fun sink e out => emitRows (emitPngRow sink p ops payload) rs e out) e e'
       (framed bl rem (rs.flatMap fun r => pngRow p (convertRow ops payload r))) ∧
      e'.crc = some (crcFeed c (framed bl rem (rs.flatMap fun r => pngRow p (convertRow ops payload r)))) ∧
      e'.adler = some (adlerFeed x (rs.flatMap fun r => pngRow p (convertRow ops payload r))) := by
  induction rs generalizing e c x bl rem with
  | nil => exact ⟨e, Yields.nothing e, hc, hx⟩
  | cons r rs ih =>
    let buf := pngRow p (convertRow ops payload r)
    rw [List.flatMap_cons, List.length_append] at hlen
    have hl : buf.length ≤ rem := by simp only [buf]; omega
    have h1 := yields_payload buf { e with row := some (BitVec.ofNat 32 r), rowbuf := some buf } c x bl rem hc hx hbl hr
      hcap hl
    let e1 : Encoder := { e with
      row := some (BitVec.ofNat 32 r)
      rowbuf := some buf
      crc := some (crcFeed c (framed bl rem buf))
      adler := some (adlerFeed x buf)
      blkLeft := some (BitVec.ofNat 16 (blAfter bl rem buf))
      remaining := some (rem - buf.length) }
    obtain ⟨e', h2, h3, h4⟩ := ih e1 _ _ (blAfter bl rem buf) (rem - buf.length) rfl rfl rfl rfl
      (blAfter_le buf rem hcap) (by simp only [buf]; omega)
    refine ⟨e', ?_, ?_, ?_⟩
    · have h5 : Yields (fun sink e out => emitPngRow sink p ops payload r e out) e _ _ := fun sink out hs => h1 sink out hs
      have := h5.andThen h2
      rw [List.flatMap_cons, framed_append]
      exact this.of_eq fun _ _ => rfl
    · rw [List.flatMap_cons, framed_append, h3]; simp [crcFeed, buf]
    · rw [h4, List.flatMap_cons]; simp [adlerFeed, buf]

/-- The rows of the flat variant, in whatever order they are asked for (R241, R243). -/
theorem yields_flatRows (ops : EncOperands) (payload : List Byte) (rs : List Nat) (e : Encoder) :
    ∃ e', Yields (fun sink e out => emitRows (emitFlatRow sink ops payload) rs e out) e e'
      (rs.flatMap fun r => flatRow ops.width.toNat (convertRow ops payload r)) := by
  obtain ⟨e', -, h⟩ := yields_emitRows (body := fun sink => emitFlatRow sink ops payload)
    (bytes := fun rs => rs.flatMap fun r => flatRow ops.width.toNat (convertRow ops payload r)) (P := fun _ _ => True) rfl
    (fun r rs e _ => ⟨_, _, (yields_emit (flatRow ops.width.toNat (convertRow ops payload r))
      { e with row := some (BitVec.ofNat 32 r), rowbuf := some (flatRow ops.width.toNat (convertRow ops payload r)) }).after _
      (fun _ _ => rfl), trivial, rfl⟩) rs e trivial
  exact ⟨e', h⟩

end Sys2Proof.Machine
end

