-- ==== Sys2Proof/Laws/Memory.lean ====
section
/-! SUPPORT. The image buffer: every write keeps the canonical form, a read after a write, and runs of bytes. -/

namespace Sys2Proof.Machine

/-- Every address of a memory is above `k`. -/
theorem Memory.wf_cons {k : Nat} {b : Byte} {m : Memory} :
    Memory.wf ((k, b) :: m) ↔ (∀ x ∈ m, k < x.1) ∧ Memory.wf m := List.pairwise_cons

theorem Memory.mem_write {m : Memory} {addr : Nat} {byte : Byte} {x : Host.Cell} (h : x ∈ m.write addr byte) :
    x = (addr, byte) ∨ x ∈ m := by
  induction m with
  | nil => simpa [Memory.write] using h
  | cons c rest ih =>
    obtain ⟨k, b⟩ := c
    unfold Memory.write at h
    split at h
    · simpa using h
    · split at h
      · simp at h ⊢; tauto
      · simp at h ⊢
        obtain h | h := h
        · tauto
        · have := ih h; tauto

/-- A write keeps the canonical form. -/
theorem Memory.write_wf {m : Memory} (addr : Nat) (byte : Byte) (h : m.wf) : Memory.wf (m.write addr byte) := by
  induction m with
  | nil => exact List.pairwise_singleton _ _
  | cons c rest ih =>
    obtain ⟨k, b⟩ := c
    rw [Memory.wf_cons] at h
    unfold Memory.write
    split
    · rename_i hlt
      rw [Memory.wf_cons, Memory.wf_cons]
      refine ⟨?_, h⟩
      intro x hx
      rcases List.mem_cons.1 hx with rfl | hx
      · exact hlt
      · exact lt_trans hlt (h.1 x hx)
    · split
      · rename_i heq
        subst heq
        exact Memory.wf_cons.2 h
      · rename_i h1 h2
        rw [Memory.wf_cons]
        refine ⟨fun x hx => ?_, ih h.2⟩
        rcases Memory.mem_write hx with rfl | hx
        · exact lt_of_le_of_ne (Nat.not_lt.1 h1) (Ne.symm h2)
        · exact h.1 x hx

/-- Writing a byte sequence keeps the canonical form. -/
theorem Memory.writeBytes_wf {m : Memory} (addr : Nat) (bs : List Byte) (h : m.wf) :
    Memory.wf (m.writeBytes addr bs) := by
  induction bs generalizing m addr with
  | nil => exact h
  | cons b bs ih => exact ih (addr + 1) (Memory.write_wf addr b h)

/-- An address below every listed one reads as no value. -/
theorem Memory.read_none_of_lt {m : Memory} {addr : Nat} (h : ∀ x ∈ m, addr < x.1) : m.read addr = none := by
  induction m with
  | nil => rfl
  | cons c rest ih =>
    obtain ⟨k, b⟩ := c
    have hk : addr < k := h (k, b) (by simp)
    simp only [Memory.read, if_neg (Nat.ne_of_gt hk)]
    exact ih fun x hx => h x (List.mem_cons_of_mem _ hx)

/-- A read after a write: the byte written at its address, the old contents elsewhere. -/
theorem Memory.read_write (m : Memory) (addr : Nat) (byte : Byte) (a : Nat) :
    (m.write addr byte).read a = if a = addr then some byte else m.read a := by
  induction m with
  | nil => simp [Memory.write, Memory.read, Memory.unlisted, eq_comm]
  | cons c rest ih =>
    obtain ⟨k, b⟩ := c
    unfold Memory.write
    split
    · simp only [Memory.read]
      by_cases h : addr = a <;> simp [h, eq_comm]
    · split
      · rename_i h1 h2
        subst h2
        simp only [Memory.read]
        by_cases h : addr = a <;> simp [h, eq_comm]
      · rename_i h1 h2
        simp only [Memory.read, ih]
        by_cases h : k = a
        · subst h; simp [Ne.symm h2]
        · simp [h]

/-- A read after a run of writes. -/
theorem Memory.read_writeBytes (m : Memory) (addr : Nat) (bs : List Byte) (a : Nat) :
    (m.writeBytes addr bs).read a = if addr ≤ a ∧ a < addr + bs.length then bs[a - addr]? else m.read a := by
  induction bs generalizing m addr with
  | nil =>
    have : ¬ (addr ≤ a ∧ a < addr + 0) := by omega
    simp only [Memory.writeBytes, List.length_nil, if_neg this]
  | cons b bs ih =>
    rw [Memory.writeBytes, ih, Memory.read_write, List.length_cons]
    by_cases h : a = addr
    · subst h
      have h1 : ¬ (a + 1 ≤ a ∧ a < a + 1 + bs.length) := by omega
      have h2 : a ≤ a ∧ a < a + (bs.length + 1) := by omega
      rw [if_neg h1, if_pos rfl, if_pos h2, Nat.sub_self]; rfl
    · by_cases h2 : addr + 1 ≤ a ∧ a < addr + 1 + bs.length
      · have h3 : addr ≤ a ∧ a < addr + (bs.length + 1) := by omega
        have h4 : a - addr = a - (addr + 1) + 1 := by omega
        rw [if_pos h2, if_pos h3, h4, List.getElem?_cons_succ]
      · have h3 : ¬ (addr ≤ a ∧ a < addr + (bs.length + 1)) := by omega
        rw [if_neg h2, if_neg h3, if_neg h]

/-- A run of bytes is read exactly when each of them is. -/
theorem Memory.readBytes_eq (m : Memory) (addr n : Nat) (bs : List Byte) :
    m.readBytes addr n = some bs ↔ bs.length = n ∧ ∀ k, (h : k < bs.length) → m.read (addr + k) = some bs[k] := by
  induction n generalizing addr bs with
  | zero =>
    cases bs with
    | nil => simp [Memory.readBytes]
    | cons b bs => simp [Memory.readBytes]
  | succ n ih =>
    cases bs with
    | nil => simp only [Memory.readBytes]; cases m.read addr <;> cases m.readBytes (addr + 1) n <;> simp
    | cons b bs =>
      have hrec : (m.readBytes addr (n + 1) = some (b :: bs)) ↔ m.read addr = some b ∧ m.readBytes (addr + 1) n = some bs := by
        simp only [Memory.readBytes]
        cases m.read addr <;> cases m.readBytes (addr + 1) n <;> simp
      rw [hrec, ih]
      constructor
      · rintro ⟨h1, h2, h3⟩
        refine ⟨by simp [h2], fun k hk => ?_⟩
        cases k with
        | zero => simpa using h1
        | succ k =>
          have := h3 k (by simpa using hk)
          rw [Nat.add_assoc, Nat.add_comm 1 k] at this
          simpa using this
      · rintro ⟨h1, h2⟩
        refine ⟨h2 0 (by simp), by simpa using h1, fun k hk => ?_⟩
        have := h2 (k + 1) (by simpa using hk)
        rw [Nat.add_assoc, Nat.add_comm 1 k]
        simpa using this

/-- What a run of writes from address 0 leaves to be read. -/
theorem Memory.readBytes_writeBytes (m : Memory) (bs : List Byte) : (m.writeBytes 0 bs).readBytes 0 bs.length = some bs := by
  rw [Memory.readBytes_eq]
  refine ⟨rfl, fun k hk => ?_⟩
  rw [Memory.read_writeBytes, if_pos (by omega)]
  simp [hk]

/-- A part of a readable run is readable. -/
theorem Memory.readBytes_part {m : Memory} {len : Nat} {image : List Byte} (h : m.readBytes 0 len = some image) (from_ n : Nat)
    (hn : from_ + n ≤ len) : m.readBytes from_ n = some ((image.drop from_).take n) := by
  rw [Memory.readBytes_eq] at h ⊢
  obtain ⟨h1, h2⟩ := h
  refine ⟨by simp; omega, fun k hk => ?_⟩
  simp at hk
  have := h2 (from_ + k) (by omega)
  simpa using this

end Sys2Proof.Machine
end

