-- ==== Sys2Proof/Laws/PerInstr.lean ====
section
/-! SUPPORT. Statements made per instruction, one lemma per constructor of `Instr`. -/

namespace Sys2Proof.Laws.OpcodeNamed

/-- The opcode an operation is encoded with names that operation in the opcode map, and the map has no other row for it
(R94). -/
def Statement (i : Instr) : Prop :=
  Op.ofOpcode (encode i).opcode = some i.op ∧
    opcodeMap.filter (fun row => decide (row.2 = i.op)) = [((encode i).opcode, i.op)]

theorem crcInit : Statement .crcInit := ⟨rfl, rfl⟩
theorem crcUpdate (byte : Byte) : Statement (.crcUpdate byte) := ⟨rfl, rfl⟩
theorem crcFinal : Statement .crcFinal := ⟨rfl, rfl⟩
theorem adlerInit : Statement .adlerInit := ⟨rfl, rfl⟩
theorem adlerUpdate (byte : Byte) : Statement (.adlerUpdate byte) := ⟨rfl, rfl⟩
theorem adlerRead : Statement .adlerRead := ⟨rfl, rfl⟩
theorem adlerLoad (running : Word) : Statement (.adlerLoad running) := ⟨rfl, rfl⟩
theorem convRgb565 (width : Word) (row : List Byte) : Statement (.convRgb565 width row) := ⟨rfl, rfl⟩
theorem convYuyv (width : Word) (row : List Byte) : Statement (.convYuyv width row) := ⟨rfl, rfl⟩
theorem encPng (frame : Frame) : Statement (.encPng frame) := ⟨rfl, rfl⟩
theorem encFlat (frame : Frame) : Statement (.encFlat frame) := ⟨rfl, rfl⟩
theorem pktConfig (variant : Nat) : Statement (.pktConfig variant) := ⟨rfl, rfl⟩
theorem pktTrigger : Statement .pktTrigger := ⟨rfl, rfl⟩
theorem pktPeerWrite (byte : Byte) : Statement (.pktPeerWrite byte) := ⟨rfl, rfl⟩
theorem pktConnect : Statement .pktConnect := ⟨rfl, rfl⟩
theorem pktDisconnect : Statement .pktDisconnect := ⟨rfl, rfl⟩
theorem pktSubscribe (ch : Nat) : Statement (.pktSubscribe ch) := ⟨rfl, rfl⟩
theorem pktUnsubscribe (ch : Nat) : Statement (.pktUnsubscribe ch) := ⟨rfl, rfl⟩
theorem pktSetMaxPayload (v : Half) : Statement (.pktSetMaxPayload v) := ⟨rfl, rfl⟩
theorem pktStep : Statement .pktStep := ⟨rfl, rfl⟩

end Sys2Proof.Laws.OpcodeNamed
end

