-- ==== Sys2Proof/Laws/State.lean ====
section
/-! SUPPORT. One lemma per field per named update of State, so that no proof unfolds a record update, and one lemma per
shared update saying all it can do. -/

namespace Sys2Proof.Machine

variable (s : State)

/-! ### `State.raise` changes `faults` only (R330) -/

@[simp] theorem State.raise_crcAcc (r : FaultRecord) : (s.raise r).crcAcc = s.crcAcc := rfl
@[simp] theorem State.raise_adler (r : FaultRecord) : (s.raise r).adler = s.adler := rfl
@[simp] theorem State.raise_enc (r : FaultRecord) : (s.raise r).enc = s.enc := rfl
@[simp] theorem State.raise_cfgVariant (r : FaultRecord) : (s.raise r).cfgVariant = s.cfgVariant := rfl
@[simp] theorem State.raise_job (r : FaultRecord) : (s.raise r).job = s.job := rfl
@[simp] theorem State.raise_img (r : FaultRecord) : (s.raise r).img = s.img := rfl
@[simp] theorem State.raise_lastOutcome (r : FaultRecord) : (s.raise r).lastOutcome = s.lastOutcome := rfl
@[simp] theorem State.raise_session (r : FaultRecord) : (s.raise r).session = s.session := rfl
@[simp] theorem State.raise_sink (r : FaultRecord) : (s.raise r).sink = s.sink := rfl
@[simp] theorem State.raise_outbox (r : FaultRecord) : (s.raise r).outbox = s.outbox := rfl
@[simp] theorem State.raise_results (r : FaultRecord) : (s.raise r).results = s.results := rfl
@[simp] theorem State.raise_inputs (r : FaultRecord) : (s.raise r).inputs = s.inputs := rfl
@[simp] theorem State.raise_answers (r : FaultRecord) : (s.raise r).answers = s.answers := rfl
@[simp] theorem State.raise_params (r : FaultRecord) : (s.raise r).params = s.params := rfl
@[simp] theorem State.raise_freeCount (r : FaultRecord) : (s.raise r).freeCount = s.freeCount := rfl

/-- The set after a raise: the old records, and the new one once (R46). -/
theorem State.mem_raise_faults (r q : FaultRecord) : q ∈ (s.raise r).faults ↔ q ∈ s.faults ∨ q = r := by
  unfold State.raise
  by_cases h : r ∈ s.faults
  · simp only [h, if_true]; exact ⟨Or.inl, fun | .inl h' => h' | .inr h' => h' ▸ h⟩
  · simp [h]

/-- The records keep their order: an old set is a prefix of the new one. -/
theorem State.raise_faults_prefix (r : FaultRecord) : s.faults <+: (s.raise r).faults := by
  unfold State.raise
  by_cases h : r ∈ s.faults <;> simp [h]

/-- A raise keeps the set free of repeats (log entry 7). -/
theorem State.raise_faults_nodup (r : FaultRecord) (h : s.faults.Nodup) : (s.raise r).faults.Nodup := by
  unfold State.raise
  by_cases hr : r ∈ s.faults
  · simpa [hr] using h
  · simpa [hr, List.nodup_append] using ⟨h, fun a ha har => hr (har ▸ ha)⟩

/-- A record already present changes nothing at all (R330: the set is sticky). -/
theorem State.raise_of_mem (r : FaultRecord) (h : r ∈ s.faults) : s.raise r = s := by
  simp [State.raise, h]

/-! ### `State.fail` writes `pk_reason` and `pk_state` only (R276) -/

@[simp] theorem State.fail_crcAcc (r : Reason) : (s.fail r).crcAcc = s.crcAcc := rfl
@[simp] theorem State.fail_adler (r : Reason) : (s.fail r).adler = s.adler := rfl
@[simp] theorem State.fail_enc (r : Reason) : (s.fail r).enc = s.enc := rfl
@[simp] theorem State.fail_cfgVariant (r : Reason) : (s.fail r).cfgVariant = s.cfgVariant := rfl
@[simp] theorem State.fail_img (r : Reason) : (s.fail r).img = s.img := rfl
@[simp] theorem State.fail_lastOutcome (r : Reason) : (s.fail r).lastOutcome = s.lastOutcome := rfl
@[simp] theorem State.fail_session (r : Reason) : (s.fail r).session = s.session := rfl
@[simp] theorem State.fail_faults (r : Reason) : (s.fail r).faults = s.faults := rfl
@[simp] theorem State.fail_sink (r : Reason) : (s.fail r).sink = s.sink := rfl
@[simp] theorem State.fail_outbox (r : Reason) : (s.fail r).outbox = s.outbox := rfl
@[simp] theorem State.fail_results (r : Reason) : (s.fail r).results = s.results := rfl
@[simp] theorem State.fail_inputs (r : Reason) : (s.fail r).inputs = s.inputs := rfl
@[simp] theorem State.fail_answers (r : Reason) : (s.fail r).answers = s.answers := rfl
@[simp] theorem State.fail_params (r : Reason) : (s.fail r).params = s.params := rfl
@[simp] theorem State.fail_freeCount (r : Reason) : (s.fail r).freeCount = s.freeCount := rfl

@[simp] theorem State.fail_job (r : Reason) : (s.fail r).job = { s.job with reason := some r, state := .failed } := rfl

/-! ### `State.release` (R296) -/

@[simp] theorem State.release_crcAcc (o : JobOutcome) : (s.release o).crcAcc = s.crcAcc := rfl
@[simp] theorem State.release_adler (o : JobOutcome) : (s.release o).adler = s.adler := rfl
@[simp] theorem State.release_enc (o : JobOutcome) : (s.release o).enc = s.enc := rfl
@[simp] theorem State.release_cfgVariant (o : JobOutcome) : (s.release o).cfgVariant = s.cfgVariant := rfl
@[simp] theorem State.release_session (o : JobOutcome) : (s.release o).session = s.session := rfl
@[simp] theorem State.release_faults (o : JobOutcome) : (s.release o).faults = s.faults := rfl
@[simp] theorem State.release_sink (o : JobOutcome) : (s.release o).sink = s.sink := rfl
@[simp] theorem State.release_outbox (o : JobOutcome) : (s.release o).outbox = s.outbox := rfl
@[simp] theorem State.release_results (o : JobOutcome) : (s.release o).results = s.results := rfl
@[simp] theorem State.release_inputs (o : JobOutcome) : (s.release o).inputs = s.inputs := rfl
@[simp] theorem State.release_answers (o : JobOutcome) : (s.release o).answers = s.answers := rfl
@[simp] theorem State.release_params (o : JobOutcome) : (s.release o).params = s.params := rfl
@[simp] theorem State.release_freeCount (o : JobOutcome) : (s.release o).freeCount = s.freeCount := rfl

@[simp] theorem State.release_lastOutcome (o : JobOutcome) : (s.release o).lastOutcome = o := rfl
@[simp] theorem State.release_job (o : JobOutcome) : (s.release o).job = Job.noJob := rfl
@[simp] theorem State.release_img (o : JobOutcome) : (s.release o).img = [] := rfl

/-! ### `State.imageReady` writes the job record only (R279) -/

@[simp] theorem State.imageReady_crcAcc (fmt : ImageFormat) (f : Frame) (n : Nat) : (s.imageReady fmt f n).crcAcc = s.crcAcc := rfl
@[simp] theorem State.imageReady_adler (fmt : ImageFormat) (f : Frame) (n : Nat) : (s.imageReady fmt f n).adler = s.adler := rfl
@[simp] theorem State.imageReady_enc (fmt : ImageFormat) (f : Frame) (n : Nat) : (s.imageReady fmt f n).enc = s.enc := rfl
@[simp] theorem State.imageReady_cfgVariant (fmt : ImageFormat) (f : Frame) (n : Nat) : (s.imageReady fmt f n).cfgVariant = s.cfgVariant := rfl
@[simp] theorem State.imageReady_img (fmt : ImageFormat) (f : Frame) (n : Nat) : (s.imageReady fmt f n).img = s.img := rfl
@[simp] theorem State.imageReady_lastOutcome (fmt : ImageFormat) (f : Frame) (n : Nat) : (s.imageReady fmt f n).lastOutcome = s.lastOutcome := rfl
@[simp] theorem State.imageReady_session (fmt : ImageFormat) (f : Frame) (n : Nat) : (s.imageReady fmt f n).session = s.session := rfl
@[simp] theorem State.imageReady_faults (fmt : ImageFormat) (f : Frame) (n : Nat) : (s.imageReady fmt f n).faults = s.faults := rfl
@[simp] theorem State.imageReady_sink (fmt : ImageFormat) (f : Frame) (n : Nat) : (s.imageReady fmt f n).sink = s.sink := rfl
@[simp] theorem State.imageReady_outbox (fmt : ImageFormat) (f : Frame) (n : Nat) : (s.imageReady fmt f n).outbox = s.outbox := rfl
@[simp] theorem State.imageReady_results (fmt : ImageFormat) (f : Frame) (n : Nat) : (s.imageReady fmt f n).results = s.results := rfl
@[simp] theorem State.imageReady_inputs (fmt : ImageFormat) (f : Frame) (n : Nat) : (s.imageReady fmt f n).inputs = s.inputs := rfl
@[simp] theorem State.imageReady_answers (fmt : ImageFormat) (f : Frame) (n : Nat) : (s.imageReady fmt f n).answers = s.answers := rfl
@[simp] theorem State.imageReady_params (fmt : ImageFormat) (f : Frame) (n : Nat) : (s.imageReady fmt f n).params = s.params := rfl
@[simp] theorem State.imageReady_freeCount (fmt : ImageFormat) (f : Frame) (n : Nat) : (s.imageReady fmt f n).freeCount = s.freeCount := rfl

/-! ### `State.advance` writes the job record only (R290) -/

@[simp] theorem State.advance_crcAcc (sent len : Word) (n : Nat) : (s.advance sent len n).crcAcc = s.crcAcc := rfl
@[simp] theorem State.advance_adler (sent len : Word) (n : Nat) : (s.advance sent len n).adler = s.adler := rfl
@[simp] theorem State.advance_enc (sent len : Word) (n : Nat) : (s.advance sent len n).enc = s.enc := rfl
@[simp] theorem State.advance_cfgVariant (sent len : Word) (n : Nat) : (s.advance sent len n).cfgVariant = s.cfgVariant := rfl
@[simp] theorem State.advance_img (sent len : Word) (n : Nat) : (s.advance sent len n).img = s.img := rfl
@[simp] theorem State.advance_lastOutcome (sent len : Word) (n : Nat) : (s.advance sent len n).lastOutcome = s.lastOutcome := rfl
@[simp] theorem State.advance_session (sent len : Word) (n : Nat) : (s.advance sent len n).session = s.session := rfl
@[simp] theorem State.advance_faults (sent len : Word) (n : Nat) : (s.advance sent len n).faults = s.faults := rfl
@[simp] theorem State.advance_sink (sent len : Word) (n : Nat) : (s.advance sent len n).sink = s.sink := rfl
@[simp] theorem State.advance_outbox (sent len : Word) (n : Nat) : (s.advance sent len n).outbox = s.outbox := rfl
@[simp] theorem State.advance_results (sent len : Word) (n : Nat) : (s.advance sent len n).results = s.results := rfl
@[simp] theorem State.advance_inputs (sent len : Word) (n : Nat) : (s.advance sent len n).inputs = s.inputs := rfl
@[simp] theorem State.advance_answers (sent len : Word) (n : Nat) : (s.advance sent len n).answers = s.answers := rfl
@[simp] theorem State.advance_params (sent len : Word) (n : Nat) : (s.advance sent len n).params = s.params := rfl
@[simp] theorem State.advance_freeCount (sent len : Word) (n : Nat) : (s.advance sent len n).freeCount = s.freeCount := rfl

/-! ### `State.present` puts a request on the command port -/

@[simp] theorem State.present_crcAcc (op : Byte) : (s.present op).crcAcc = s.crcAcc := rfl
@[simp] theorem State.present_adler (op : Byte) : (s.present op).adler = s.adler := rfl
@[simp] theorem State.present_enc (op : Byte) : (s.present op).enc = s.enc := rfl
@[simp] theorem State.present_cfgVariant (op : Byte) : (s.present op).cfgVariant = s.cfgVariant := rfl
@[simp] theorem State.present_job (op : Byte) : (s.present op).job = s.job := rfl
@[simp] theorem State.present_img (op : Byte) : (s.present op).img = s.img := rfl
@[simp] theorem State.present_lastOutcome (op : Byte) : (s.present op).lastOutcome = s.lastOutcome := rfl
@[simp] theorem State.present_session (op : Byte) : (s.present op).session = s.session := rfl
@[simp] theorem State.present_faults (op : Byte) : (s.present op).faults = s.faults := rfl
@[simp] theorem State.present_sink (op : Byte) : (s.present op).sink = s.sink := rfl
@[simp] theorem State.present_outbox (op : Byte) : (s.present op).outbox = s.outbox := rfl
@[simp] theorem State.present_results (op : Byte) : (s.present op).results = s.results := rfl
@[simp] theorem State.present_answers (op : Byte) : (s.present op).answers = s.answers := rfl
@[simp] theorem State.present_params (op : Byte) : (s.present op).params = s.params := rfl
@[simp] theorem State.present_freeCount (op : Byte) : (s.present op).freeCount = s.freeCount := rfl

/-! ### `State.trigger` moves `pk_state` only (R262) -/

@[simp] theorem State.trigger_crcAcc : (s.trigger).crcAcc = s.crcAcc := by unfold State.trigger; split <;> rfl
@[simp] theorem State.trigger_adler : (s.trigger).adler = s.adler := by unfold State.trigger; split <;> rfl
@[simp] theorem State.trigger_enc : (s.trigger).enc = s.enc := by unfold State.trigger; split <;> rfl
@[simp] theorem State.trigger_cfgVariant : (s.trigger).cfgVariant = s.cfgVariant := by unfold State.trigger; split <;> rfl
@[simp] theorem State.trigger_img : (s.trigger).img = s.img := by unfold State.trigger; split <;> rfl
@[simp] theorem State.trigger_lastOutcome : (s.trigger).lastOutcome = s.lastOutcome := by unfold State.trigger; split <;> rfl
@[simp] theorem State.trigger_session : (s.trigger).session = s.session := by unfold State.trigger; split <;> rfl
@[simp] theorem State.trigger_faults : (s.trigger).faults = s.faults := by unfold State.trigger; split <;> rfl
@[simp] theorem State.trigger_sink : (s.trigger).sink = s.sink := by unfold State.trigger; split <;> rfl
@[simp] theorem State.trigger_outbox : (s.trigger).outbox = s.outbox := by unfold State.trigger; split <;> rfl
@[simp] theorem State.trigger_results : (s.trigger).results = s.results := by unfold State.trigger; split <;> rfl
@[simp] theorem State.trigger_inputs : (s.trigger).inputs = s.inputs := by unfold State.trigger; split <;> rfl
@[simp] theorem State.trigger_answers : (s.trigger).answers = s.answers := by unfold State.trigger; split <;> rfl
@[simp] theorem State.trigger_params : (s.trigger).params = s.params := by unfold State.trigger; split <;> rfl
@[simp] theorem State.trigger_freeCount : (s.trigger).freeCount = s.freeCount := by unfold State.trigger; split <;> rfl

/-- The test-and-set: `Idle` becomes `Capturing`, any other state stays (R262). -/
theorem State.trigger_job : s.trigger.job = if s.job.state = .idle then { s.job with state := .capturing } else s.job := by
  unfold State.trigger; split <;> rfl

/-! ### `State.subscription` writes the session only (R267, R268) -/

@[simp] theorem State.subscription_crcAcc (ch : Channel) (on : Bool) : (s.subscription ch on).crcAcc = s.crcAcc := by unfold State.subscription; split <;> rfl
@[simp] theorem State.subscription_adler (ch : Channel) (on : Bool) : (s.subscription ch on).adler = s.adler := by unfold State.subscription; split <;> rfl
@[simp] theorem State.subscription_enc (ch : Channel) (on : Bool) : (s.subscription ch on).enc = s.enc := by unfold State.subscription; split <;> rfl
@[simp] theorem State.subscription_cfgVariant (ch : Channel) (on : Bool) : (s.subscription ch on).cfgVariant = s.cfgVariant := by unfold State.subscription; split <;> rfl
@[simp] theorem State.subscription_job (ch : Channel) (on : Bool) : (s.subscription ch on).job = s.job := by unfold State.subscription; split <;> rfl
@[simp] theorem State.subscription_img (ch : Channel) (on : Bool) : (s.subscription ch on).img = s.img := by unfold State.subscription; split <;> rfl
@[simp] theorem State.subscription_lastOutcome (ch : Channel) (on : Bool) : (s.subscription ch on).lastOutcome = s.lastOutcome := by unfold State.subscription; split <;> rfl
@[simp] theorem State.subscription_faults (ch : Channel) (on : Bool) : (s.subscription ch on).faults = s.faults := by unfold State.subscription; split <;> rfl
@[simp] theorem State.subscription_sink (ch : Channel) (on : Bool) : (s.subscription ch on).sink = s.sink := by unfold State.subscription; split <;> rfl
@[simp] theorem State.subscription_outbox (ch : Channel) (on : Bool) : (s.subscription ch on).outbox = s.outbox := by unfold State.subscription; split <;> rfl
@[simp] theorem State.subscription_results (ch : Channel) (on : Bool) : (s.subscription ch on).results = s.results := by unfold State.subscription; split <;> rfl
@[simp] theorem State.subscription_inputs (ch : Channel) (on : Bool) : (s.subscription ch on).inputs = s.inputs := by unfold State.subscription; split <;> rfl
@[simp] theorem State.subscription_answers (ch : Channel) (on : Bool) : (s.subscription ch on).answers = s.answers := by unfold State.subscription; split <;> rfl
@[simp] theorem State.subscription_params (ch : Channel) (on : Bool) : (s.subscription ch on).params = s.params := by unfold State.subscription; split <;> rfl
@[simp] theorem State.subscription_freeCount (ch : Channel) (on : Bool) : (s.subscription ch on).freeCount = s.freeCount := by unfold State.subscription; split <;> rfl

/-! ### `State.endRun` writes the encoder, the sink history, `STATUS`, perhaps a fault (R203, R231) -/

@[simp] theorem State.endRun_crcAcc (op : Op) (r : Run) : (s.endRun op r).crcAcc = s.crcAcc := by cases r <;> rfl
@[simp] theorem State.endRun_adler (op : Op) (r : Run) : (s.endRun op r).adler = s.adler := by cases r <;> rfl
@[simp] theorem State.endRun_cfgVariant (op : Op) (r : Run) : (s.endRun op r).cfgVariant = s.cfgVariant := by cases r <;> rfl
@[simp] theorem State.endRun_job (op : Op) (r : Run) : (s.endRun op r).job = s.job := by cases r <;> rfl
@[simp] theorem State.endRun_img (op : Op) (r : Run) : (s.endRun op r).img = s.img := by cases r <;> rfl
@[simp] theorem State.endRun_lastOutcome (op : Op) (r : Run) : (s.endRun op r).lastOutcome = s.lastOutcome := by cases r <;> rfl
@[simp] theorem State.endRun_session (op : Op) (r : Run) : (s.endRun op r).session = s.session := by cases r <;> rfl
@[simp] theorem State.endRun_outbox (op : Op) (r : Run) : (s.endRun op r).outbox = s.outbox := by cases r <;> rfl
@[simp] theorem State.endRun_inputs (op : Op) (r : Run) : (s.endRun op r).inputs = s.inputs := by cases r <;> rfl
@[simp] theorem State.endRun_answers (op : Op) (r : Run) : (s.endRun op r).answers = s.answers := by cases r <;> rfl
@[simp] theorem State.endRun_params (op : Op) (r : Run) : (s.endRun op r).params = s.params := by cases r <;> rfl
@[simp] theorem State.endRun_freeCount (op : Op) (r : Run) : (s.endRun op r).freeCount = s.freeCount := by cases r <;> rfl
@[simp] theorem State.endRun_dout32 (op : Op) (r : Run) : (s.endRun op r).results.dout32 = s.results.dout32 := by cases r <;> rfl
@[simp] theorem State.endRun_pix (op : Op) (r : Run) : (s.endRun op r).results.pix = s.results.pix := by cases r <;> rfl

/-! ### `State.refuseFrame` writes `STATUS` and `faults` (R335) -/

@[simp] theorem State.refuseFrame_crcAcc (op : Op) (w : List FrameCondition) : (s.refuseFrame op w).crcAcc = s.crcAcc := rfl
@[simp] theorem State.refuseFrame_adler (op : Op) (w : List FrameCondition) : (s.refuseFrame op w).adler = s.adler := rfl
@[simp] theorem State.refuseFrame_enc (op : Op) (w : List FrameCondition) : (s.refuseFrame op w).enc = s.enc := rfl
@[simp] theorem State.refuseFrame_cfgVariant (op : Op) (w : List FrameCondition) : (s.refuseFrame op w).cfgVariant = s.cfgVariant := rfl
@[simp] theorem State.refuseFrame_job (op : Op) (w : List FrameCondition) : (s.refuseFrame op w).job = s.job := rfl
@[simp] theorem State.refuseFrame_img (op : Op) (w : List FrameCondition) : (s.refuseFrame op w).img = s.img := rfl
@[simp] theorem State.refuseFrame_lastOutcome (op : Op) (w : List FrameCondition) : (s.refuseFrame op w).lastOutcome = s.lastOutcome := rfl
@[simp] theorem State.refuseFrame_session (op : Op) (w : List FrameCondition) : (s.refuseFrame op w).session = s.session := rfl
@[simp] theorem State.refuseFrame_sink (op : Op) (w : List FrameCondition) : (s.refuseFrame op w).sink = s.sink := rfl
@[simp] theorem State.refuseFrame_outbox (op : Op) (w : List FrameCondition) : (s.refuseFrame op w).outbox = s.outbox := rfl
@[simp] theorem State.refuseFrame_inputs (op : Op) (w : List FrameCondition) : (s.refuseFrame op w).inputs = s.inputs := rfl
@[simp] theorem State.refuseFrame_answers (op : Op) (w : List FrameCondition) : (s.refuseFrame op w).answers = s.answers := rfl
@[simp] theorem State.refuseFrame_params (op : Op) (w : List FrameCondition) : (s.refuseFrame op w).params = s.params := rfl
@[simp] theorem State.refuseFrame_freeCount (op : Op) (w : List FrameCondition) : (s.refuseFrame op w).freeCount = s.freeCount := rfl
@[simp] theorem State.refuseFrame_dout32 (op : Op) (w : List FrameCondition) : (s.refuseFrame op w).results.dout32 = s.results.dout32 := rfl
@[simp] theorem State.refuseFrame_pix (op : Op) (w : List FrameCondition) : (s.refuseFrame op w).results.pix = s.results.pix := rfl

/-! ### The command port -/

/-- What taking a request does: nothing without one; else the request leaves the schedule, its answers stand, and the
result ports are empty. -/
theorem State.takeRequest_eq (c : Command) (s' : State) :
    s.takeRequest = some (c, s') ↔ ∃ r rest, s.inputs = r :: rest ∧ r.command = c ∧
      s' = { s with inputs := rest, answers := r.answers, results := Results.empty } := by
  unfold State.takeRequest
  cases h : s.inputs with
  | nil => simp
  | cons r rest =>
    simp only [Option.some.injEq, Prod.mk.injEq]
    constructor
    · rintro ⟨rfl, rfl⟩; exact ⟨r, rest, rfl, rfl, rfl⟩
    · rintro ⟨r', rest', hr, rfl, rfl⟩; cases hr; exact ⟨rfl, rfl⟩

/-- What `Send` does: the answer `fail` when the session forces it or the channel gives it, else the message is
appended to `outbox` and nothing else changes (R285). -/
theorem State.send_eq (snap : Session) (ch : Channel) (bytes : List Byte) (s' : State) :
    s.send snap ch bytes = some s' ↔ snap.forcesFail s.job.epoch ch = false ∧ s.answers.send = .ok ∧
      s' = { s with outbox := s.outbox ++ [(ch, bytes)] } := by
  unfold State.send
  cases snap.forcesFail s.job.epoch ch <;> cases s.answers.send <;> simp [eq_comm]

theorem State.send_eq_none (snap : Session) (ch : Channel) (bytes : List Byte) :
    s.send snap ch bytes = none ↔ snap.forcesFail s.job.epoch ch = true ∨ s.answers.send = .fail := by
  unfold State.send
  cases snap.forcesFail s.job.epoch ch <;> cases s.answers.send <;> simp

/-- The worker's step by state (R276). -/
theorem State.workerStep_eq : s.workerStep = match s.job.state with
    | .idle => s
    | .capturing => s.captureStep
    | .announcing => s.announceStep
    | .streaming => s.streamStep
    | .done => s.release .done
    | .failed => s.releaseFailed := rfl

end Sys2Proof.Machine
end

