-- ==== Sys2Proof/Tests/Slice0.lean ====
section
/-! SUPPORT. The model's own tests. Expected values are those of 95_test_vectors.md, of the tables in the unit files, or worked
by hand from the rule a comment names; the parameters are those 95_test_vectors.md uses, with a small image buffer. Then one
witness for each statement that has hypotheses: a concrete state and operands that meet them. -/

namespace Sys2Proof.Machine.Tests

/-! ### States -/

/-- The parameters of 95_test_vectors.md; the format tags there are symbolic. -/
def params : Params where
  maxWidth := 100#16
  maxHeight := 100#16
  lenMax := 0x7FFFFFFF#32
  imgMax := 100#32
  protocolOverhead := 3#16
  hardCap := 244#16
  defaultMaxPayload := 23#16
  formatTagPng := #v[0xA0#8, 0xA1#8, 0xA2#8, 0xA3#8]
  formatTagFlat := #v[0xB0#8, 0xB1#8, 0xB2#8, 0xB3#8]
  formatTagRaw := #v[0xC0#8, 0xC1#8, 0xC2#8, 0xC3#8]
  chunkDelay := 0
  frameTimeout := 0
  hasFlatVariant := true
  signature := #v[0x89#8, 0x50#8, 0x4E#8, 0x47#8, 0x0D#8, 0x0A#8, 0x1A#8, 0x0A#8]
  tagMeta := #v[0x49#8, 0x48#8, 0x44#8, 0x52#8]
  tagData := #v[0x49#8, 0x44#8, 0x41#8, 0x54#8]
  tagEnd := #v[0x49#8, 0x45#8, 0x4E#8, 0x44#8]
  colorMode := 2#8
  metaFlags := #v[0#8, 0#8, 0#8]
  zhdr := #v[0x78#8, 0x01#8]
  filterNone := 0#8
  flatMagic := #v[0x42#8, 0x4D#8]

/-- The block after reset, with these parameters. -/
def base : State := { State.reset with params := params, session := Session.closed params 0 }

/-- A subscribed peer: `epoch` 1, payload ceiling 23. -/
def peer : Session := ⟨true, true, true, 23#16, 1⟩

/-- A send the channel accepts, and one it refuses. -/
def sendOk : Answers := ⟨.timeout, .ok, none⟩
def sendFail : Answers := ⟨.timeout, .fail, none⟩

/-- The 1 by 1 frame of 95_test_vectors.md section 3.1. -/
def dot : Frame := ⟨0, 1#32, 1#32, 2#32, [0x12#8, 0x34#8]⟩

/-- A job that has been triggered, with this frame to come. -/
def capturing (f : Frame) : State :=
  { base with job := { Job.noJob with state := .capturing }, answers := { sendOk with acquire := .frame f } }

/-- A job with the three-byte `RAW` image 07 08 09, ready to announce, a peer subscribed. -/
def announcing : State :=
  { base with
    session := peer, answers := sendOk, img := [(0, 7#8), (1, 8#8), (2, 9#8)]
    job := ⟨.announcing, none, none, none, none, true, some .raw, some 1#16, some 1#16, some 3#32⟩ }

/-- The record announced for it (R114). -/
def record : List Byte := [1#8, 0#8, 1#8, 0#8, 3#8, 0#8, 0#8, 0#8, 0xC0#8, 0xC1#8, 0xC2#8, 0xC3#8]

/-- The same job streaming in chunks of two bytes, nothing sent yet. -/
def streaming : State :=
  { announcing with
    outbox := [(.metadata, record)]
    job := ⟨.streaming, none, some 0#32, some 2#16, some 1, true, some .raw, some 1#16, some 1#16, some 3#32⟩ }

/-- The same job with two bytes sent. -/
def lastChunk : State :=
  { streaming with
    outbox := [(.metadata, record), (.data, [7#8, 8#8])]
    job := ⟨.streaming, none, some 2#32, some 2#16, some 1, true, some .raw, some 1#16, some 1#16, some 3#32⟩ }

/-- A job whose image is empty (R290). -/
def emptyImage : State :=
  { streaming with
    img := []
    job := ⟨.streaming, none, some 0#32, some 2#16, some 1, true, some .raw, some 1#16, some 1#16, some 0#32⟩ }

/-- The same job finished. -/
def finished : State :=
  { lastChunk with
    outbox := [(.metadata, record), (.data, [7#8, 8#8]), (.data, [9#8])]
    job := ⟨.done, none, some 3#32, some 2#16, some 1, true, some .raw, some 1#16, some 1#16, some 3#32⟩ }

/-- The same job aborted after two bytes. -/
def aborted : State := lastChunk.fail .transferAborted

/-! ### Decoding: words written out from the opcode map (R91, R94) -/

theorem test_decode_crc : decode ⟨0b00010010#8, Ports.zero⟩ = .ok .crcFinal := by decide
theorem test_decode_adler : decode ⟨0b00100001#8, { Ports.zero with din8 := 0x31#8 }⟩ = .ok (.adlerUpdate 0x31#8) := by decide
theorem test_decode_conv : decode ⟨0b00110001#8, { Ports.zero with width := 3#32, rowIn := [1#8] }⟩ = .ok (.convYuyv 3#32 [1#8]) := by
  decide
theorem test_decode_enc : decode ⟨0b01000001#8, { Ports.zero with frameIn := dot }⟩ = .ok (.encFlat dot) := by decide
theorem test_decode_pkt : decode ⟨0b01010110#8, { Ports.zero with ch := 2 }⟩ = .ok (.pktUnsubscribe 2) := by decide
/-- Every row of the map, as spec/opcode_table.json gives it. -/
theorem test_decode_table : [0x10, 0x11, 0x12, 0x20, 0x21, 0x22, 0x23, 0x30, 0x31, 0x40, 0x41, 0x50, 0x51, 0x52, 0x53, 0x54,
    0x55, 0x56, 0x57, 0x58].map (decodeTableWord 8) =
    [Instr.crcInit, .crcUpdate 0#8, .crcFinal, .adlerInit, .adlerUpdate 0#8, .adlerRead, .adlerLoad 0#32,
      .convRgb565 0#32 [], .convYuyv 0#32 [], .encPng Frame.zero, .encFlat Frame.zero, .pktConfig 0, .pktTrigger,
      .pktPeerWrite 0#8, .pktConnect, .pktDisconnect, .pktSubscribe 0, .pktUnsubscribe 0, .pktSetMaxPayload 0#16,
      .pktStep].map some := by decide
/-- The edges of the illegal ranges of R95, and words that are no command. -/
theorem test_decode_illegal : [0x00, 0x0F, 0x13, 0x1F, 0x24, 0x2F, 0x32, 0x3F, 0x42, 0x4F, 0x59, 0xFF, 0x110].map
    (decodeTableWord 8) = List.replicate 13 none := by decide

/-! ### Well-formed operands (R92, R95) -/

theorem test_wf_refuses : [Instr.pktSubscribe 3, .pktUnsubscribe 3, .pktConfig 3, .encPng { dot with pixelFormat := 2 },
    .encFlat { dot with pixelFormat := 2 }].map Instr.wf = [false, false, false, false, false] := by decide
theorem test_wf_accepts : [Instr.pktSubscribe 2, .pktUnsubscribe 0, .pktConfig 2, .encPng { dot with pixelFormat := 1 },
    .encFlat dot].map Instr.wf = [true, true, true, true, true] := by decide

/-! ### CRC32 unit -/

/-- Rows 00 to 1C of the table of R136. -/
def crcTable0 : List Word :=
  [0x00000000#32, 0x77073096#32, 0xEE0E612C#32, 0x990951BA#32,
   0x076DC419#32, 0x706AF48F#32, 0xE963A535#32, 0x9E6495A3#32,
   0x0EDB8832#32, 0x79DCB8A4#32, 0xE0D5E91E#32, 0x97D2D988#32,
   0x09B64C2B#32, 0x7EB17CBD#32, 0xE7B82D07#32, 0x90BF1D91#32,
   0x1DB71064#32, 0x6AB020F2#32, 0xF3B97148#32, 0x84BE41DE#32,
   0x1ADAD47D#32, 0x6DDDE4EB#32, 0xF4D4B551#32, 0x83D385C7#32,
   0x136C9856#32, 0x646BA8C0#32, 0xFD62F97A#32, 0x8A65C9EC#32,
   0x14015C4F#32, 0x63066CD9#32, 0xFA0F3D63#32, 0x8D080DF5#32]

/-- Rows 20 to 3C of the table of R136. -/
def crcTable1 : List Word :=
  [0x3B6E20C8#32, 0x4C69105E#32, 0xD56041E4#32, 0xA2677172#32,
   0x3C03E4D1#32, 0x4B04D447#32, 0xD20D85FD#32, 0xA50AB56B#32,
   0x35B5A8FA#32, 0x42B2986C#32, 0xDBBBC9D6#32, 0xACBCF940#32,
   0x32D86CE3#32, 0x45DF5C75#32, 0xDCD60DCF#32, 0xABD13D59#32,
   0x26D930AC#32, 0x51DE003A#32, 0xC8D75180#32, 0xBFD06116#32,
   0x21B4F4B5#32, 0x56B3C423#32, 0xCFBA9599#32, 0xB8BDA50F#32,
   0x2802B89E#32, 0x5F058808#32, 0xC60CD9B2#32, 0xB10BE924#32,
   0x2F6F7C87#32, 0x58684C11#32, 0xC1611DAB#32, 0xB6662D3D#32]

/-- Rows 40 to 5C of the table of R136. -/
def crcTable2 : List Word :=
  [0x76DC4190#32, 0x01DB7106#32, 0x98D220BC#32, 0xEFD5102A#32,
   0x71B18589#32, 0x06B6B51F#32, 0x9FBFE4A5#32, 0xE8B8D433#32,
   0x7807C9A2#32, 0x0F00F934#32, 0x9609A88E#32, 0xE10E9818#32,
   0x7F6A0DBB#32, 0x086D3D2D#32, 0x91646C97#32, 0xE6635C01#32,
   0x6B6B51F4#32, 0x1C6C6162#32, 0x856530D8#32, 0xF262004E#32,
   0x6C0695ED#32, 0x1B01A57B#32, 0x8208F4C1#32, 0xF50FC457#32,
   0x65B0D9C6#32, 0x12B7E950#32, 0x8BBEB8EA#32, 0xFCB9887C#32,
   0x62DD1DDF#32, 0x15DA2D49#32, 0x8CD37CF3#32, 0xFBD44C65#32]

/-- Rows 60 to 7C of the table of R136. -/
def crcTable3 : List Word :=
  [0x4DB26158#32, 0x3AB551CE#32, 0xA3BC0074#32, 0xD4BB30E2#32,
   0x4ADFA541#32, 0x3DD895D7#32, 0xA4D1C46D#32, 0xD3D6F4FB#32,
   0x4369E96A#32, 0x346ED9FC#32, 0xAD678846#32, 0xDA60B8D0#32,
   0x44042D73#32, 0x33031DE5#32, 0xAA0A4C5F#32, 0xDD0D7CC9#32,
   0x5005713C#32, 0x270241AA#32, 0xBE0B1010#32, 0xC90C2086#32,
   0x5768B525#32, 0x206F85B3#32, 0xB966D409#32, 0xCE61E49F#32,
   0x5EDEF90E#32, 0x29D9C998#32, 0xB0D09822#32, 0xC7D7A8B4#32,
   0x59B33D17#32, 0x2EB40D81#32, 0xB7BD5C3B#32, 0xC0BA6CAD#32]

/-- Rows 80 to 9C of the table of R136. -/
def crcTable4 : List Word :=
  [0xEDB88320#32, 0x9ABFB3B6#32, 0x03B6E20C#32, 0x74B1D29A#32,
   0xEAD54739#32, 0x9DD277AF#32, 0x04DB2615#32, 0x73DC1683#32,
   0xE3630B12#32, 0x94643B84#32, 0x0D6D6A3E#32, 0x7A6A5AA8#32,
   0xE40ECF0B#32, 0x9309FF9D#32, 0x0A00AE27#32, 0x7D079EB1#32,
   0xF00F9344#32, 0x8708A3D2#32, 0x1E01F268#32, 0x6906C2FE#32,
   0xF762575D#32, 0x806567CB#32, 0x196C3671#32, 0x6E6B06E7#32,
   0xFED41B76#32, 0x89D32BE0#32, 0x10DA7A5A#32, 0x67DD4ACC#32,
   0xF9B9DF6F#32, 0x8EBEEFF9#32, 0x17B7BE43#32, 0x60B08ED5#32]

/-- Rows A0 to BC of the table of R136. -/
def crcTable5 : List Word :=
  [0xD6D6A3E8#32, 0xA1D1937E#32, 0x38D8C2C4#32, 0x4FDFF252#32,
   0xD1BB67F1#32, 0xA6BC5767#32, 0x3FB506DD#32, 0x48B2364B#32,
   0xD80D2BDA#32, 0xAF0A1B4C#32, 0x36034AF6#32, 0x41047A60#32,
   0xDF60EFC3#32, 0xA867DF55#32, 0x316E8EEF#32, 0x4669BE79#32,
   0xCB61B38C#32, 0xBC66831A#32, 0x256FD2A0#32, 0x5268E236#32,
   0xCC0C7795#32, 0xBB0B4703#32, 0x220216B9#32, 0x5505262F#32,
   0xC5BA3BBE#32, 0xB2BD0B28#32, 0x2BB45A92#32, 0x5CB36A04#32,
   0xC2D7FFA7#32, 0xB5D0CF31#32, 0x2CD99E8B#32, 0x5BDEAE1D#32]

/-- Rows C0 to DC of the table of R136. -/
def crcTable6 : List Word :=
  [0x9B64C2B0#32, 0xEC63F226#32, 0x756AA39C#32, 0x026D930A#32,
   0x9C0906A9#32, 0xEB0E363F#32, 0x72076785#32, 0x05005713#32,
   0x95BF4A82#32, 0xE2B87A14#32, 0x7BB12BAE#32, 0x0CB61B38#32,
   0x92D28E9B#32, 0xE5D5BE0D#32, 0x7CDCEFB7#32, 0x0BDBDF21#32,
   0x86D3D2D4#32, 0xF1D4E242#32, 0x68DDB3F8#32, 0x1FDA836E#32,
   0x81BE16CD#32, 0xF6B9265B#32, 0x6FB077E1#32, 0x18B74777#32,
   0x88085AE6#32, 0xFF0F6A70#32, 0x66063BCA#32, 0x11010B5C#32,
   0x8F659EFF#32, 0xF862AE69#32, 0x616BFFD3#32, 0x166CCF45#32]

/-- Rows E0 to FC of the table of R136. -/
def crcTable7 : List Word :=
  [0xA00AE278#32, 0xD70DD2EE#32, 0x4E048354#32, 0x3903B3C2#32,
   0xA7672661#32, 0xD06016F7#32, 0x4969474D#32, 0x3E6E77DB#32,
   0xAED16A4A#32, 0xD9D65ADC#32, 0x40DF0B66#32, 0x37D83BF0#32,
   0xA9BCAE53#32, 0xDEBB9EC5#32, 0x47B2CF7F#32, 0x30B5FFE9#32,
   0xBDBDF21C#32, 0xCABAC28A#32, 0x53B39330#32, 0x24B4A3A6#32,
   0xBAD03605#32, 0xCDD70693#32, 0x54DE5729#32, 0x23D967BF#32,
   0xB3667A2E#32, 0xC4614AB8#32, 0x5D681B02#32, 0x2A6F2B94#32,
   0xB40BBE37#32, 0xC30C8EA1#32, 0x5A05DF1B#32, 0x2D02EF8D#32]

theorem test_crc_table : (List.range 256).map (fun n => crcTab (BitVec.ofNat 8 n)) =
    crcTable0 ++ (crcTable1 ++ (crcTable2 ++ (crcTable3 ++ (crcTable4 ++ (crcTable5 ++ (crcTable6 ++ crcTable7)))))) := by
  decide +kernel

/-- R135. -/
theorem test_crc_check : crc32 [0x31#8, 0x32#8, 0x33#8, 0x34#8, 0x35#8, 0x36#8, 0x37#8, 0x38#8, 0x39#8] = 0xCBF43926#32 := by
  decide +kernel

theorem test_crcInit : (base.after .crcInit).crcAcc = some 0xFFFFFFFF#32 := by decide
/-- R133's example. -/
theorem test_crcUpdate : (({ base with crcAcc := some 0xFFFFFFFF#32 } : State).after (.crcUpdate 0x61#8)).crcAcc = some 0x174841BC#32 := by
  decide
theorem test_crcUpdate_fault : (base.after (.crcUpdate 0#8)).faults = [.useBeforeInit .crcUpdate .crcAcc] := by decide
/-- R134's example. -/
theorem test_crcFinal : (({ base with crcAcc := some 0x174841BC#32 } : State).after .crcFinal).results.dout32 = some 0xE8B7BE43#32 := by
  decide
theorem test_crcFinal_fault : (base.after .crcFinal).faults = [.useBeforeInit .crcFinal .crcAcc] := by decide

/-! ### Adler32 unit -/

/-- R156. -/
theorem test_adler_check : adler32 1#32 [0x31#8, 0x32#8, 0x33#8, 0x34#8, 0x35#8, 0x36#8, 0x37#8, 0x38#8, 0x39#8] = 0x091E01DE#32 := by
  decide +kernel
theorem test_adlerInit : (base.after .adlerInit).adler = some ⟨1#16, 0#16⟩ := by decide
/-- R153, corner (b): from 65520, byte 255 gives 254. -/
theorem test_adlerUpdate : (({ base with adler := some ⟨65520#16, 0#16⟩ } : State).after (.adlerUpdate 255#8)).adler =
    some ⟨254#16, 254#16⟩ := by decide
theorem test_adlerUpdate_fault : (base.after (.adlerUpdate 0#8)).faults = [.useBeforeInit .adlerUpdate .adlerAcc] := by decide
/-- R154's example. -/
theorem test_adlerRead : (({ base with adler := some ⟨478#16, 2334#16⟩ } : State).after .adlerRead).results.dout32 =
    some 0x091E01DE#32 := by decide
theorem test_adlerRead_fault : (base.after .adlerRead).results.dout32 = none := by decide
/-- R155's examples. -/
theorem test_adlerLoad : (base.after (.adlerLoad 0x01F800CB#32)).adler = some ⟨203#16, 504#16⟩ := by decide
theorem test_adlerLoad_unreduced : adler32 0xFFFFFFFF#32 [0#8] = 0x001C000E#32 := by decide

/-! ### Converters (95_test_vectors.md 2.3, 2.4) -/

theorem test_convRgb565 : (base.after (.convRgb565 2#32 [0x12#8, 0x34#8, 0x00#8, 0xF8#8, 0xAA#8])).results.pix =
    some [⟨16#8, 69#8, 165#8⟩, ⟨0#8, 28#8, 198#8⟩] := by decide
theorem test_convRgb565_short : (base.after (.convRgb565 2#32 [0xF8#8, 0x00#8, 0x07#8])).faults =
    [.rowTooShort .convRgb565 3 4] := by decide
theorem test_convYuyv : (base.after (.convYuyv 3#32 [0x51#8, 0x5A#8, 0x91#8, 0xF0#8, 0x29#8, 0xF0#8, 0x10#8, 0x6E#8])).results.pix =
    some [⟨255#8, 0#8, 0#8⟩, ⟨255#8, 74#8, 74#8⟩, ⟨0#8, 0#8, 255#8⟩] := by decide
theorem test_convYuyv_short : (base.after (.convYuyv 3#32 [0x51#8, 0x5A#8, 0x91#8, 0xF0#8, 0x29#8, 0xF0#8, 0x10#8])).faults =
    [.rowTooShort .convYuyv 7 8] := by decide

/-! ### Container encoder (95_test_vectors.md section 3) -/

/-- The 72 bytes of section 3.1. -/
def dotPng : List Byte :=
  [0x89#8, 0x50#8, 0x4E#8, 0x47#8, 0x0D#8, 0x0A#8, 0x1A#8, 0x0A#8, 0x00#8, 0x00#8, 0x00#8, 0x0D#8, 0x49#8, 0x48#8, 0x44#8, 0x52#8, 0x00#8, 0x00#8, 0x00#8, 0x01#8, 0x00#8, 0x00#8, 0x00#8, 0x01#8] ++
  ([0x08#8, 0x02#8, 0x00#8, 0x00#8, 0x00#8, 0x90#8, 0x77#8, 0x53#8, 0xDE#8, 0x00#8, 0x00#8, 0x00#8, 0x0F#8, 0x49#8, 0x44#8, 0x41#8, 0x54#8, 0x78#8, 0x01#8, 0x01#8, 0x04#8, 0x00#8, 0xFB#8, 0xFF#8] ++
  ([0x00#8, 0x10#8, 0x45#8, 0xA5#8, 0x01#8, 0x63#8, 0x00#8, 0xFB#8, 0x4D#8, 0x89#8, 0x75#8, 0x55#8, 0x00#8, 0x00#8, 0x00#8, 0x00#8, 0x49#8, 0x45#8, 0x4E#8, 0x44#8, 0xAE#8, 0x42#8, 0x60#8, 0x82#8]))

/-- The 58 bytes of section 3.4. -/
def dotFlat : List Byte :=
  [0x42#8, 0x4D#8, 0x3A#8, 0x00#8, 0x00#8, 0x00#8, 0x00#8, 0x00#8, 0x00#8, 0x00#8, 0x36#8, 0x00#8, 0x00#8, 0x00#8, 0x28#8, 0x00#8, 0x00#8, 0x00#8, 0x01#8, 0x00#8, 0x00#8, 0x00#8, 0x01#8, 0x00#8] ++
  ([0x00#8, 0x00#8, 0x01#8, 0x00#8, 0x18#8, 0x00#8, 0x00#8, 0x00#8, 0x00#8, 0x00#8, 0x04#8, 0x00#8, 0x00#8, 0x00#8, 0x00#8, 0x00#8, 0x00#8, 0x00#8, 0x00#8, 0x00#8, 0x00#8, 0x00#8, 0x00#8, 0x00#8] ++
  ([0x00#8, 0x00#8, 0x00#8, 0x00#8, 0x00#8, 0x00#8, 0xA5#8, 0x45#8, 0x10#8, 0x00#8]))

theorem test_encPng : (base.after (.encPng dot)).sink = dotPng := by decide +kernel
/-- A sink that fails the 34th byte: the signature and the metadata chunk stay (section 4, P4). -/
theorem test_encPng_abort :
    let t := ({ base with answers := ⟨.timeout, .fail, some ⟨33, 7⟩⟩ } : State).after (.encPng dot)
    t.sink = dotPng.take 33 ∧ t.results.status = some (.abort 7) ∧ t.enc = Encoder.resting .aborted (some 7) := by decide +kernel
theorem test_encFlat : (base.after (.encFlat dot)).sink = dotFlat := by decide +kernel
/-- Section 3.6: a stride of 7 is below the 8 bytes three YUYV pixels need. -/
theorem test_encFlat_badFrame :
    (base.after (.encFlat ⟨1, 3#32, 1#32, 7#32, [0x51#8, 0x5A#8, 0x91#8, 0xF0#8, 0x29#8, 0xF0#8, 0x10#8]⟩)).faults =
      [.badFrame .encFlat [.stride, .payload]] := by decide
/-- A block one byte over the limit is cut after 65535 bytes (R216): lengths only, by section 3.2. -/
theorem test_wrappedLen : [(72, 302), (21844, 1), (28, 771), (21845, 1), (428, 102), (43690, 1), (1, 65535)].map
    (fun x => wrappedLen x.1 x.2) = [65545, 65544, 65546, 65552, 131086, 131092, 262166] := by decide +kernel
theorem test_reader : readContainer params dotPng = some (1#32, 1#32, [[⟨16#8, 69#8, 165#8⟩]]) := by decide +kernel

/-! ### Packetizer -/

theorem test_pktConfig : (base.after (.pktConfig 2)).cfgVariant = .raw := by decide
theorem test_pktConfig_busy : ((capturing dot).after (.pktConfig 2)).cfgVariant = .png := by decide
theorem test_pktTrigger : (base.after .pktTrigger).job = { Job.noJob with state := .capturing } := by decide
theorem test_pktTrigger_busy : (streaming.after .pktTrigger).job = streaming.job := by decide
theorem test_pktPeerWrite : (({ base with session := peer } : State).after (.pktPeerWrite 1#8)).job.state = .capturing := by decide
theorem test_pktPeerWrite_other : (({ base with session := peer } : State).after (.pktPeerWrite 2#8)).job.state = .idle := by decide
theorem test_pktConnect : (base.after .pktConnect).session = ⟨true, false, false, 23#16, 1⟩ := by decide
theorem test_pktConnect_twice : (announcing.after .pktConnect).session = peer := by decide
theorem test_pktDisconnect : (streaming.after .pktDisconnect).session = ⟨false, false, false, 23#16, 1⟩ := by decide
theorem test_pktDisconnect_job : (streaming.after .pktDisconnect).job = streaming.job := by decide
theorem test_pktSubscribe : ((base.after .pktConnect).after (.pktSubscribe 2)).session = ⟨true, false, true, 23#16, 1⟩ := by decide
theorem test_pktSubscribe_illegal : (base.after (.pktSubscribe 3)).faults = [.illegalOperand .pktSubscribe 3] := by decide
theorem test_pktUnsubscribe : (streaming.after (.pktUnsubscribe 2)).session = ⟨true, true, false, 23#16, 1⟩ := by decide
theorem test_pktUnsubscribe_trig : (streaming.after (.pktUnsubscribe 0)).session = peer := by decide
theorem test_pktSetMaxPayload : (streaming.after (.pktSetMaxPayload 247#16)).session.maxPayload = 247#16 := by decide
theorem test_pktSetMaxPayload_closed : (base.after (.pktSetMaxPayload 247#16)).session.maxPayload = 23#16 := by decide
/-- P5: the container of section 3.1 in `IMG`, 72 bytes. -/
theorem test_pktStep_capture :
    let t := (capturing dot).after .pktStep
    t.img.readBytes 0 72 = some dotPng ∧ t.job.imgLen = some 72#32 ∧ t.job.state = .announcing := by decide +kernel
/-- P5's announcement: chunk size 23 - 3 = 20, the session's epoch. -/
theorem test_pktStep_announce :
    let t := announcing.after .pktStep
    t.outbox = [(.metadata, record)] ∧ t.job.chunkSize = some 20#16 ∧ t.job.epoch = some 1 := by decide
theorem test_step : (match step { base with inputs := [⟨⟨0x10#8, Ports.zero⟩, sendOk⟩] } with
    | .next t => t.crcAcc | _ => none) = some 0xFFFFFFFF#32 := by decide
/-- An opcode placed by `withFetchWord` is what the very next step runs. -/
theorem test_withFetchWord : (match step (State.reset.withFetchWord 8 0x53) with
    | .next t => t.session.epoch | _ => 0) = 1 := by rfl

/-! ### Memory -/

/-- Canonical form: bytes written out of order stand in address order, once each. -/
theorem test_memory : Memory.write (Memory.write (Memory.write [] 2 9#8) 0 7#8) 2 5#8 = [(0, 7#8), (2, 5#8)] := by decide
theorem test_memory_unlisted : Memory.read [(0, 7#8)] 1 = none := by decide

/-! ### Witnesses: states and operands that meet the hypotheses of each statement -/

theorem witness_DecodeEncodeAgree : decode ⟨0x58#8, Ports.zero⟩ = .ok .pktStep ∧ encode .pktStep = encode .pktStep := by decide
theorem witness_StepRunsDecoded : ({ base with inputs := [⟨encode .crcInit, sendOk⟩] } : State).inputs = [⟨encode .crcInit, sendOk⟩] ∧
    decode (encode .crcInit) = .ok .crcInit := by decide
theorem witness_StepIllegalOpcode : decode ⟨0x00#8, Ports.zero⟩ = .error (.illegalOpcode 0x00#8) ∧
    decode ⟨0xFF#8, Ports.zero⟩ = .error (.illegalOpcode 0xFF#8) := by decide
theorem witness_NeverStops : base.inputs = [] := by decide
theorem witness_CrcUpdate : ({ base with crcAcc := some 0#32 } : State).crcAcc = some 0#32 ∧ base.crcAcc = none := by decide
theorem witness_CrcFinal : ({ base with crcAcc := some 0xFFFFFFFF#32 } : State).crcAcc = some 0xFFFFFFFF#32 ∧ base.crcAcc = none := by
  decide
theorem witness_CrcTableFree : ({ base with crcAcc := some 1#32 } : State).crcAcc = some 1#32 := by decide
theorem witness_AdlerUpdate : ({ base with adler := some ⟨65535#16, 0#16⟩ } : State).adler = some ⟨65535#16, 0#16⟩ ∧
    base.adler = none := by decide
theorem witness_AdlerRead : ({ base with adler := some ⟨0#16, 65535#16⟩ } : State).adler = some ⟨0#16, 65535#16⟩ ∧
    base.adler = none := by decide
theorem witness_AdlerStream : ([0#8] : List Byte) ≠ [] := by decide
/-- Exactly enough bytes, and one too few; the last pixel of the row. -/
theorem witness_ConvRgb565 : 2 * (2#32).toNat ≤ ([1#8, 2#8, 3#8, 4#8] : List Byte).length ∧ 1 < (2#32).toNat ∧
    ([1#8, 2#8, 3#8, 4#8] : List Byte)[2 * 1 + 1]? = some 4#8 ∧ ([1#8, 2#8, 3#8] : List Byte).length < 2 * (2#32).toNat := by decide
/-- Exactly enough bytes for an odd width, and one too few; the last pixel of the row. -/
theorem witness_ConvYuyv : 4 * (((1#32).toNat + 1) / 2) ≤ ([1#8, 2#8, 3#8, 4#8] : List Byte).length ∧ 0 < (1#32).toNat ∧
    ([1#8, 2#8, 3#8, 4#8] : List Byte)[4 * (0 / 2) + 2 * (0 % 2)]? = some 1#8 ∧
    ([1#8, 2#8, 3#8, 4#8] : List Byte)[4 * (0 / 2) + 3]? = some 4#8 ∧
    ([1#8, 2#8, 3#8] : List Byte).length < 4 * (((1#32).toNat + 1) / 2) := by decide
theorem witness_Expansions : (0#5) < (1#5) ∧ (62#6) < (63#6) := by decide
/-- The operands `dot` is accepted with. -/
def dotOps (v : Variant) : EncOperands := ⟨v, .rgb565be, 1#32, 1#32, 2#32⟩
theorem witness_FrameAcceptance : acceptFrame .png params dot = .ok (dotOps .png) ∧
    acceptFrame .flat params dot = .ok (dotOps .flat) ∧
    acceptFrame .png params { dot with payload := [0x12#8] } = .error [.payload] ∧
    acceptFrame .png params { dot with height := 0#32 } = .error [.dimensions] ∧
    acceptFrame .png params { dot with pixelFormat := 2 } = .error [.pixelFormat] := by decide +kernel
theorem witness_EncPngResult : acceptFrame .png base.params dot = .ok (dotOps .png) := by decide +kernel
theorem witness_EncFlatResult : base.params.hasFlatVariant = true ∧ acceptFrame .flat base.params dot = .ok (dotOps .flat) := by
  decide +kernel
theorem witness_EncRefusals : acceptFrame .png base.params { dot with rowStride := 1#32, payload := [0x12#8] } = .error [.stride, .payload] ∧
    base.params.hasFlatVariant = true ∧ acceptFrame .flat base.params Frame.zero = .error [.dimensions] ∧
    ({ params with hasFlatVariant := false } : Params).hasFlatVariant = false := by decide +kernel
/-- A sink that refuses byte 71. -/
def failing71 : State := { base with answers := ⟨.timeout, .fail, some ⟨71, 7⟩⟩ }
/-- The last byte of the container refused, and no byte refused. -/
theorem witness_EncAbort : acceptFrame .png base.params dot = .ok (dotOps .png) ∧
    (∃ t, exec (.encPng dot) failing71 = .next t) ∧ failing71.params = base.params ∧
    71 < (pngContainer base.params (dotOps .png) dot.payload).length ∧
    (pngContainer base.params (dotOps .png) dot.payload).length ≤ 72 := by
  refine ⟨by decide +kernel, ?_, by decide, by decide +kernel, by decide +kernel⟩
  show ∃ t, execEncPng dot failing71 = .next t
  unfold execEncPng
  split <;> exact ⟨_, rfl⟩
theorem witness_StoredBlocks : 1 ≤ ([0#8] : List Byte).length := by decide
theorem witness_ContainerSizes : acceptFrame .png params dot = .ok (dotOps .png) := by decide +kernel
theorem witness_RoundTrip : acceptFrame .png base.params dot = .ok (dotOps .png) ∧ base.answers.sink = none := by decide +kernel
/-- The same pixel with a stride of 4 and two padding bytes. -/
theorem witness_PaddingUnread :
    let g : Frame := { dot with rowStride := 4#32, payload := [0x12#8, 0x34#8, 0xAA#8, 0xBB#8] }
    PixelFormat.ofCode? dot.pixelFormat = some .rgb565be ∧
      (∀ r < 1, ∀ k < 2, dot.payload[r * dot.rowStride.toNat + k]? = g.payload[r * g.rowStride.toNat + k]?) ∧
      acceptFrame .png base.params dot = .ok (dotOps .png) ∧
      acceptFrame .png base.params g = .ok { dotOps .png with stride := 4#32 } ∧
      acceptFrame .flat base.params dot = .ok (dotOps .flat) ∧
      acceptFrame .flat base.params g = .ok { dotOps .flat with stride := 4#32 } := by decide +kernel
/-- Legal and illegal variants, idle and busy, with and without the flat variant. -/
theorem witness_PktConfig : base.params.hasFlatVariant = true ∧ base.job.state = .idle ∧ streaming.job.state ≠ .idle ∧ 2 < 3 ∧
    ({ params with hasFlatVariant := false } : Params).hasFlatVariant = false := by decide
theorem witness_PktTrigger : base.job.state = .idle ∧ finished.job.state ≠ .idle := by decide
theorem witness_PktPeerWrite : streaming.session.connected = true ∧ ({ base with session := peer } : State).job.state = .idle ∧
    streaming.job.state ≠ .idle ∧ base.session.connected = false ∧ (0x00#8 : Byte) ≠ 0x01#8 := by decide
theorem witness_PktConnect : base.session.connected = false ∧ streaming.session.connected = true := by decide
theorem witness_PktDisconnect : streaming.session.connected = true ∧ base.session.connected = false := by decide
theorem witness_PktSubscribe : 2 < 3 ∧ streaming.session.connected = true ∧ base.session.connected = false ∧ 2 ≤ 2 := by decide
theorem witness_PktUnsubscribe : 2 < 3 ∧ streaming.session.connected = true ∧ base.session.connected = false ∧ 2 ≤ 2 := by decide
theorem witness_PktSetMaxPayload : streaming.session.connected = true ∧ base.session.connected = false := by decide
theorem witness_WorkerIdle : base.job.state = .idle := by decide
theorem witness_WorkerNoFrame : ∀ a ∈ [AcquireAnswer.unavailable, .timeout, .unsupported],
    ({ capturing dot with answers := { sendOk with acquire := a } } : State).job.state = .capturing ∧
    ({ capturing dot with answers := { sendOk with acquire := a } } : State).answers.acquire = a := by decide
/-- The largest size and the first too large; a payload that just fits and one that does not. -/
theorem witness_WorkerCaptureRaw :
    let s := { capturing { dot with payload := List.replicate 100 0#8 } with cfgVariant := ImageFormat.raw }
    s.job.state = .capturing ∧ s.answers.acquire = .frame { dot with payload := List.replicate 100 0#8 } ∧ s.cfgVariant = .raw ∧
      (100#32).toNat ≤ s.params.maxWidth.toNat ∧ ¬ (101#32).toNat ≤ s.params.maxWidth.toNat ∧
      (List.replicate 100 0#8).length ≤ s.params.imgMax.toNat ∧ s.params.imgMax.toNat < (List.replicate 101 0#8).length := by
  decide +kernel
/-- A buffer of 72 bytes, and one of 71. -/
theorem witness_WorkerCapturePng : (capturing dot).job.state = .capturing ∧ (capturing dot).answers.acquire = .frame dot ∧
    (capturing dot).cfgVariant = .png ∧ acceptFrame .png params dot = .ok (dotOps .png) ∧
    (pngContainer params (dotOps .png) dot.payload).length ≤ (72#32).toNat ∧
    (71#32).toNat < (pngContainer params (dotOps .png) dot.payload).length := by decide +kernel
/-- A buffer of 58 bytes, and one of 57. -/
theorem witness_WorkerCaptureFlat :
    let s := { capturing dot with cfgVariant := ImageFormat.flat }
    s.job.state = .capturing ∧ s.answers.acquire = .frame dot ∧ s.cfgVariant = .flat ∧
    acceptFrame .flat params dot = .ok (dotOps .flat) ∧
    (flatFile params (dotOps .flat) dot.payload).length ≤ (58#32).toNat ∧
    (57#32).toNat < (flatFile params (dotOps .flat) dot.payload).length := by decide +kernel
theorem witness_WorkerBadFrame : (capturing Frame.zero).job.state = .capturing ∧
    (capturing Frame.zero).answers.acquire = .frame Frame.zero ∧ (capturing Frame.zero).cfgVariant = .png ∧
    acceptFrame .png params Frame.zero = .error [.dimensions] ∧
    acceptFrame .flat params Frame.zero = .error [.dimensions] := by decide +kernel
/-- Ceilings 3 and 4: chunk sizes 0 and 1 (95_test_vectors.md 2.6). -/
theorem witness_WorkerAnnounce : announcing.job.state = .announcing ∧ announcing.job.imgWidth = some 1#16 ∧
    announcing.job.imgHeight = some 1#16 ∧ announcing.job.imgLen = some 3#32 ∧ announcing.job.imgFormat = some .raw ∧
    announcing.job.epoch = none ∧ announcing.session.connected = true ∧ announcing.session.notifMeta = true ∧
    announcing.answers.send = .ok ∧ sendFail.send = .fail ∧ base.session.connected = false ∧
    chunkSizeOf params 3#16 < 1 ∧ 1 ≤ chunkSizeOf params 4#16 := by decide
/-- A full chunk, a last shorter one, and an empty image. -/
theorem witness_WorkerStream : streaming.job.state = .streaming ∧ streaming.job.bytesSent = some 0#32 ∧
    streaming.job.chunkSize = some 2#16 ∧ streaming.job.imgLen = some 3#32 ∧ streaming.job.epoch = some 1 ∧
    streaming.img.readBytes 0 2 = some [7#8, 8#8] ∧ lastChunk.job.bytesSent = some 2#32 ∧
    lastChunk.img.readBytes 2 1 = some [9#8] ∧ streaming.session.connected = true ∧ streaming.session.notifData = true ∧
    streaming.session.epoch = 1 ∧ streaming.answers.send = .ok ∧ emptyImage.job.bytesSent = emptyImage.job.imgLen := by decide
theorem witness_WorkerRelease : finished.job.state = .done ∧ aborted.job.state = .failed ∧
    aborted.job.reason = some .transferAborted := by decide
theorem witness_JobTransitions : ∃ t, exec .pktTrigger base = .next t ∧ t.job.state ≠ base.job.state := ⟨_, rfl, by decide⟩
theorem witness_SessionSeparation : (∃ t, exec .pktConnect base = .next t ∧ t.session.epoch ≠ base.session.epoch) ∧
    Instr.isSessionEvent .pktConnect = true ∧ Instr.isSessionEvent .pktStep = false := ⟨⟨_, rfl, by decide⟩, by decide, by decide⟩
theorem witness_StateFrame : ∃ t, exec .pktStep streaming = .next t := ⟨_, rfl⟩
/-- Every state of the job a clause names; a frame of 72 bytes stored, and the first byte beyond. -/
theorem witness_ImageFrame : (∃ t, exec .pktStep (capturing dot) = .next t) ∧ (capturing dot).captureStored dot = 72 ∧
    (capturing dot).job.state = .capturing ∧ (capturing dot).answers.acquire = .frame dot ∧ finished.job.state = .done ∧
    aborted.job.state = .failed ∧ aborted.job.reason ≠ none ∧ base.job.state = .idle ∧ streaming.job.state = .streaming :=
  ⟨⟨_, rfl⟩, by decide +kernel, by decide, by decide, by decide, by decide, by decide, by decide, by decide⟩
theorem witness_FaultsSticky : ∃ t, step { base with faults := [.illegalOpcode 0#8] } = .next t := ⟨_, rfl⟩

/-! The invariant in the states above: one of each state of the job. -/

theorem base_atRest : EncoderAtRest base.enc := ⟨.idle, none, rfl, .inl ⟨.inl rfl, rfl⟩⟩
theorem inv_base : Inv base :=
  ⟨base_atRest, by decide, fun _ => by decide, by decide, by decide, ⟨rfl, rfl⟩⟩
theorem held : ImageHeld params [(0, 7#8), (1, 8#8), (2, 9#8)] 3#32 [7#8, 8#8, 9#8] := ⟨by decide, by decide⟩
theorem inv_announcing : Inv announcing :=
  ⟨base_atRest, by decide, (by intro h; cases h), by decide, by decide, ⟨.raw, 1#16, 1#16, 3#32, _, rfl, held⟩⟩
theorem inv_streaming : Inv streaming :=
  ⟨base_atRest, by decide, (by intro h; cases h), by decide, by decide,
    ⟨.raw, 1#16, 1#16, 3#32, _, 0#32, 2#16, 1, rfl, held, ⟨by decide, by decide, by decide, .inl (by decide), by decide⟩,
      ⟨[], [], by decide, by decide, by decide, by decide, by decide⟩, by decide⟩⟩
theorem inv_finished : Inv finished :=
  ⟨base_atRest, by decide, (by intro h; cases h), by decide, by decide,
    ⟨.raw, 1#16, 1#16, 3#32, _, 2#16, 1, rfl, held, ⟨by decide, by decide, by decide, .inr rfl, by decide⟩,
      ⟨[], [[7#8, 8#8], [9#8]], by decide, by decide, by decide, by decide, by decide⟩⟩⟩
theorem inv_aborted : Inv aborted :=
  ⟨base_atRest, by decide, (by intro h; cases h), by decide, by decide,
    .inr (.inr ⟨.raw, 1#16, 1#16, 3#32, _, 2#32, 2#16, 1, rfl, held,
      ⟨by decide, by decide, by decide, .inl (by decide), by decide⟩,
      ⟨[], [[7#8, 8#8]], by decide, by decide, by decide, by decide, by decide⟩, by decide⟩)⟩
theorem inv_lastChunk : Inv lastChunk :=
  ⟨base_atRest, by decide, (by intro h; cases h), by decide, by decide,
    ⟨.raw, 1#16, 1#16, 3#32, _, 2#32, 2#16, 1, rfl, held, ⟨by decide, by decide, by decide, .inl (by decide), by decide⟩,
      ⟨[], [[7#8, 8#8]], by decide, by decide, by decide, by decide, by decide⟩, by decide⟩⟩
/-- A worker step that is next on the schedule, with the channel's answer. -/
def withStep (s : State) (a : Answers) : State := { s with inputs := [⟨encode .pktStep, a⟩] }
theorem inv_withStep {s : State} (h : Inv s) (a : Answers) : Inv (withStep s a) :=
  ⟨h.encoder, h.memory, h.session, h.config, h.faults, h.job⟩
theorem witness_InvStep : Inv (withStep streaming sendOk) ∧ ∃ t, step (withStep streaming sendOk) = .next t :=
  ⟨inv_withStep inv_streaming _, _, rfl⟩
/-- Each clause is met by a step: into `Streaming` with the record sent, a chunk, the last chunk, an aborted one, the release. -/
theorem witness_JobInvariants :
    (Inv (withStep announcing sendOk) ∧ ∃ t, step (withStep announcing sendOk) = .next t ∧ t.job.state = .streaming ∧
      t.outbox = announcing.outbox ++ [(.metadata, record)]) ∧
    (Inv (withStep streaming sendOk) ∧ ∃ t, step (withStep streaming sendOk) = .next t ∧ t.job.state = .streaming ∧
      t.job.bytesSent = some 2#32) ∧
    (Inv (withStep lastChunk sendOk) ∧ ∃ t, step (withStep lastChunk sendOk) = .next t ∧ t.job.state = .done ∧
      t.job.bytesSent = some 3#32) ∧
    (Inv (withStep lastChunk sendFail) ∧ ∃ t, step (withStep lastChunk sendFail) = .next t ∧ t.job.state = .failed ∧
      t.job.bytesSent = some 2#32) ∧
    (Inv (withStep aborted sendOk) ∧ ∃ t, step (withStep aborted sendOk) = .next t ∧ t.job.state = .idle ∧
      t.job.imgValid = false) :=
  ⟨⟨inv_withStep inv_announcing _, _, rfl, by decide, by decide⟩, ⟨inv_withStep inv_streaming _, _, rfl, by decide, by decide⟩,
    ⟨inv_withStep inv_lastChunk _, _, rfl, by decide, by decide⟩, ⟨inv_withStep inv_lastChunk _, _, rfl, by decide, by decide⟩,
    ⟨inv_withStep inv_aborted _, _, rfl, by decide, by decide⟩⟩
theorem witness_WorkerReturns : Inv announcing ∧ announcing.params.imgMax.toNat + 4 ≤ (List.replicate 104 sendFail).length :=
  ⟨inv_announcing, by decide +kernel⟩
theorem witness_StreamingCompletes : streaming.job.state = .streaming ∧ streaming.job.bytesSent = some 0#32 ∧
    streaming.job.chunkSize = some 2#16 ∧ 1 ≤ (2#16).toNat ∧ streaming.job.imgLen = some 3#32 ∧ 1 ≤ (3#32).toNat ∧
    streaming.job.epoch = some streaming.session.epoch ∧ streaming.session.connected = true ∧
    streaming.session.notifData = true ∧ streaming.img.readBytes 0 (3#32).toNat = some [7#8, 8#8, 9#8] ∧
    (∀ a ∈ [sendOk, sendOk], a.send = .ok) ∧ [sendOk, sendOk].length = ((3#32).toNat + (2#16).toNat - 1) / (2#16).toNat := by
  decide
theorem witness_DisconnectAborts : Inv streaming ∧ streaming.job.state = .streaming ∧
    streaming.job.bytesSent ≠ streaming.job.imgLen ∧
    ∀ x ∈ [(Instr.pktConnect, sendOk), (Instr.pktSubscribe 2, sendOk)], x.1 ≠ .pktStep :=
  ⟨inv_streaming, rfl, by decide, by decide⟩

end Sys2Proof.Machine.Tests
end

section
/-! PROOFS. The family of 00_scope.md: the YUV sums with the shift of a negative sum (R12, R190, R191), and the frame
of every operation (R16, R25, R33, R40, R47, R93). -/

namespace Sys2Proof.Machine

/-! ### The YUV sums and the clamp -/

/-- The three sums are affine in bytes, so each is bounded by its values at the ends of the byte range (R190). -/
theorem yuvSums_bounds (y u v : Byte) :
    -56992 ≤ yuvRedSum y v ∧ yuvRedSum y v ≤ 123293 ∧
    -43756 ≤ yuvGreenSum y u v ∧ yuvGreenSum y u v ≤ 110774 ∧
    -70688 ≤ yuvBlueSum y u ∧ yuvBlueSum y u ≤ 136882 := by
  have hy := y.isLt
  have hu := u.isLt
  have hv := v.isLt
  unfold yuvRedSum yuvGreenSum yuvBlueSum
  omega

theorem clamp255_of_nonpos {x : Int} (h : x ≤ 0) : clamp255 x = 0#8 := by
  rcases h.lt_or_eq with hneg | rfl
  · exact if_pos hneg
  · rfl

theorem asr_eight (x : Int) : asr x 8 = x / 256 := rfl

/-- The two readings of the shift differ only on a negative sum, where neither quotient is positive (R191). -/
theorem clamp255_tdiv_eq_asr (x : Int) : clamp255 (x.tdiv 256) = clamp255 (asr x 8) := by
  rw [asr_eight]
  rcases le_total 0 x with hx | hx
  · rw [Int.tdiv_eq_ediv_of_nonneg hx]
  · have htrunc : x.tdiv 256 ≤ 0 :=
      neg_nonneg.mp (Int.neg_tdiv x 256 ▸ Int.tdiv_nonneg (neg_nonneg.mpr hx) (by decide))
    have hfloor : x / 256 ≤ 0 := by omega
    rw [clamp255_of_nonpos htrunc, clamp255_of_nonpos hfloor]

/-- Settles O20: the sums by their ends, the shift by the sign of the sum. -/
theorem yuvArithmetic : Obligations.YuvArithmetic :=
  ⟨yuvSums_bounds, clamp255_tdiv_eq_asr⟩

/-! ### The elements an operation may write

`exec_overlay` says once, for every operation, which elements of the state it may write; a frame statement then only
compares its own list of operations with that one. -/

/-- The state `s` with the elements the operation may write taken from `t`. -/
def State.overlay (op : Op) (s t : State) : State :=
  match op with
  | .crcInit | .crcUpdate => { s with crcAcc := t.crcAcc, faults := t.faults }
  | .adlerInit | .adlerUpdate | .adlerLoad => { s with adler := t.adler, faults := t.faults }
  | .crcFinal | .adlerRead =>
    { s with results := { s.results with dout32 := t.results.dout32 }, faults := t.faults }
  | .convRgb565 | .convYuyv => { s with results := { s.results with pix := t.results.pix }, faults := t.faults }
  | .encPng | .encFlat =>
    { s with
      enc := t.enc, sink := t.sink, results := { s.results with status := t.results.status }, faults := t.faults }
  | .pktConfig => { s with cfgVariant := t.cfgVariant, faults := t.faults }
  | .pktTrigger | .pktPeerWrite => { s with job := t.job }
  | .pktConnect | .pktDisconnect | .pktSubscribe | .pktUnsubscribe | .pktSetMaxPayload =>
    { s with session := t.session, faults := t.faults }
  | .pktStep =>
    { s with
      enc := t.enc, job := t.job, img := t.img, lastOutcome := t.lastOutcome, outbox := t.outbox
      freeCount := t.freeCount, faults := t.faults }

section Overlay
variable {op : Op} {s t : State}

@[simp] theorem State.overlay_params : (s.overlay op t).params = s.params := by cases op <;> rfl
@[simp] theorem State.overlay_inputs : (s.overlay op t).inputs = s.inputs := by cases op <;> rfl
@[simp] theorem State.overlay_answers : (s.overlay op t).answers = s.answers := by cases op <;> rfl

theorem State.overlay_crcAcc (hinit : op ≠ .crcInit) (hupdate : op ≠ .crcUpdate) :
    (s.overlay op t).crcAcc = s.crcAcc := by
  cases op <;> simp_all [State.overlay]

theorem State.overlay_adler (hinit : op ≠ .adlerInit) (hupdate : op ≠ .adlerUpdate) (hload : op ≠ .adlerLoad) :
    (s.overlay op t).adler = s.adler := by
  cases op <;> simp_all [State.overlay]

theorem State.overlay_enc (hpng : op ≠ .encPng) (hflat : op ≠ .encFlat) (hstep : op ≠ .pktStep) :
    (s.overlay op t).enc = s.enc := by
  cases op <;> simp_all [State.overlay]

theorem State.overlay_sink_status (hpng : op ≠ .encPng) (hflat : op ≠ .encFlat) :
    (s.overlay op t).sink = s.sink ∧ (s.overlay op t).results.status = s.results.status := by
  cases op <;> simp_all [State.overlay]

theorem State.overlay_dout32 (hcrc : op ≠ .crcFinal) (hadler : op ≠ .adlerRead) :
    (s.overlay op t).results.dout32 = s.results.dout32 := by
  cases op <;> simp_all [State.overlay]

theorem State.overlay_pix (hrgb : op ≠ .convRgb565) (hyuyv : op ≠ .convYuyv) :
    (s.overlay op t).results.pix = s.results.pix := by
  cases op <;> simp_all [State.overlay]

theorem State.overlay_cfgVariant (hconfig : op ≠ .pktConfig) : (s.overlay op t).cfgVariant = s.cfgVariant := by
  cases op <;> simp_all [State.overlay]

theorem State.overlay_job (htrigger : op ≠ .pktTrigger) (hwrite : op ≠ .pktPeerWrite) (hstep : op ≠ .pktStep) :
    (s.overlay op t).job = s.job := by
  cases op <;> simp_all [State.overlay]

theorem State.overlay_delivery (hstep : op ≠ .pktStep) : (s.overlay op t).lastOutcome = s.lastOutcome ∧
    (s.overlay op t).outbox = s.outbox ∧ (s.overlay op t).freeCount = s.freeCount := by
  cases op <;> simp_all [State.overlay]

end Overlay

/-! ### The worker's step, state by state of the job -/

section Worker
variable (s : State)

theorem State.endJobRun_overlay (op : Op) (fmt : ImageFormat) (f : Frame) (r : Run) :
    s.endJobRun op fmt f r = s.overlay .pktStep (s.endJobRun op fmt f r) := by
  cases r <;> rfl

theorem State.encodeJob_overlay (f : Frame) : s.encodeJob f = s.overlay .pktStep (s.encodeJob f) := by
  unfold State.encodeJob
  split
  case h_1 =>
    split
    · split <;> rfl
    · rfl
  case h_2 | h_3 =>
    split
    · exact s.endJobRun_overlay ..
    · rfl

theorem State.captureStep_overlay : s.captureStep = s.overlay .pktStep s.captureStep := by
  unfold State.captureStep
  cases s.answers.acquire with
  | frame f => exact s.encodeJob_overlay f
  | timeout | unavailable | unsupported => rfl

theorem State.startStreaming_overlay (snap : Session) :
    s.startStreaming snap = s.overlay .pktStep (s.startStreaming snap) := by
  unfold State.startStreaming
  dsimp only
  split <;> rfl

theorem State.announceStep_overlay : s.announceStep = s.overlay .pktStep s.announceStep := by
  unfold State.announceStep
  dsimp only
  split
  case isFalse => rfl
  case isTrue =>
    split
    case h_2 => rfl
    case h_1 =>
      split
      case h_1 => rfl
      case h_2 hsend =>
        obtain ⟨-, -, rfl⟩ := (s.send_eq ..).mp hsend
        exact State.startStreaming_overlay ..

theorem State.streamStep_overlay : s.streamStep = s.overlay .pktStep s.streamStep := by
  unfold State.streamStep
  dsimp only
  split
  case h_2 | h_3 => rfl
  case h_1 =>
    split
    case isTrue => rfl
    case isFalse =>
      split
      case h_1 => rfl
      case h_2 =>
        split
        case h_1 => rfl
        case h_2 hsend =>
          obtain ⟨-, -, rfl⟩ := (s.send_eq ..).mp hsend
          rfl

theorem State.releaseFailed_overlay : s.releaseFailed = s.overlay .pktStep s.releaseFailed := by
  unfold State.releaseFailed
  split <;> rfl

theorem State.workerStep_overlay : s.workerStep = s.overlay .pktStep s.workerStep := by
  rw [s.workerStep_eq]
  cases s.job.state with
  | idle => rfl
  | capturing => exact s.captureStep_overlay
  | announcing => exact s.announceStep_overlay
  | streaming => exact s.streamStep_overlay
  | done => rfl
  | failed => exact s.releaseFailed_overlay

end Worker

/-! ### Every operation -/

section Exec
variable {s t : State}

/-- A stand-alone run writes the same elements for either variant. -/
theorem State.endRun_overlay (op : Op) (r : Run) : s.endRun op r = s.overlay .encPng (s.endRun op r) := by
  cases r <;> rfl

theorem execEncPng_overlay {f : Frame} (h : execEncPng f s = .next t) : t = s.overlay .encPng t := by
  unfold execEncPng at h
  split at h <;> cases h
  · exact State.endRun_overlay ..
  · rfl

theorem execEncFlat_overlay {f : Frame} (h : execEncFlat f s = .next t) : t = s.overlay .encFlat t := by
  unfold execEncFlat at h
  split at h
  · split at h <;> cases h
    · exact State.endRun_overlay ..
    · rfl
  · cases h
    rfl

theorem State.trigger_overlay : s.trigger = s.overlay .pktTrigger s.trigger := by
  unfold State.trigger
  split <;> rfl

theorem execPktPeerWrite_overlay {b : Byte} (h : execPktPeerWrite b s = .next t) : t = s.overlay .pktPeerWrite t := by
  unfold execPktPeerWrite at h
  split at h <;> cases h
  · exact State.trigger_overlay
  · rfl

theorem execPktConfig_overlay {v : Nat} (h : execPktConfig v s = .next t) : t = s.overlay .pktConfig t := by
  unfold execPktConfig at h
  split at h
  · cases h
    rfl
  · split at h
    · cases h
      rfl
    · split at h <;> cases h <;> rfl

theorem State.subscription_overlay (ch : Channel) (on : Bool) :
    s.subscription ch on = s.overlay .pktSubscribe (s.subscription ch on) := by
  unfold State.subscription
  split <;> rfl

/-- Every operation writes only the elements `State.overlay` lists for it. -/
theorem exec_overlay {i : Instr} (h : exec i s = .next t) : t = s.overlay i.op t := by
  cases i
  case crcInit | adlerInit | adlerLoad =>
    cases h
    rfl
  case crcUpdate | crcFinal | adlerUpdate | adlerRead | convRgb565 | convYuyv | pktConnect | pktDisconnect
      | pktSetMaxPayload =>
    simp only [exec, execCrcUpdate, execCrcFinal, execAdlerUpdate, execAdlerRead, execConvRgb565, execConvYuyv,
      execPktConnect, execPktDisconnect, execPktSetMaxPayload] at h
    split at h <;> cases h <;> rfl
  case pktSubscribe | pktUnsubscribe =>
    simp only [exec, execPktSubscribe, execPktUnsubscribe] at h
    split at h <;> cases h
    · rfl
    · exact State.subscription_overlay ..
  case encPng => exact execEncPng_overlay h
  case encFlat => exact execEncFlat_overlay h
  case pktConfig => exact execPktConfig_overlay h
  case pktTrigger =>
    cases h
    exact State.trigger_overlay
  case pktPeerWrite => exact execPktPeerWrite_overlay h
  case pktStep =>
    cases h
    exact s.workerStep_overlay

end Exec

/-- Settles O49: each element is held to the list of operations that may write it. -/
theorem stateFrame : Obligations.StateFrame := by
  intro i s t h
  rw [exec_overlay h]
  exact ⟨State.overlay_params, State.overlay_inputs, State.overlay_answers, State.overlay_crcAcc, State.overlay_adler,
    State.overlay_enc, State.overlay_sink_status, State.overlay_dout32, State.overlay_pix, State.overlay_cfgVariant,
    State.overlay_job, State.overlay_delivery⟩

end Sys2Proof.Machine
end

section
/-! PROOFS. The family of 10_state.md: what the worker's step can do in each state of the job, what every operation does to
the fault set and the session (R46, R264), the Adler stream (R156, R157), and the invariant (R26, R32 to R39, R299). -/

namespace Sys2Proof.Machine

/-! ### One step is one operation of the request taken (R385) -/

/-- The operation in hand finds the block as it was, with its own answers standing and the result ports empty. -/
def State.taken (s : State) (rest : List Request) (a : Answers) : State :=
  { s with inputs := rest, answers := a, results := Results.empty }

/-- A step does nothing, rejects the command, or runs one operation. -/
theorem step_cases {s t : State} (h : step s = .next t) :
    t = s ∨ ∃ rest a, (∃ r, t = (s.taken rest a).raise r) ∨ ∃ i, exec i (s.taken rest a) = .next t := by
  unfold step at h
  split at h
  case h_1 =>
    cases h
    exact .inl rfl
  case h_2 c s' htake =>
    obtain ⟨r, rest, -, -, rfl⟩ := (s.takeRequest_eq c s').mp htake
    refine .inr ⟨rest, r.answers, ?_⟩
    split at h
    case h_1 i _ => exact .inr ⟨i, h⟩
    case h_2 e _ =>
      cases h
      cases e with
      | illegalOpcode b => exact .inl ⟨.illegalOpcode b, rfl⟩

/-! ### The operations with branches of their own -/

/-- What `ENC_PNG` and `ENC_FLAT` can do (R203, R332). -/
inductive State.RunsAlone (s : State) : State → Prop where
  | ends (op : Op) (r : Run) : RunsAlone s (s.endRun op r)
  | refuses (op : Op) (which : List FrameCondition) : RunsAlone s (s.refuseFrame op which)
  | isIllegal (opcode : Byte) :
      RunsAlone s (State.raise (.illegalOpcode opcode) { s with results := { s.results with status := none } })

/-- What `PKT_CONFIG` can do: `FLAT` is configured only where the variant exists (R33, R261). -/
inductive State.Configures (s : State) : State → Prop where
  | ignores : Configures s s
  | refuses (variant : Nat) : Configures s (s.raise (.illegalOperand .pktConfig variant))
  | writes (fmt : ImageFormat) (hlegal : fmt = .flat → s.params.hasFlatVariant = true) :
      Configures s { s with cfgVariant := fmt }

section HostOps
variable {s t : State}

theorem execEncPng_runsAlone {f : Frame} (h : execEncPng f s = .next t) : s.RunsAlone t := by
  unfold execEncPng at h
  split at h <;> cases h
  · exact .ends ..
  · exact .refuses ..

theorem execEncFlat_runsAlone {f : Frame} (h : execEncFlat f s = .next t) : s.RunsAlone t := by
  unfold execEncFlat at h
  split at h
  · split at h <;> cases h
    · exact .ends ..
    · exact .refuses ..
  · cases h
    exact .isIllegal _

theorem execPktConfig_configures {v : Nat} (h : execPktConfig v s = .next t) : s.Configures t := by
  unfold execPktConfig at h
  split at h
  · cases h
    exact .refuses v
  · split at h
    case isTrue =>
      cases h
      exact .refuses v
    case isFalse hlegal =>
      split at h <;> cases h
      · exact .writes _ (by simpa using hlegal)
      · exact .ignores

end HostOps

/-! ### The worker's step, one relation per state of the job that has branches -/

/-- What a step in `Capturing` can do (R278 to R281). -/
inductive State.Captures (s : State) : State → Prop where
  | fails (r : Reason) (hsub : r ≠ .noSubscriber) (habort : r ≠ .transferAborted) : Captures s (s.fail r)
  | refuses (op : Op) (which : List FrameCondition) : Captures s (s.refuseJobFrame op which)
  | readsNoValue (op : Op) (el : Element) : Captures s (s.raise (.useBeforeInit op el))
  | overflows (err : SinkError) (out : List Byte) :
      Captures s (State.fail .encodeError
        { s with enc := Encoder.failed err, img := s.img.writeBytes 0 out, freeCount := s.freeCount + 1 })
  | stores (e : Encoder) (he : e = s.enc ∨ e = Encoder.finished) (fmt : ImageFormat) (f : Frame) (out : List Byte)
      (hfit : out.length ≤ s.params.imgMax.toNat) :
      Captures s (State.imageReady fmt f out.length { s with enc := e, img := s.img.writeBytes 0 out })

/-- The metadata record of a job whose image record is complete (R114). -/
def State.HasRecord (s : State) (record : List Byte) : Prop :=
  ∃ w h len fmt, s.job.imgWidth = some w ∧ s.job.imgHeight = some h ∧ s.job.imgLen = some len ∧
    s.job.imgFormat = some fmt ∧ record = metadataRecord s.params w h len fmt

/-- What a step in `Announcing` can do (R283 to R286). -/
inductive State.Announces (s : State) : State → Prop where
  | unsubscribed : Announces s (s.fail .noSubscriber)
  | readsNoValue (hnone : s.job.imgWidth = none ∨ s.job.imgHeight = none ∨ s.job.imgLen = none ∨
      s.job.imgFormat = none) : Announces s (s.raise (.useBeforeInit .pktStep .image))
  | unsent : Announces s (s.fail .transferAborted)
  | refuses (record : List Byte) (hrecord : s.HasRecord record) :
      Announces s (State.fail .transferAborted (State.raise (.badChunkSize s.session.maxPayload)
        { s with outbox := s.outbox ++ [(.metadata, record)] }))
  | starts (record : List Byte) (hrecord : s.HasRecord record)
      (hsize : 1 ≤ chunkSizeOf s.params s.session.maxPayload) :
      Announces s { s with
        outbox := s.outbox ++ [(.metadata, record)]
        job := { s.job with
          state := .streaming, chunkSize := some (BitVec.ofInt 16 (chunkSizeOf s.params s.session.maxPayload))
          epoch := some s.session.epoch, bytesSent := some 0#32 } }

/-- What a step in `Streaming` can do (R290). -/
inductive State.Streams (s : State) : State → Prop where
  | allSent (len : Word) (hsent : s.job.bytesSent = some len) (hlen : s.job.imgLen = some len) :
      Streams s { s with job := { s.job with state := .done } }
  | readsNoField (r : FaultRecord)
      (hnone : s.job.bytesSent = none ∨ s.job.chunkSize = none ∨ s.job.imgLen = none) : Streams s (s.raise r)
  | readsNoByte (sent : Word) (size : Half) (len : Word) (hsent : s.job.bytesSent = some sent)
      (hsize : s.job.chunkSize = some size) (hlen : s.job.imgLen = some len)
      (hnone : s.img.readBytes sent.toNat (chunkLength size sent len) = none) :
      Streams s (s.raise (.useBeforeInit .pktStep .imgBytes))
  | unsent (sent len : Word) (hsent : s.job.bytesSent = some sent) (hlen : s.job.imgLen = some len) (hne : sent ≠ len) :
      Streams s (s.fail .transferAborted)
  | sends (sent : Word) (size : Half) (len : Word) (data : List Byte) (hsent : s.job.bytesSent = some sent)
      (hsize : s.job.chunkSize = some size) (hlen : s.job.imgLen = some len) (hne : sent ≠ len)
      (hread : s.img.readBytes sent.toNat (chunkLength size sent len) = some data) :
      Streams s (State.advance sent len (chunkLength size sent len) { s with outbox := s.outbox ++ [(.data, data)] })

/-- What the worker's step can do, by the state of the job (R276, R277, R296). -/
inductive State.Works (s : State) : State → Prop where
  | rests (hstate : s.job.state = .idle) : Works s s
  | captures {t : State} (hstate : s.job.state = .capturing) (h : s.Captures t) : Works s t
  | announces {t : State} (hstate : s.job.state = .announcing) (h : s.Announces t) : Works s t
  | streams {t : State} (hstate : s.job.state = .streaming) (h : s.Streams t) : Works s t
  | releases (outcome : JobOutcome) (hstate : s.job.state = .done ∧ outcome = .done ∨
      s.job.state = .failed ∧ ∃ r, s.job.reason = some r ∧ outcome = .failed r) : Works s (s.release outcome)
  | readsNoReason (hstate : s.job.state = .failed) (hnone : s.job.reason = none) :
      Works s (s.raise (.useBeforeInit .pktStep .pkReason))

/-! #### Inside a job the container that is stored fits the image buffer (R280) -/

/-- A run that every write so far was accepted in has put at most `n` bytes out. -/
def Run.Fits (n : Nat) : Run → Prop
  | .going _ out => out.length ≤ n
  | .aborted _ _ => True
  | .noValue _ => True

/-- The procedure keeps a run within the `n` bytes the sink accepts. -/
def KeepsFit (n : Nat) (k : Encoder → List Byte → Run) : Prop := ∀ e out, out.length ≤ n → (k e out).Fits n

theorem Run.Fits.andThen {n : Nat} {r : Run} {k : Encoder → List Byte → Run} (hr : r.Fits n) (hk : KeepsFit n k) :
    (r.andThen k).Fits n := by
  cases r with
  | going e out => exact hk e out hr
  | aborted err out => trivial
  | noValue el => trivial

section Fits
variable (x : SinkFailure)

theorem keepsFit_sinkWrite (b : Byte) : KeepsFit x.index (sinkWrite (some x) b) := by
  intro e out _
  unfold sinkWrite
  dsimp only
  split
  case isTrue hlt => simpa [Run.Fits] using hlt
  case isFalse => trivial

theorem keepsFit_emit (bs : List Byte) : KeepsFit x.index (emit (some x) bs) := by
  induction bs with
  | nil => exact fun e out h => h
  | cons b bs ih => exact fun e out h => (keepsFit_sinkWrite x b e out h).andThen ih

theorem keepsFit_emitC (bs : List Byte) : KeepsFit x.index (emitC (some x) bs) := by
  induction bs with
  | nil => exact fun e out h => h
  | cons b bs ih =>
    refine fun e out h => (keepsFit_sinkWrite x b e out h).andThen fun e out h => ?_
    cases hcrc : e.crc with
    | none => simp [Run.Fits]
    | some c => simpa only [hcrc] using ih _ out h

theorem keepsFit_emitCrc : KeepsFit x.index (emitCrc (some x)) := by
  intro e out h
  unfold emitCrc
  split
  · exact keepsFit_emit x _ e out h
  · trivial

theorem keepsFit_openChunk (n : Nat) (tag : List Byte) : KeepsFit x.index (openChunk (some x) n tag) :=
  fun e out h => (keepsFit_emit x _ e out h).andThen fun _ out h => keepsFit_emitC x tag _ out h

theorem keepsFit_metaPhase (p : Params) (ops : EncOperands) : KeepsFit x.index (metaPhase (some x) p ops) :=
  fun _ out h => (keepsFit_openChunk x _ _ _ out h).andThen fun e out h =>
    (keepsFit_emitC x _ e out h).andThen (keepsFit_emitCrc x)

theorem keepsFit_zhdrPhase (p : Params) : KeepsFit x.index (zhdrPhase (some x) p) :=
  fun _ out h => (keepsFit_emitC x _ _ out h).andThen fun _ _ h => h

theorem keepsFit_openBlock : KeepsFit x.index (openBlock (some x)) := by
  intro e out h
  unfold openBlock
  split
  · trivial
  · exact (keepsFit_emitC x _ e out h).andThen fun _ _ h => h

theorem keepsFit_countByte (n : Nat) (b : Byte) : KeepsFit n (countByte b) := by
  intro e out h
  unfold countByte
  split
  · exact h
  · trivial
  · trivial

theorem keepsFit_emitPayloadByte (b : Byte) : KeepsFit x.index (emitPayloadByte (some x) b) := by
  have hwrite : KeepsFit x.index fun e out => (emitC (some x) [b] e out).andThen (countByte b) :=
    fun e out h => (keepsFit_emitC x [b] e out h).andThen (keepsFit_countByte _ b)
  intro e out h
  unfold emitPayloadByte
  dsimp only
  split
  · trivial
  · split
    · exact (keepsFit_openBlock x e out h).andThen hwrite
    · exact hwrite e out h

theorem keepsFit_emitPayload (bs : List Byte) : KeepsFit x.index (emitPayload (some x) bs) := by
  induction bs with
  | nil => exact fun e out h => h
  | cons b bs ih => exact fun e out h => (keepsFit_emitPayloadByte x b e out h).andThen ih

theorem keepsFit_emitRows {n : Nat} {body : Nat → Encoder → List Byte → Run} (hbody : ∀ r, KeepsFit n (body r))
    (rs : List Nat) : KeepsFit n (emitRows body rs) := by
  induction rs with
  | nil => exact fun e out h => h
  | cons r rs ih => exact fun e out h => (hbody r e out h).andThen ih

theorem keepsFit_trailerPhase : KeepsFit x.index (trailerPhase (some x)) := by
  intro e out h
  unfold trailerPhase
  split
  · exact keepsFit_emitC x _ _ out h
  · trivial

theorem keepsFit_endPhase (p : Params) : KeepsFit x.index (endPhase (some x) p) :=
  fun _ out h => (keepsFit_openChunk x _ _ _ out h).andThen (keepsFit_emitCrc x)

theorem pngRun_fits (p : Params) (ops : EncOperands) (payload : List Byte) :
    (pngRun (some x) p ops payload).Fits x.index := by
  refine (keepsFit_emit x _ _ [] (Nat.zero_le _)).andThen fun e out h => ?_
  refine (keepsFit_metaPhase x p ops e out h).andThen fun e out h => ?_
  refine (keepsFit_openChunk x _ _ _ out h).andThen fun e out h => ?_
  refine (keepsFit_zhdrPhase x p e out h).andThen fun e out h => ?_
  refine (keepsFit_emitRows (fun r e out h => keepsFit_emitPayload x _ _ out h) _ _ out h).andThen fun e out h => ?_
  refine (keepsFit_trailerPhase x e out h).andThen fun e out h => ?_
  exact (keepsFit_emitCrc x _ out h).andThen (keepsFit_endPhase x p)

theorem flatRun_fits (p : Params) (ops : EncOperands) (payload : List Byte) :
    (flatRun (some x) p ops payload).Fits x.index :=
  (keepsFit_emit x _ _ [] (Nat.zero_le _)).andThen fun _ out h =>
    keepsFit_emitRows (fun _ _ out h => keepsFit_emit x _ _ out h) _ _ out h

end Fits

/-! #### Every worker step is one of those -/

section Worker
variable (s : State)

theorem State.endJobRun_captures (op : Op) (fmt : ImageFormat) (f : Frame) {r : Run}
    (hr : r.Fits s.params.imgMax.toNat) : s.Captures (s.endJobRun op fmt f r) := by
  cases r with
  | going e out => exact .stores _ (.inr rfl) fmt f out hr
  | aborted err out => exact .overflows err out
  | noValue el => exact .readsNoValue op el

theorem State.encodeJob_captures (f : Frame) : s.Captures (s.encodeJob f) := by
  unfold State.encodeJob
  split
  case h_1 =>
    split
    · split
      · exact .fails _ nofun nofun
      · exact .stores s.enc (.inl rfl) .raw f f.payload (by omega)
    · exact .refuses ..
  case h_2 =>
    split
    · exact s.endJobRun_captures _ _ f (pngRun_fits ⟨_, _⟩ ..)
    · exact .refuses ..
  case h_3 =>
    split
    · exact s.endJobRun_captures _ _ f (flatRun_fits ⟨_, _⟩ ..)
    · exact .refuses ..

theorem State.captureStep_captures : s.Captures s.captureStep := by
  unfold State.captureStep
  cases s.answers.acquire with
  | frame f => exact s.encodeJob_captures f
  | timeout | unavailable | unsupported => exact .fails _ nofun nofun

theorem State.announceStep_announces : s.Announces s.announceStep := by
  unfold State.announceStep
  dsimp only
  split
  case isFalse => exact .unsubscribed
  case isTrue =>
    split
    case h_1 w h len fmt hw hh hlen hfmt =>
      have hrecord : s.HasRecord (metadataRecord s.params w h len fmt) := ⟨w, h, len, fmt, hw, hh, hlen, hfmt, rfl⟩
      split
      case h_1 => exact .unsent
      case h_2 hsend =>
        obtain ⟨-, -, rfl⟩ := (s.send_eq ..).mp hsend
        unfold State.startStreaming
        dsimp only
        split
        · exact .refuses _ hrecord
        · exact .starts _ hrecord (by omega)
    case h_2 hnone =>
      refine .readsNoValue ?_
      by_contra hall
      simp only [not_or, ← ne_eq, Option.ne_none_iff_exists'] at hall
      obtain ⟨⟨w, hw⟩, ⟨h, hh⟩, ⟨len, hlen⟩, ⟨fmt, hfmt⟩⟩ := hall
      exact hnone w h len fmt hw hh hlen hfmt

theorem State.streamStep_streams : s.Streams s.streamStep := by
  unfold State.streamStep
  dsimp only
  split
  case h_1 sent size len hsent hsize hlen =>
    split
    case isTrue heq => exact .allSent len (heq ▸ hsent) hlen
    case isFalse hne =>
      split
      case h_1 hread => exact .readsNoByte sent size len hsent hsize hlen hread
      case h_2 data hread =>
        split
        case h_1 => exact .unsent sent len hsent hlen hne
        case h_2 hsend =>
          obtain ⟨-, -, rfl⟩ := (s.send_eq ..).mp hsend
          exact .sends sent size len data hsent hsize hlen hne hread
  case h_2 hlen => exact .readsNoField _ (.inr (.inr hlen))
  case h_3 hnone =>
    refine .readsNoField _ ?_
    by_contra hall
    simp only [not_or, ← ne_eq, Option.ne_none_iff_exists'] at hall
    obtain ⟨⟨sent, hsent⟩, ⟨size, hsize⟩, ⟨len, hlen⟩⟩ := hall
    exact hnone sent size len hsent hsize hlen

theorem State.releaseFailed_works (hstate : s.job.state = .failed) : s.Works s.releaseFailed := by
  unfold State.releaseFailed
  split
  case h_1 r hreason => exact .releases _ (.inr ⟨hstate, r, hreason, rfl⟩)
  case h_2 hnone => exact .readsNoReason hstate hnone

theorem State.workerStep_works : s.Works s.workerStep := by
  rw [s.workerStep_eq]
  split
  case h_1 hstate => exact .rests hstate
  case h_2 hstate => exact .captures hstate s.captureStep_captures
  case h_3 hstate => exact .announces hstate s.announceStep_announces
  case h_4 hstate => exact .streams hstate s.streamStep_streams
  case h_5 hstate => exact .releases _ (.inl ⟨hstate, rfl⟩)
  case h_6 hstate => exact s.releaseFailed_works hstate

end Worker

/-! ### The fault set (R46, R330) -/

/-- The fault set of `t` is that of `s`, or that of `s` with one record raised. -/
def State.RaisesAtMostOne (s t : State) : Prop := t.faults = s.faults ∨ ∃ r, t.faults = (s.raise r).faults

section Faults
variable {s t : State}

theorem State.RaisesAtMostOne.mem (h : s.RaisesAtMostOne t) {r : FaultRecord} (hr : r ∈ s.faults) : r ∈ t.faults := by
  rcases h with h | ⟨q, h⟩ <;> rw [h]
  · exact hr
  · exact (s.mem_raise_faults q r).mpr (.inl hr)

theorem State.RaisesAtMostOne.nodup (h : s.RaisesAtMostOne t) (hs : s.faults.Nodup) : t.faults.Nodup := by
  rcases h with h | ⟨q, h⟩ <;> rw [h]
  · exact hs
  · exact s.raise_faults_nodup q hs

theorem State.Captures.raises (h : s.Captures t) : s.RaisesAtMostOne t := by
  cases h with
  | fails | overflows | stores => exact .inl rfl
  | refuses | readsNoValue => exact .inr ⟨_, rfl⟩

theorem State.Announces.raises (h : s.Announces t) : s.RaisesAtMostOne t := by
  cases h with
  | unsubscribed | unsent | starts => exact .inl rfl
  | readsNoValue | refuses => exact .inr ⟨_, rfl⟩

theorem State.Streams.raises (h : s.Streams t) : s.RaisesAtMostOne t := by
  cases h with
  | allSent | unsent | sends => exact .inl rfl
  | readsNoField | readsNoByte => exact .inr ⟨_, rfl⟩

theorem State.Works.raises (h : s.Works t) : s.RaisesAtMostOne t := by
  cases h with
  | rests | releases => exact .inl rfl
  | captures _ h => exact h.raises
  | announces _ h => exact h.raises
  | streams _ h => exact h.raises
  | readsNoReason => exact .inr ⟨_, rfl⟩

theorem State.endRun_raises (op : Op) (r : Run) : s.RaisesAtMostOne (s.endRun op r) := by
  cases r with
  | going e out | aborted err out => exact .inl rfl
  | noValue el => exact .inr ⟨_, rfl⟩

theorem State.RunsAlone.raises (h : s.RunsAlone t) : s.RaisesAtMostOne t := by
  cases h with
  | ends op r => exact State.endRun_raises op r
  | refuses | isIllegal => exact .inr ⟨_, rfl⟩

theorem State.Configures.raises (h : s.Configures t) : s.RaisesAtMostOne t := by
  cases h with
  | ignores | writes => exact .inl rfl
  | refuses => exact .inr ⟨_, rfl⟩

/-- Every operation raises at most one fault record. -/
theorem exec_raises {i : Instr} (h : exec i s = .next t) : s.RaisesAtMostOne t := by
  cases i
  case crcInit | adlerInit | adlerLoad =>
    cases h
    exact .inl rfl
  case crcUpdate | crcFinal | adlerUpdate | adlerRead =>
    simp only [exec, execCrcUpdate, execCrcFinal, execAdlerUpdate, execAdlerRead] at h
    split at h <;> cases h
    · exact .inl rfl
    · exact .inr ⟨_, rfl⟩
  case convRgb565 | convYuyv =>
    simp only [exec, execConvRgb565, execConvYuyv] at h
    split at h <;> cases h
    · exact .inr ⟨_, rfl⟩
    · exact .inl rfl
  case pktConnect | pktDisconnect | pktSetMaxPayload =>
    simp only [exec, execPktConnect, execPktDisconnect, execPktSetMaxPayload] at h
    split at h <;> cases h <;> exact .inl rfl
  case pktSubscribe | pktUnsubscribe =>
    simp only [exec, execPktSubscribe, execPktUnsubscribe] at h
    split at h <;> cases h
    · exact .inr ⟨_, rfl⟩
    · exact .inl (State.subscription_faults ..)
  case encPng => exact (execEncPng_runsAlone h).raises
  case encFlat => exact (execEncFlat_runsAlone h).raises
  case pktConfig => exact (execPktConfig_configures h).raises
  case pktTrigger =>
    cases h
    exact .inl s.trigger_faults
  case pktPeerWrite =>
    simp only [exec, execPktPeerWrite] at h
    split at h <;> cases h
    · exact .inl s.trigger_faults
    · exact .inl rfl
  case pktStep =>
    cases h
    exact s.workerStep_works.raises

theorem step_raises (h : step s = .next t) : s.RaisesAtMostOne t := by
  rcases step_cases h with rfl | ⟨rest, a, ⟨r, rfl⟩ | ⟨i, hi⟩⟩
  · exact .inl rfl
  · exact .inr ⟨r, rfl⟩
  · exact exec_raises (s := s.taken rest a) hi

end Faults

/-- Settles O51: a step raises at most one record, and a raise keeps the others. -/
theorem faultsSticky : Obligations.FaultsSticky :=
  fun _ _ h _ hr => (step_raises h).mem hr

/-! ### The session (R264 to R269) -/

/-- Settles O33: the two branches of the event. -/
theorem pktConnect : Obligations.PktConnect := by
  intro s
  refine ⟨fun hclosed => ?_, fun hopen => ?_⟩
  · simp [exec, execPktConnect, hclosed]
  · simp [exec, execPktConnect, hopen]

/-- How an operation leaves the session: untouched, opened anew by `PKT_CONNECT`, closed, or written while a peer is and
stays connected (R264 to R269). -/
inductive SessionChange (i : Instr) (p : Params) (se : Session) : Session → Prop where
  | unchanged : SessionChange i p se se
  | opens (hi : i = .pktConnect) (hclosed : se.connected = false) :
      SessionChange i p se ⟨true, false, false, p.defaultMaxPayload, se.epoch + 1⟩
  | closes : SessionChange i p se (Session.closed p se.epoch)
  | writes (se' : Session) (hopen : se'.connected = true) (hepoch : se'.epoch = se.epoch) : SessionChange i p se se'

section Session
variable {i : Instr} {s t : State}

theorem Session.setEnabled_connected (se : Session) (ch : Channel) (on : Bool) :
    (se.setEnabled ch on).connected = se.connected := by cases ch <;> rfl

theorem Session.setEnabled_epoch (se : Session) (ch : Channel) (on : Bool) :
    (se.setEnabled ch on).epoch = se.epoch := by cases ch <;> rfl

theorem State.subscription_session_change (ch : Channel) (on : Bool) :
    SessionChange i s.params s.session (s.subscription ch on).session := by
  unfold State.subscription
  split
  case isTrue hopen =>
    exact .writes _ ((s.session.setEnabled_connected ch on).trans hopen) (s.session.setEnabled_epoch ch on)
  case isFalse => exact .unchanged

theorem State.overlay_session (hevent : i.isSessionEvent = false) : (s.overlay i.op t).session = s.session := by
  cases i <;> simp_all [State.overlay, Instr.isSessionEvent, Instr.op]

theorem exec_session_of_not_event (h : exec i s = .next t) (hevent : i.isSessionEvent = false) :
    t.session = s.session := by
  rw [exec_overlay h]
  exact State.overlay_session hevent

theorem exec_session_change (h : exec i s = .next t) : SessionChange i s.params s.session t.session := by
  cases i
  case pktConnect =>
    simp only [exec, execPktConnect] at h
    split at h <;> cases h
    · exact .unchanged
    case isFalse hclosed => exact .opens rfl (Bool.eq_false_iff.mpr hclosed)
  case pktDisconnect =>
    simp only [exec, execPktDisconnect] at h
    split at h <;> cases h
    · exact .closes
    · exact .unchanged
  case pktSetMaxPayload =>
    simp only [exec, execPktSetMaxPayload] at h
    split at h <;> cases h
    case isTrue hopen => exact .writes _ hopen rfl
    · exact .unchanged
  case pktSubscribe | pktUnsubscribe =>
    simp only [exec, execPktSubscribe, execPktUnsubscribe] at h
    split at h <;> cases h
    · exact .unchanged
    · exact State.subscription_session_change ..
  all_goals
    rw [exec_session_of_not_event h rfl]
    exact .unchanged

theorem SessionChange.epoch_le {p : Params} {se se' : Session} (h : SessionChange i p se se') :
    se.epoch ≤ se'.epoch := by
  cases h with
  | unchanged | closes => exact le_rfl
  | opens => exact Nat.le_succ _
  | writes _ _ hepoch => exact hepoch.ge

theorem SessionChange.sessionOk {p : Params} {se se' : Session} (h : SessionChange i p se se') (hse : SessionOk p se) :
    SessionOk p se' := by
  cases h with
  | unchanged => exact hse
  | opens => exact nofun
  | closes => exact fun _ => ⟨rfl, rfl, rfl⟩
  | writes _ hopen => exact fun hclosed => absurd (hopen.symm.trans hclosed) (by decide)

/-- The epoch changes by connecting alone (R265). -/
theorem SessionChange.of_epoch_ne {p : Params} {se se' : Session} (h : SessionChange i p se se')
    (hne : se'.epoch ≠ se.epoch) : i = .pktConnect ∧ se.connected = false ∧ se'.epoch = se.epoch + 1 := by
  cases h with
  | unchanged | closes => exact absurd rfl hne
  | opens hi hclosed => exact ⟨hi, hclosed, rfl⟩
  | writes _ _ hepoch => exact absurd hepoch hne

theorem State.overlay_of_event (hevent : i.isSessionEvent = true) :
    s.overlay i.op t = { s with session := t.session, faults := t.faults } := by
  cases i <;> simp_all [State.overlay, Instr.isSessionEvent, Instr.op]

end Session

/-- Settles O48: the frame of the events, and the four ways the session can change. -/
theorem sessionSeparation : Obligations.SessionSeparation := by
  intro i s t h
  have hchange := exec_session_change h
  exact ⟨fun hevent => (exec_overlay h).trans (State.overlay_of_event hevent), exec_session_of_not_event h,
    hchange.epoch_le, hchange.of_epoch_ne⟩

/-! ### The Adler stream (R156, R157) -/

section AdlerStream
variable {s : State} {x : Adler}

theorem State.runSchedule_append (xs ys : List (Instr × Answers)) :
    s.runSchedule (xs ++ ys) = (s.runSchedule xs).runSchedule ys := List.foldl_append

theorem State.after_adlerUpdate (hx : s.adler = some x) (b : Byte) :
    (s.after (.adlerUpdate b)).adler = some (adlerStep x b) := by
  simp [State.after, exec, execAdlerUpdate, hx]

theorem State.after_adlerRead (hx : s.adler = some x) : (s.after .adlerRead).results.dout32 = some x.pack := by
  simp [State.after, exec, execAdlerRead, hx]

theorem State.runSchedule_adlerUpdates (a : Answers) (bs : List Byte) (hx : s.adler = some x) :
    (s.runSchedule (bs.map fun b => (Instr.adlerUpdate b, a))).adler = some (adlerFeed x bs) := by
  induction bs generalizing s x with
  | nil => exact hx
  | cons b bs ih => exact ih (State.after_adlerUpdate (s := { s with answers := a }) hx b)

/-- Load, updates, read: what the port shows, from any state. -/
theorem State.runSchedule_adlerStream (s : State) (a : Answers) (running : Word) (bs : List Byte) :
    (s.runSchedule ((.adlerLoad running, a) :: (bs.map (fun b => (Instr.adlerUpdate b, a)) ++
      [(.adlerRead, a)]))).results.dout32 = some (adler32 running bs) := by
  rw [← List.cons_append, State.runSchedule_append]
  refine State.after_adlerRead (x := adlerFeed (Adler.unpack running) bs) ?_
  exact State.runSchedule_adlerUpdates (s := State.after (.adlerLoad running) { s with answers := a }) a bs rfl

theorem Adler.pack_eq_append (x : Adler) : x.pack = x.b ++ x.a := by
  rw [BitVec.append_def, BitVec.shiftLeftZeroExtend_eq, BitVec.setWidth'_eq, Adler.pack]

theorem Adler.unpack_pack (x : Adler) : Adler.unpack x.pack = x := by
  rw [Adler.unpack, x.pack_eq_append, BitVec.extractLsb'_append_eq_right, BitVec.extractLsb'_append_eq_left]

theorem adler32_append (running : Word) (xs ys : List Byte) :
    adler32 running (xs ++ ys) = adler32 (adler32 running xs) ys := by
  simp only [adler32, Adler.unpack_pack, adlerFeed_append]

theorem adlerStep_lt (x : Adler) (b : Byte) : (adlerStep x b).a.toNat < 65521 ∧ (adlerStep x b).b.toNat < 65521 := by
  simp only [adlerStep, adlerMod, BitVec.toNat_ofNat]
  omega

theorem adlerFeed_lt (x : Adler) {bs : List Byte} (hbs : bs ≠ []) :
    (adlerFeed x bs).a.toNat < 65521 ∧ (adlerFeed x bs).b.toNat < 65521 := by
  rw [← List.dropLast_append_getLast hbs, adlerFeed_append]
  exact adlerStep_lt ..

end AdlerStream

/-- Settles O16: a read after a stream is `ADLER32`, which goes on from its own value; the last byte bounds the sums. -/
theorem adlerStream : Obligations.AdlerStream := by
  refine ⟨fun s a running xs ys => ⟨State.runSchedule_adlerStream .., ?_⟩, fun running xs hxs => ?_⟩
  · rw [adler32_append]
    exact State.runSchedule_adlerStream ..
  · rw [adler32, Adler.unpack_pack]
    exact adlerFeed_lt _ hxs

/-! ### The invariant, part by part (R26, R32 to R39, R299) -/

section Parts
variable {i : Instr} {s t : State}

theorem encoderAtRest_finished : EncoderAtRest Encoder.finished := ⟨.done, none, rfl, .inl ⟨.inr rfl, rfl⟩⟩

theorem encoderAtRest_failed (err : SinkError) : EncoderAtRest (Encoder.failed err) :=
  ⟨.aborted, some err, rfl, .inr ⟨rfl, err, rfl⟩⟩

theorem State.endRun_encoderAtRest (op : Op) (r : Run) (hs : EncoderAtRest s.enc) :
    EncoderAtRest (s.endRun op r).enc := by
  cases r with
  | going e out => exact encoderAtRest_finished
  | aborted err out => exact encoderAtRest_failed err
  | noValue el => exact hs

theorem State.RunsAlone.encoderAtRest (h : s.RunsAlone t) (hs : EncoderAtRest s.enc) : EncoderAtRest t.enc := by
  cases h with
  | ends op r => exact State.endRun_encoderAtRest op r hs
  | refuses | isIllegal => exact hs

theorem State.Captures.encoderAtRest (h : s.Captures t) (hs : EncoderAtRest s.enc) : EncoderAtRest t.enc := by
  cases h with
  | fails | refuses | readsNoValue => exact hs
  | overflows err => exact encoderAtRest_failed err
  | stores e he =>
    rcases he with rfl | rfl
    · exact hs
    · exact encoderAtRest_finished

theorem State.Works.encoderAtRest (h : s.Works t) (hs : EncoderAtRest s.enc) : EncoderAtRest t.enc := by
  cases h with
  | rests | releases | readsNoReason => exact hs
  | captures _ h => exact h.encoderAtRest hs
  | announces _ h => cases h <;> exact hs
  | streams _ h => cases h <;> exact hs

theorem exec_enc_frame (h : exec i s = .next t) (hpng : i.op ≠ .encPng) (hflat : i.op ≠ .encFlat)
    (hstep : i.op ≠ .pktStep) : t.enc = s.enc := by
  rw [exec_overlay h]
  exact State.overlay_enc hpng hflat hstep

theorem exec_encoderAtRest (h : exec i s = .next t) (hs : EncoderAtRest s.enc) : EncoderAtRest t.enc := by
  cases i
  case encPng => exact (execEncPng_runsAlone h).encoderAtRest hs
  case encFlat => exact (execEncFlat_runsAlone h).encoderAtRest hs
  case pktStep =>
    cases h
    exact s.workerStep_works.encoderAtRest hs
  all_goals
    rw [exec_enc_frame h nofun nofun nofun]
    exact hs

theorem State.overlay_img {op : Op} (hstep : op ≠ .pktStep) : (s.overlay op t).img = s.img := by
  cases op <;> simp_all [State.overlay]

theorem exec_img_frame (h : exec i s = .next t) (hstep : i.op ≠ .pktStep) : t.img = s.img := by
  rw [exec_overlay h]
  exact State.overlay_img hstep

theorem State.Captures.memory_wf (h : s.Captures t) (hs : s.img.wf) : t.img.wf := by
  cases h with
  | fails | refuses | readsNoValue => exact hs
  | overflows | stores => exact Memory.writeBytes_wf 0 _ hs

theorem State.Works.memory_wf (h : s.Works t) (hs : s.img.wf) : t.img.wf := by
  cases h with
  | rests | readsNoReason => exact hs
  | captures _ h => exact h.memory_wf hs
  | announces _ h => cases h <;> exact hs
  | streams _ h => cases h <;> exact hs
  | releases => exact List.Pairwise.nil

theorem exec_memory_wf (h : exec i s = .next t) (hs : s.img.wf) : t.img.wf := by
  by_cases hstep : i.op = .pktStep
  · cases i <;> cases hstep
    cases h
    exact s.workerStep_works.memory_wf hs
  · rw [exec_img_frame h hstep]
    exact hs

theorem exec_params (h : exec i s = .next t) : t.params = s.params := by
  rw [exec_overlay h]
  exact State.overlay_params

theorem exec_job_frame (h : exec i s = .next t) (htrigger : i.op ≠ .pktTrigger) (hwrite : i.op ≠ .pktPeerWrite)
    (hstep : i.op ≠ .pktStep) : t.job = s.job := by
  rw [exec_overlay h]
  exact State.overlay_job htrigger hwrite hstep

theorem exec_outbox_frame (h : exec i s = .next t) (hstep : i.op ≠ .pktStep) : t.outbox = s.outbox := by
  obtain ⟨-, houtbox, -⟩ := State.overlay_delivery (s := s) (t := t) hstep
  exact exec_overlay h ▸ houtbox

theorem State.Configures.config (h : s.Configures t) (hs : s.cfgVariant = .flat → s.params.hasFlatVariant = true) :
    t.cfgVariant = .flat → t.params.hasFlatVariant = true := by
  cases h with
  | ignores | refuses => exact hs
  | writes fmt hlegal => exact hlegal

theorem exec_cfgVariant_frame (h : exec i s = .next t) (hconfig : i.op ≠ .pktConfig) : t.cfgVariant = s.cfgVariant := by
  rw [exec_overlay h]
  exact State.overlay_cfgVariant hconfig

theorem exec_config (h : exec i s = .next t) (hs : s.cfgVariant = .flat → s.params.hasFlatVariant = true) :
    t.cfgVariant = .flat → t.params.hasFlatVariant = true := by
  cases i
  case pktConfig => exact (execPktConfig_configures h).config hs
  all_goals
    rw [exec_params h, exec_cfgVariant_frame h nofun]
    exact hs

end Parts

/-! ### What a job has delivered (R290, R299 (d), (e)) -/

section Delivery
variable {p : Params} {outbox : List (Channel × List Byte)} {w h : Half} {len sent : Word} {fmt : ImageFormat}
  {image : List Byte} {size : Half}

theorem Memory.length_of_readBytes {m : Memory} {addr n : Nat} {bs : List Byte} (h : m.readBytes addr n = some bs) :
    bs.length = n :=
  ((Memory.readBytes_eq ..).mp h).1

theorem ImageHeld.length_eq {m : Memory} (himage : ImageHeld p m len image) : image.length = len.toNat :=
  Memory.length_of_readBytes himage.1

theorem ImageHeld.readBytes {m : Memory} (himage : ImageHeld p m len image) {sent n : Nat} (hn : sent + n ≤ len.toNat) :
    m.readBytes sent n = some ((image.drop sent).take n) :=
  Memory.readBytes_part himage.1 sent n hn

theorem imageHeld_writeBytes (m : Memory) (out : List Byte) (hfit : out.length ≤ p.imgMax.toNat) :
    ImageHeld p (m.writeBytes 0 out) (BitVec.ofNat 32 out.length) out := by
  have hlen : (BitVec.ofNat 32 out.length).toNat = out.length :=
    Nat.mod_eq_of_lt (hfit.trans_lt p.imgMax.isLt)
  unfold ImageHeld
  rw [hlen]
  exact ⟨m.readBytes_writeBytes out, hfit⟩

/-- What a sent chunk does to the job record (R290). -/
theorem State.advance_job (s : State) (sent len : Word) (n : Nat) :
    (s.advance sent len n).job = { s.job with
      bytesSent := some (sent + BitVec.ofNat 32 n)
      state := if sent + BitVec.ofNat 32 n = len then .done else s.job.state } := rfl

/-- After the record nothing of the image is sent yet. -/
theorem delivered_record (p : Params) (outbox : List (Channel × List Byte)) (w h : Half) (len : Word)
    (fmt : ImageFormat) (image : List Byte) (size : Half) :
    Delivered p (outbox ++ [(.metadata, metadataRecord p w h len fmt)]) w h len fmt image 0#32 size :=
  ⟨outbox, [], rfl, rfl, nofun, nofun, fun _ => nofun⟩

/-- The next chunk ends within the image. -/
theorem add_chunkLength_le (size : Half) (hle : sent.toNat ≤ len.toNat) :
    sent.toNat + chunkLength size sent len ≤ len.toNat := by
  unfold chunkLength
  omega

theorem toNat_add_chunkLength (size : Half) (hle : sent.toNat ≤ len.toNat) :
    (sent + BitVec.ofNat 32 (chunkLength size sent len)).toNat = sent.toNat + chunkLength size sent len := by
  have hend := add_chunkLength_le size hle
  have hlen := len.isLt
  rw [BitVec.toNat_add, BitVec.toNat_ofNat]
  omega

/-- A chunk before the end is one full chunk, or reaches the end. -/
theorem chunkLength_cases (size : Half) (hle : sent.toNat ≤ len.toNat) :
    chunkLength size sent len = size.toNat ∨ sent + BitVec.ofNat 32 (chunkLength size sent len) = len := by
  have hadd := toNat_add_chunkLength size hle
  rcases min_choice size.toNat (len.toNat - sent.toNat) with hmin | hmin
  · exact .inl hmin
  · right
    apply BitVec.eq_of_toNat_eq
    unfold chunkLength at hadd ⊢
    omega

theorem toNat_lt_of_ne (hle : sent.toNat ≤ len.toNat) (hne : sent ≠ len) : sent.toNat < len.toNat :=
  lt_of_le_of_ne hle fun heq => hne (BitVec.eq_of_toNat_eq heq)

theorem TransferOk.sent_le {se : Session} {epoch : Nat} (hok : TransferOk p se len sent size epoch) :
    sent.toNat ≤ len.toNat := by
  obtain ⟨-, -, hle, -⟩ := hok
  exact hle

theorem TransferOk.afterChunk {se : Session} {epoch : Nat} (hok : TransferOk p se len sent size epoch)
    (hne : sent ≠ len) : TransferOk p se len (sent + BitVec.ofNat 32 (chunkLength size sent len)) size epoch := by
  obtain ⟨hpos, hcap, hle, hdvd, hepoch⟩ := hok
  have hadd := toNat_add_chunkLength size hle
  refine ⟨hpos, hcap, hadd ▸ add_chunkLength_le size hle, ?_, hepoch⟩
  rcases chunkLength_cases size hle with hfull | hend
  · left
    rw [hadd, hfull]
    exact Nat.dvd_add (hdvd.resolve_right hne) (dvd_refl _)
  · exact .inr hend

/-- A chunk sent before the end extends what the job has delivered. -/
theorem Delivered.afterChunk {se : Session} {epoch : Nat} (hd : Delivered p outbox w h len fmt image sent size)
    (hok : TransferOk p se len sent size epoch) (hlength : image.length = len.toNat) (hne : sent ≠ len) :
    Delivered p (outbox ++ [(.data, (image.drop sent.toNat).take (chunkLength size sent len))]) w h len fmt image
      (sent + BitVec.ofNat 32 (chunkLength size sent len)) size := by
  obtain ⟨before, msgs, rfl, hflat, hbounds, -, hfull⟩ := hd
  obtain ⟨hpos, -, hle, -, -⟩ := hok
  have hend := add_chunkLength_le size hle
  have hrange : 1 ≤ chunkLength size sent len ∧ chunkLength size sent len ≤ size.toNat := by
    have := toNat_lt_of_ne hle hne
    unfold chunkLength
    omega
  obtain ⟨data, hdata⟩ : ∃ data, data = (image.drop sent.toNat).take (chunkLength size sent len) := ⟨_, rfl⟩
  have hchunk : data.length = chunkLength size sent len := by
    rw [hdata, List.length_take, List.length_drop]
    omega
  rw [← hdata]
  refine ⟨before, msgs ++ [data], by simp, ?_, ?_, ?_, ?_⟩
  · rw [toNat_add_chunkLength size hle, List.take_add, List.flatten_append, hflat, List.flatten_singleton, hdata]
  · simpa [or_imp, forall_and, hchunk, hrange] using hbounds
  · simpa using hfull hne
  · intro hmore
    have hsize := (chunkLength_cases size hle).resolve_right hmore
    simpa [or_imp, forall_and, hchunk, hsize] using hfull hne

theorem TransferOk.of_epoch_le {se se' : Session} {epoch : Nat} (hok : TransferOk p se len sent size epoch)
    (hle : se.epoch ≤ se'.epoch) : TransferOk p se' len sent size epoch := by
  obtain ⟨hpos, hcap, hsent, hdvd, hepoch⟩ := hok
  exact ⟨hpos, hcap, hsent, hdvd, hepoch.trans hle⟩

/-- The chunk size a job starts with is within its bounds (R286). -/
theorem toNat_ofInt_chunkSizeOf (v : Half) (hsize : 1 ≤ chunkSizeOf p v) :
    1 ≤ (BitVec.ofInt 16 (chunkSizeOf p v)).toNat ∧ (BitVec.ofInt 16 (chunkSizeOf p v)).toNat ≤ p.hardCap.toNat := by
  have hcap : chunkSizeOf p v ≤ p.hardCap.toNat := min_le_right ..
  have hlt := p.hardCap.isLt
  rw [BitVec.toNat_ofInt]
  omega

end Delivery

/-! ### The job record (R32 to R39, R299) -/

section Job
variable {i : Instr} {s t : State}

/-- The job record is judged by the job, the image buffer, the parameters, the outbox and a lower bound of the epoch. -/
theorem JobOk.of_frame (hs : JobOk s) (hjob : t.job = s.job) (himg : t.img = s.img) (hparams : t.params = s.params)
    (houtbox : t.outbox = s.outbox) (hepoch : s.session.epoch ≤ t.session.epoch) : JobOk t := by
  unfold JobOk at hs ⊢
  rw [hjob, himg, hparams, houtbox]
  split at hs
  case h_1 | h_2 | h_3 => exact hs
  case h_4 =>
    obtain ⟨fmt, w, h, len, image, sent, size, epoch, hj, himage, hok, hrest⟩ := hs
    exact ⟨fmt, w, h, len, image, sent, size, epoch, hj, himage, hok.of_epoch_le hepoch, hrest⟩
  case h_5 =>
    obtain ⟨fmt, w, h, len, image, size, epoch, hj, himage, hok, hrest⟩ := hs
    exact ⟨fmt, w, h, len, image, size, epoch, hj, himage, hok.of_epoch_le hepoch, hrest⟩
  case h_6 =>
    rcases hs with hs | hs | ⟨fmt, w, h, len, image, sent, size, epoch, hj, himage, hok, hrest⟩
    · exact .inl hs
    · exact .inr (.inl hs)
    · exact .inr (.inr ⟨fmt, w, h, len, image, sent, size, epoch, hj, himage, hok.of_epoch_le hepoch, hrest⟩)

theorem JobOk.raise (hs : JobOk s) (r : FaultRecord) : JobOk (s.raise r) := hs.of_frame rfl rfl rfl rfl le_rfl

theorem JobOk.trigger (hs : JobOk s) : JobOk s.trigger := by
  unfold State.trigger
  split
  case isTrue hstate =>
    unfold JobOk at hs
    rw [hstate] at hs
    obtain ⟨hjob, himg⟩ := hs
    exact ⟨by simp [hjob], himg⟩
  case isFalse => exact hs

theorem State.Captures.jobOk (h : s.Captures t) (hs : JobOk s) (hstate : s.job.state = .capturing) : JobOk t := by
  have hok := hs
  unfold JobOk at hs
  rw [hstate] at hs
  obtain ⟨hjob, -⟩ := hs
  cases h with
  | fails r hsub habort => exact .inl ⟨r, by simp [hjob], hsub, habort⟩
  | refuses op which => exact .inl ⟨.encodeError, by simp [State.refuseJobFrame, hjob], nofun, nofun⟩
  | readsNoValue op el => exact hok.raise _
  | overflows err out => exact .inl ⟨.encodeError, by simp [hjob], nofun, nofun⟩
  | stores e he fmt f out hfit =>
    exact ⟨fmt, f.width.setWidth 16, f.height.setWidth 16, _, out, by simp [State.imageReady, hjob, Job.noJob],
      imageHeld_writeBytes s.img out hfit⟩

theorem State.Announces.jobOk (h : s.Announces t) (hs : JobOk s) (hstate : s.job.state = .announcing) : JobOk t := by
  have hok := hs
  unfold JobOk at hs
  rw [hstate] at hs
  obtain ⟨fmt, w, hh, len, image, hjob, himage⟩ := hs
  cases h with
  | unsubscribed => exact .inr (.inl ⟨.noSubscriber, fmt, w, hh, len, image, by simp [hjob], .inl rfl, himage⟩)
  | readsNoValue => exact hok.raise _
  | unsent | refuses =>
    exact .inr (.inl ⟨.transferAborted, fmt, w, hh, len, image, by simp [hjob], .inr rfl, himage⟩)
  | starts record hrecord hsize =>
    obtain ⟨w', h', len', fmt', hw, hh', hlen, hfmt, rfl⟩ := hrecord
    rw [hjob] at hw hh' hlen hfmt
    cases hw; cases hh'; cases hlen; cases hfmt
    obtain ⟨hpos, hcap⟩ := toNat_ofInt_chunkSizeOf s.session.maxPayload hsize
    exact ⟨fmt, w, hh, len, image, 0#32, _, _, by simp [hjob], himage,
      ⟨hpos, hcap, Nat.zero_le _, .inl (dvd_zero _), le_rfl⟩, delivered_record .., fun h => h ▸ rfl⟩

theorem State.Streams.jobOk (h : s.Streams t) (hs : JobOk s) (hstate : s.job.state = .streaming) : JobOk t := by
  have hok := hs
  unfold JobOk at hs
  rw [hstate] at hs
  obtain ⟨fmt, w, hh, len, image, sent, size, epoch, hjob, himage, htransfer, hdelivered, -⟩ := hs
  have hle : sent.toNat ≤ len.toNat := htransfer.sent_le
  cases h with
  | allSent len' hsent hlen =>
    rw [hjob] at hsent hlen
    cases hsent; cases hlen
    exact ⟨fmt, w, hh, len, image, size, epoch, by simp [hjob], himage, htransfer, hdelivered⟩
  | readsNoField | readsNoByte => exact hok.raise _
  | unsent sent' len' hsent hlen hne =>
    rw [hjob] at hsent hlen
    cases hsent; cases hlen
    exact .inr (.inr ⟨fmt, w, hh, len, image, sent, size, epoch, by simp [hjob], himage, htransfer, hdelivered,
      toNat_lt_of_ne hle hne⟩)
  | sends sent' size' len' data hsent hsize hlen hne hread =>
    rw [hjob] at hsent hsize hlen
    cases hsent; cases hsize; cases hlen
    rw [himage.readBytes (add_chunkLength_le size hle)] at hread
    cases hread
    have htransfer' := htransfer.afterChunk hne
    have hdelivered' := hdelivered.afterChunk htransfer himage.length_eq hne
    by_cases hend : sent + BitVec.ofNat 32 (chunkLength size sent len) = len
    · rw [hend] at htransfer' hdelivered'
      unfold JobOk
      rw [State.advance_job, hjob, if_pos hend, hend]
      exact ⟨fmt, w, hh, len, image, size, epoch, rfl, himage, htransfer', hdelivered'⟩
    · unfold JobOk
      rw [State.advance_job, hjob, if_neg hend]
      exact ⟨fmt, w, hh, len, image, _, size, epoch, rfl, himage, htransfer', hdelivered', fun h => absurd h hend⟩

theorem State.Works.jobOk (h : s.Works t) (hs : JobOk s) : JobOk t := by
  cases h with
  | rests => exact hs
  | captures hstate h => exact h.jobOk hs hstate
  | announces hstate h => exact h.jobOk hs hstate
  | streams hstate h => exact h.jobOk hs hstate
  | releases => exact ⟨rfl, rfl⟩
  | readsNoReason => exact hs.raise _

theorem execPktPeerWrite_jobOk {b : Byte} (h : execPktPeerWrite b s = .next t) (hs : JobOk s) : JobOk t := by
  unfold execPktPeerWrite at h
  split at h <;> cases h
  · exact hs.trigger
  · exact hs

theorem exec_jobOk (h : exec i s = .next t) (hs : JobOk s) : JobOk t := by
  have hframe (hstep : i.op ≠ .pktStep) (hjob : t.job = s.job) : JobOk t :=
    hs.of_frame hjob (exec_img_frame h hstep) (exec_params h) (exec_outbox_frame h hstep)
      (exec_session_change h).epoch_le
  cases i
  case pktTrigger =>
    cases h
    exact hs.trigger
  case pktPeerWrite => exact execPktPeerWrite_jobOk h hs
  case pktStep =>
    cases h
    exact s.workerStep_works.jobOk hs
  all_goals exact hframe nofun (exec_job_frame h nofun nofun nofun)

/-- Every operation keeps the invariant. -/
theorem exec_inv (h : exec i s = .next t) (hs : Inv s) : Inv t where
  encoder := exec_encoderAtRest h hs.encoder
  memory := exec_memory_wf h hs.memory
  session := exec_params h ▸ (exec_session_change h).sessionOk hs.session
  config := exec_config h hs.config
  faults := (exec_raises h).nodup hs.faults
  job := exec_jobOk h hs.job

theorem Inv.raise (hs : Inv s) (r : FaultRecord) : Inv (s.raise r) where
  encoder := hs.encoder
  memory := hs.memory
  session := hs.session
  config := hs.config
  faults := s.raise_faults_nodup r hs.faults
  job := hs.job.raise r

/-- Taking a request leaves every part of the invariant alone. -/
theorem Inv.taken (hs : Inv s) (rest : List Request) (a : Answers) : Inv (s.taken rest a) where
  encoder := hs.encoder
  memory := hs.memory
  session := hs.session
  config := hs.config
  faults := hs.faults
  job := hs.job.of_frame rfl rfl rfl rfl le_rfl

end Job

/-- Settles O54: each part of the invariant is kept by every operation. -/
theorem invStep : Obligations.InvStep := by
  intro s t hs h
  rcases step_cases h with rfl | ⟨rest, a, ⟨r, rfl⟩ | ⟨i, hi⟩⟩
  · exact hs
  · exact (hs.taken rest a).raise r
  · exact exec_inv hi (hs.taken rest a)

/-! ### What the invariant says of a job (R299) -/

section JobInvariants
variable {i : Instr} {s t : State}

/-- The image record is valid exactly in the states of the job that hold an image (R299 (b)). -/
theorem JobOk.imgValid_iff (hs : JobOk s) : s.job.imgValid = true ↔
    s.job.state = .announcing ∨ s.job.state = .streaming ∨ s.job.state = .done ∨
      s.job.state = .failed ∧ (s.job.reason = some .noSubscriber ∨ s.job.reason = some .transferAborted) := by
  unfold JobOk at hs
  split at hs
  case h_1 | h_2 =>
    obtain ⟨hjob, -⟩ := hs
    simp [hjob, Job.noJob]
  case h_3 =>
    obtain ⟨fmt, w, h, len, image, hjob, -⟩ := hs
    simp [hjob]
  case h_4 =>
    obtain ⟨fmt, w, h, len, image, sent, size, epoch, hjob, -⟩ := hs
    simp [hjob]
  case h_5 =>
    obtain ⟨fmt, w, h, len, image, size, epoch, hjob, -⟩ := hs
    simp [hjob]
  case h_6 =>
    rcases hs with ⟨r, hjob, hsub, habort⟩ | ⟨r, fmt, w, h, len, image, hjob, hr, -⟩ |
      ⟨fmt, w, h, len, image, sent, size, epoch, hjob, -⟩
    · simp [hjob, Job.noJob, hsub, habort]
    · simp [hjob, hr]
    · simp [hjob]

/-- A job with a byte count is streaming, done or failed, and has delivered that part of its image. -/
theorem JobOk.of_bytesSent (hs : JobOk s) {sent : Word} (hsent : s.job.bytesSent = some sent) :
    ∃ fmt w h len image size epoch state reason,
      s.job = ⟨state, reason, some sent, some size, some epoch, true, some fmt, some w, some h, some len⟩ ∧
      ImageHeld s.params s.img len image ∧ TransferOk s.params s.session len sent size epoch ∧
      Delivered s.params s.outbox w h len fmt image sent size ∧
      (state = .streaming ∧ (sent = len → len.toNat = 0) ∨ state = .done ∧ sent = len ∨
        state = .failed ∧ reason = some .transferAborted ∧ sent.toNat < len.toNat) := by
  unfold JobOk at hs
  split at hs
  case h_1 | h_2 =>
    obtain ⟨hjob, -⟩ := hs
    simp [hjob, Job.noJob] at hsent
  case h_3 =>
    obtain ⟨fmt, w, h, len, image, hjob, -⟩ := hs
    simp [hjob] at hsent
  case h_4 =>
    obtain ⟨fmt, w, h, len, image, sent', size, epoch, hjob, himage, htransfer, hdelivered, hend⟩ := hs
    rw [hjob] at hsent
    cases hsent
    exact ⟨fmt, w, h, len, image, size, epoch, _, _, hjob, himage, htransfer, hdelivered, .inl ⟨rfl, hend⟩⟩
  case h_5 =>
    obtain ⟨fmt, w, h, len, image, size, epoch, hjob, himage, htransfer, hdelivered⟩ := hs
    rw [hjob] at hsent
    cases hsent
    exact ⟨fmt, w, h, sent, image, size, epoch, _, _, hjob, himage, htransfer, hdelivered, .inr (.inl ⟨rfl, rfl⟩)⟩
  case h_6 =>
    rcases hs with ⟨r, hjob, -⟩ | ⟨r, fmt, w, h, len, image, hjob, -⟩ |
      ⟨fmt, w, h, len, image, sent', size, epoch, hjob, himage, htransfer, hdelivered, hlt⟩
    · simp [hjob, Job.noJob] at hsent
    · simp [hjob] at hsent
    · rw [hjob] at hsent
      cases hsent
      exact ⟨fmt, w, h, len, image, size, epoch, _, _, hjob, himage, htransfer, hdelivered, .inr (.inr ⟨rfl, rfl, hlt⟩)⟩

theorem JobOk.bytesSent_of_streaming_or_done (hs : JobOk s)
    (hstate : s.job.state = .streaming ∨ s.job.state = .done) : ∃ sent, s.job.bytesSent = some sent := by
  unfold JobOk at hs
  rcases hstate with hstate | hstate <;> rw [hstate] at hs
  · obtain ⟨fmt, w, h, len, image, sent, size, epoch, hjob, -⟩ := hs
    exact ⟨sent, by rw [hjob]⟩
  · obtain ⟨fmt, w, h, len, image, size, epoch, hjob, -⟩ := hs
    exact ⟨len, by rw [hjob]⟩

/-- R299 (c). -/
theorem JobOk.streaming (hs : JobOk s) (hstate : s.job.state = .streaming) :
    ∃ sent len, s.job.bytesSent = some sent ∧ s.job.imgLen = some len ∧ (sent.toNat < len.toNat ∨ len.toNat = 0) := by
  obtain ⟨sent, hsent⟩ := hs.bytesSent_of_streaming_or_done (.inl hstate)
  obtain ⟨fmt, w, h, len, image, size, epoch, state, reason, hjob, -, htransfer, -, hcases⟩ := hs.of_bytesSent hsent
  obtain rfl : state = .streaming := by rw [← hstate, hjob]
  have hend : sent = len → len.toNat = 0 := by simpa using hcases
  refine ⟨sent, len, hsent, by rw [hjob], ?_⟩
  by_cases heq : sent = len
  · exact .inr (hend heq)
  · exact .inl (toNat_lt_of_ne htransfer.sent_le heq)

/-- R299 (d), (e). -/
theorem JobOk.delivered (hs : JobOk s) {sent : Word} (hsent : s.job.bytesSent = some sent) :
    ∃ (w h : Half) (len : Word) (fmt : ImageFormat) (before : List (Channel × List Byte)) (msgs : List (List Byte)),
      s.job.imgWidth = some w ∧ s.job.imgHeight = some h ∧ s.job.imgLen = some len ∧ s.job.imgFormat = some fmt ∧
      s.outbox = before ++ (Channel.metadata, metadataRecord s.params w h len fmt) ::
        msgs.map (fun m => (Channel.data, m)) ∧
      s.img.readBytes 0 sent.toNat = some msgs.flatten := by
  obtain ⟨fmt, w, h, len, image, size, epoch, state, reason, hjob, himage, htransfer, hdelivered, -⟩ :=
    hs.of_bytesSent hsent
  obtain ⟨before, msgs, hout, hflat, -⟩ := hdelivered
  refine ⟨w, h, len, fmt, before, msgs, by rw [hjob], by rw [hjob], by rw [hjob], by rw [hjob], hout, ?_⟩
  rw [hflat, himage.readBytes ((Nat.zero_add _).trans_le htransfer.sent_le), List.drop_zero]

/-- R299 (f), a job that is done. -/
theorem JobOk.done (hs : JobOk s) (hstate : s.job.state = .done) :
    ∃ len, s.job.imgLen = some len ∧ s.job.bytesSent = some len := by
  obtain ⟨sent, hsent⟩ := hs.bytesSent_of_streaming_or_done (.inr hstate)
  obtain ⟨fmt, w, h, len, image, size, epoch, state, reason, hjob, -, -, -, hcases⟩ := hs.of_bytesSent hsent
  obtain rfl : state = .done := by rw [← hstate, hjob]
  obtain rfl : sent = len := by simpa using hcases
  exact ⟨sent, by rw [hjob], hsent⟩

/-- R299 (f), a job that failed after it began to send. -/
theorem JobOk.failed (hs : JobOk s) (hstate : s.job.state = .failed) {sent : Word}
    (hsent : s.job.bytesSent = some sent) :
    s.job.reason = some .transferAborted ∧ ∃ len, s.job.imgLen = some len ∧ sent.toNat < len.toNat := by
  obtain ⟨fmt, w, h, len, image, size, epoch, state, reason, hjob, -, -, -, hcases⟩ := hs.of_bytesSent hsent
  obtain rfl : state = .failed := by rw [← hstate, hjob]
  obtain ⟨rfl, hlt⟩ : reason = some .transferAborted ∧ sent.toNat < len.toNat := by simpa using hcases
  exact ⟨by rw [hjob], len, by rw [hjob], hlt⟩

/-- How a step may extend the outbox: the job's record on leaving `Announcing`, one chunk in `Streaming` (R299 (e)). -/
def State.OutboxGrows (s t : State) : Prop :=
  t.outbox = s.outbox ∨
  (s.job.state = .announcing ∧ t.job.state ≠ .announcing ∧
    ∃ record, s.HasRecord record ∧ t.outbox = s.outbox ++ [(Channel.metadata, record)]) ∨
  (s.job.state = .streaming ∧ ∃ data : List Byte, 1 ≤ data.length ∧ t.outbox = s.outbox ++ [(Channel.data, data)])

theorem State.Announces.outbox (h : s.Announces t) (hstate : s.job.state = .announcing) : s.OutboxGrows t := by
  cases h with
  | unsubscribed | readsNoValue | unsent => exact .inl rfl
  | refuses record hrecord | starts record hrecord => exact .inr (.inl ⟨hstate, nofun, record, hrecord, rfl⟩)

/-- A chunk is not empty: the chunk size is not 0, and a job that has sent all ends without a message. -/
theorem State.Streams.outbox (h : s.Streams t) (hs : JobOk s) (hstate : s.job.state = .streaming) :
    s.OutboxGrows t := by
  cases h with
  | allSent | readsNoField | readsNoByte | unsent => exact .inl rfl
  | sends sent size len data hsent hsize hlen hne hread =>
    refine .inr (.inr ⟨hstate, data, ?_, rfl⟩)
    obtain ⟨fmt, w, h, len', image, size', epoch, _, _, hjob, -, ⟨hpos, -, hle, -⟩, -⟩ := hs.of_bytesSent hsent
    rw [hjob] at hsize hlen
    cases hsize; cases hlen
    rw [Memory.length_of_readBytes hread]
    have := toNat_lt_of_ne hle hne
    unfold chunkLength
    omega

theorem State.Works.outbox (h : s.Works t) (hs : JobOk s) : s.OutboxGrows t := by
  cases h with
  | rests | releases | readsNoReason => exact .inl rfl
  | captures _ h => cases h <;> exact .inl rfl
  | announces hstate h => exact h.outbox hstate
  | streams hstate h => exact h.outbox hs hstate

theorem exec_outbox (h : exec i s = .next t) (hs : JobOk s) : s.OutboxGrows t := by
  by_cases hstep : i.op = .pktStep
  · cases i <;> cases hstep
    cases h
    exact s.workerStep_works.outbox hs
  · exact .inl (exec_outbox_frame h hstep)

theorem step_outbox (h : step s = .next t) (hs : Inv s) : s.OutboxGrows t := by
  rcases step_cases h with rfl | ⟨rest, a, ⟨r, rfl⟩ | ⟨i, hi⟩⟩
  · exact .inl rfl
  · exact .inl rfl
  · exact exec_outbox (s := s.taken rest a) hi (hs.taken rest a).job

end JobInvariants

/-- Settles O55: what the invariant says of the next state's job, and how the step extends the outbox. -/
theorem jobInvariants : Obligations.JobInvariants := by
  intro s t hs h
  have ht : JobOk t := (invStep s t hs h).job
  refine ⟨ht.imgValid_iff, ht.streaming, fun _ => ht.delivered, ht.done, fun hstate _ => ht.failed hstate, ?_⟩
  rcases step_outbox h hs with hout | ⟨hstate, hleft, record, ⟨w, h, len, fmt, hw, hh, hlen, hfmt, rfl⟩, hout⟩ | hdata
  · exact .inl hout
  · exact .inr (.inl ⟨hstate, hleft, w, h, len, fmt, hw, hh, hlen, hfmt, hout⟩)
  · exact .inr (.inr hdata)

end Sys2Proof.Machine
end

section
/-! PROOFS. The family of 20_memory.md: acceptance of a frame, condition by condition (R61, R202, R203), and what an encoder
run reads of the payload (R61, R204). The run is brought to the closed form of its container (R218, R250), and the closed
form reads the payload through `convertRow` only. -/

namespace Sys2Proof.Machine

/-! ### Acceptance (R202, R203) -/

section Acceptance
variable {v : Variant} {p : Params} {f : Frame}

/-- `acceptFrame_spec` with its converse: a frame is accepted exactly when no condition fails. -/
theorem acceptFrame_eq_ok_iff {ops : EncOperands} : acceptFrame v p f = .ok ops ↔
    ∃ fmt, PixelFormat.ofCode? f.pixelFormat = some fmt ∧ ops = ⟨v, fmt, f.width, f.height, f.rowStride⟩ ∧
      dimensionsOk p f = true ∧ strideOk fmt f = true ∧ payloadOk fmt f = true ∧ lengthOk v p f = true := by
  refine ⟨acceptFrame_spec, ?_⟩
  rintro ⟨fmt, hfmt, rfl, hdim, hstride, hpayload, hlength⟩
  have hnone : frameFailures v p f = [] := by simp [frameFailures, hfmt, hdim, hstride, hpayload, hlength]
  simp only [acceptFrame, hfmt, hnone]

theorem frameFailures_ne_nil_of_unknown (h : PixelFormat.ofCode? f.pixelFormat = none) : frameFailures v p f ≠ [] := by
  simp [frameFailures, h]

theorem acceptFrame_error_ne_nil {which : List FrameCondition} (h : acceptFrame v p f = .error which) : which ≠ [] := by
  unfold acceptFrame at h
  split at h
  case h_1 => cases h
  case h_2 hnot =>
    cases h
    cases hfmt : PixelFormat.ofCode? f.pixelFormat with
    | none => exact frameFailures_ne_nil_of_unknown hfmt
    | some fmt => exact hnot fmt hfmt

theorem dimensionsOk_iff : dimensionsOk p f = true ↔
    1 ≤ f.width.toNat ∧ f.width.toNat ≤ p.maxWidth.toNat ∧ 1 ≤ f.height.toNat ∧ f.height.toNat ≤ p.maxHeight.toNat := by
  simp [dimensionsOk, and_assoc]

theorem strideOk_iff {fmt : PixelFormat} : strideOk fmt f = true ↔ fmt.need f.width.toNat ≤ f.rowStride.toNat :=
  decide_eq_true_iff

/-- R61 in integers agrees with natural numbers for a frame of at least one row. -/
theorem payloadOk_iff {fmt : PixelFormat} (h : 1 ≤ f.height.toNat) : payloadOk fmt f = true ↔
    (f.height.toNat - 1) * f.rowStride.toNat + fmt.need f.width.toNat ≤ f.payload.length := by
  rw [payloadOk, decide_eq_true_iff]
  zify [h]

theorem lengthOk_iff : lengthOk v p f = true ↔
    (v = .png → 2 + f.height.toNat * (f.width.toNat * 3 + 1) +
      5 * ((f.height.toNat * (f.width.toNat * 3 + 1) + 65534) / 65535) + 4 ≤ p.lenMax.toNat) ∧
    (v = .flat → 54 + (f.width.toNat * 3 + 3) / 4 * 4 * f.height.toNat ≤ 4294967295) := by
  cases v with
  | png => exact decide_eq_true_iff.trans (by simp [wrappedLen_eq])
  | flat => exact decide_eq_true_iff.trans (by simp [flatDataSize, flatRowSize])

/-- The two known formats with the bytes a row of each needs (R172, R187, R202 (a)). -/
theorem PixelFormat.ofCode?_need_iff {code width need : Nat} {fmt : PixelFormat} :
    PixelFormat.ofCode? code = some fmt ∧ need = fmt.need width ↔
      (code = 0 ∧ fmt = .rgb565be ∧ need = 2 * width ∨ code = 1 ∧ fmt = .yuyv422 ∧ need = 4 * ((width + 1) / 2)) := by
  unfold PixelFormat.ofCode?
  split <;> cases fmt <;> simp_all [PixelFormat.need, ceilDiv]

end Acceptance

/-- Settles O21: each condition of `acceptFrame_eq_ok_iff` with its literals. -/
theorem frameAcceptance : Obligations.FrameAcceptance := by
  refine fun v p f => ⟨fun ops => acceptFrame_eq_ok_iff.trans ⟨?_, ?_⟩, fun which => acceptFrame_error_ne_nil⟩
  · rintro ⟨fmt, hfmt, hops, hdim, hstride, hpayload, hlength⟩
    obtain ⟨hw, hwmax, hh, hhmax⟩ := dimensionsOk_iff.mp hdim
    obtain ⟨hpng, hflat⟩ := lengthOk_iff.mp hlength
    exact ⟨fmt, fmt.need f.width.toNat, PixelFormat.ofCode?_need_iff.mp ⟨hfmt, rfl⟩, hw, hwmax, hh, hhmax,
      strideOk_iff.mp hstride, (payloadOk_iff hh).mp hpayload, hpng, hflat, hops⟩
  · rintro ⟨fmt, need, hknown, hw, hwmax, hh, hhmax, hstride, hpayload, hpng, hflat, hops⟩
    obtain ⟨hfmt, rfl⟩ := PixelFormat.ofCode?_need_iff.mpr hknown
    exact ⟨fmt, hfmt, hops, dimensionsOk_iff.mpr ⟨hw, hwmax, hh, hhmax⟩, strideOk_iff.mpr hstride,
      (payloadOk_iff hh).mpr hpayload, lengthOk_iff.mpr ⟨hpng, hflat⟩⟩

/-! ### A stand-alone run ends in the closed form (R218, R231, R250) -/

section ClosedForm
variable {v : Variant} {p : Params} {f : Frame} {ops : EncOperands} {s : State}

/-- The pixel data of an accepted frame is `data_len` bytes (R209). -/
theorem pngPixels_length (h : acceptFrame v p f = .ok ops) :
    (pngPixels p ops f.payload).length = dataLen ops.width.toNat ops.height.toNat := by
  obtain ⟨fmt, -, rfl, -⟩ := acceptFrame_spec h
  have hrow : ∀ r ∈ List.range f.height.toNat,
      (pngRow p (convertRow ⟨v, fmt, f.width, f.height, f.rowStride⟩ f.payload r)).length = f.width.toNat * 3 + 1 := by
    intro r hr
    rw [pngRow_length, convertRow_length h r (List.mem_range.mp hr)]
    omega
  rw [pngPixels, List.length_flatMap, List.map_congr_left hrow]
  simp [dataLen]

theorem dataLen_pos (h : acceptFrame v p f = .ok ops) : 1 ≤ dataLen ops.width.toNat ops.height.toNat := by
  obtain ⟨fmt, -, rfl, hdim, -⟩ := acceptFrame_spec h
  obtain ⟨-, -, hheight, -⟩ := dimensionsOk_iff.mp hdim
  exact Nat.mul_pos hheight (Nat.succ_pos _)

/-- Every stored block adds a header of five bytes (R105). -/
theorem storedBlocks_length (n : Nat) (P : List Byte) : (storedBlocks (n + 1) P).length = P.length + 5 * (n + 1) := by
  induction n generalizing P with
  | zero => simp [storedBlocks, blockHeader, le16n, le16]
  | succ n ih => simp [storedBlocks, blockHeader, le16n, le16, ih]; omega

/-- The payload of the data chunk is `wrapped_len` bytes (R209). -/
theorem pngStream_length (h : acceptFrame v p f = .ok ops) :
    (pngStream p ops f.payload).length = wrappedLen ops.width.toNat ops.height.toNat := by
  obtain ⟨-, -, hblocks⟩ := ceilDiv_blockCap _ (dataLen_pos h)
  obtain ⟨n, hn⟩ := Nat.exists_eq_succ_of_ne_zero hblocks
  simp only [pngStream, wrappedLen, blockCount, hn, List.length_append, storedBlocks_length, pngPixels_length h]
  simp [be32]
  omega

theorem yields_metaPhase (p : Params) (ops : EncOperands) (e : Encoder) : ∃ e',
    Yields (fun sink e out => metaPhase sink p ops e out) e e'
      (chunk p.tagMeta.toList (metaPayload p ops.width ops.height)) :=
  ⟨_, (yields_chunk 13 p.tagMeta.toList (metaPayload p ops.width ops.height) (by simp [metaPayload, be32])
    { e with phase := .metadata }).after _ fun _ _ => rfl⟩

theorem yields_dataHeadPhase (p : Params) (ops : EncOperands) (e : Encoder) : ∃ e',
    Yields (fun sink e out => dataHeadPhase sink p ops e out) e e'
      (be32n (wrappedLen ops.width.toNat ops.height.toNat) ++ p.tagData.toList) ∧
    e'.crc = some (crcFeed crcStart p.tagData.toList) :=
  ⟨_, (yields_openChunk _ _ { e with phase := .dataHead }).after _ fun _ _ => rfl, rfl⟩

theorem yields_zhdrPhase (p : Params) {e : Encoder} {c : Word} (hc : e.crc = some c) : ∃ e',
    Yields (fun sink e out => zhdrPhase sink p e out) e e' (p.zhdr.toList ++ []) ∧
    e'.crc = some (crcFeed c p.zhdr.toList) ∧ e'.adler = some adlerStart :=
  ⟨_, ((yields_emitC p.zhdr.toList { e with phase := .zhdr } c hc).andThen
    (l := fun _ e out => .going { e with adler := some adlerStart } out) (Yields.to fun _ _ => rfl)).after _ fun _ _ => rfl,
    rfl, rfl⟩

/-- The rows of an accepted frame, from the counters' start: the block headers written on demand make the stored blocks of
the closed form (R211 to R216). -/
theorem yields_rows (h : acceptFrame v p f = .ok ops) {e : Encoder} {c : Word} {x : Adler}
    (hc : e.crc = some c) (hx : e.adler = some x) :
    let stored := storedBlocks (blockCount ops.width.toNat ops.height.toNat) (pngPixels p ops f.payload)
    ∃ e', Yields (fun sink e out =>
        emitRows (emitPngRow sink p ops f.payload) (List.range ops.height.toNat) (e.startRows ops) out) e e' stored ∧
      e'.crc = some (crcFeed c stored) ∧ e'.adler = some (adlerFeed x (pngPixels p ops f.payload)) := by
  have hlen := pngPixels_length h
  have hstored : framed 0 (dataLen ops.width.toNat ops.height.toNat) (pngPixels p ops f.payload) =
      storedBlocks (blockCount ops.width.toNat ops.height.toNat) (pngPixels p ops f.payload) := by
    rw [← hlen]
    exact framed_storedBlocks _ _ (hlen ▸ dataLen_pos h) (by rw [hlen, blockCount])
  obtain ⟨e', hrows, hcrc, hadler⟩ := yields_pngRows p ops f.payload (List.range ops.height.toNat) (e.startRows ops) c x 0
    (dataLen ops.width.toNat ops.height.toNat) hc hx rfl rfl (Nat.zero_le _) hlen.le
  exact ⟨e', hstored ▸ hrows.after _ fun _ _ => rfl, hstored ▸ hcrc, hadler⟩

theorem yields_trailerPhase {e : Encoder} {c : Word} {x : Adler} (hc : e.crc = some c) (hx : e.adler = some x) : ∃ e',
    Yields (fun sink e out => trailerPhase sink e out) e e' (be32 x.pack) ∧ e'.crc = some (crcFeed c (be32 x.pack)) :=
  ⟨_, (yields_emitC (be32 x.pack) { e with phase := .trailer } c hc).after _ fun _ _ => by simp only [trailerPhase, hx], rfl⟩

theorem yields_dataCrcPhase {e : Encoder} {c : Word} (hc : e.crc = some c) : ∃ e',
    Yields (fun sink e out => emitCrc sink { e with phase := .dataCrc } out) e e' (be32 (~~~ c)) :=
  ⟨_, (yields_emitCrc { e with phase := .dataCrc } c hc).after _ fun _ _ => rfl⟩

theorem yields_endPhase (p : Params) (e : Encoder) : ∃ e',
    Yields (fun sink e out => endPhase sink p e out) e e' (chunk p.tagEnd.toList []) :=
  ⟨_, (yields_chunk 0 p.tagEnd.toList [] rfl { e.dropCounters with phase := .endChunk }).after _ fun _ _ => rfl⟩

/-- The data chunk cut where its phases begin, with the chunk's CRC fed phase by phase (R205, R209 to R215). -/
theorem dataChunk_phases (h : acceptFrame v p f = .ok ops) :
    let stored := storedBlocks (blockCount ops.width.toNat ops.height.toNat) (pngPixels p ops f.payload)
    let trailer := be32 (adlerFeed adlerStart (pngPixels p ops f.payload)).pack
    chunk p.tagData.toList (pngStream p ops f.payload) =
      be32n (wrappedLen ops.width.toNat ops.height.toNat) ++ p.tagData.toList ++ (p.zhdr.toList ++ (stored ++ (trailer ++
        be32 (~~~ crcFeed (crcFeed (crcFeed (crcFeed crcStart p.tagData.toList) p.zhdr.toList) stored) trailer)))) := by
  have hadler : adler32 1#32 (pngPixels p ops f.payload) = (adlerFeed adlerStart (pngPixels p ops f.payload)).pack := rfl
  rw [chunk, pngStream_length h]
  simp only [pngStream, hadler, crc32, crcFeed_append, List.append_assoc]

/-- A run over an accepted frame stands with every sink as a writer of the closed form does (R205, R218). -/
theorem pngRun_eq_upTo (h : acceptFrame v p f = .ok ops) :
    ∃ e', ∀ sink, pngRun sink p ops f.payload = Run.upTo sink e' (pngContainer p ops f.payload) := by
  have hsig := yields_emit p.signature.toList (Encoder.latched ops .sig)
  obtain ⟨e1, hmeta⟩ := yields_metaPhase p ops (Encoder.latched ops .sig)
  obtain ⟨e2, hhead, hcrc2⟩ := yields_dataHeadPhase p ops e1
  obtain ⟨e3, hzhdr, hcrc3, hadler3⟩ := yields_zhdrPhase p hcrc2
  obtain ⟨e4, hrows, hcrc4, hadler4⟩ := yields_rows h hcrc3 hadler3
  obtain ⟨e5, htrailer, hcrc5⟩ := yields_trailerPhase hcrc4 hadler4
  obtain ⟨e6, hcrc⟩ := yields_dataCrcPhase hcrc5
  obtain ⟨e7, hend⟩ := yields_endPhase p e6
  have hrun := hsig.andThen (hmeta.andThen (hhead.andThen (hzhdr.andThen (hrows.andThen (htrailer.andThen
    (hcrc.andThen hend))))))
  refine ⟨e7, fun sink => (hrun sink [] fun _ _ => Nat.zero_le _).trans (congrArg (Run.upTo sink e7) ?_)⟩
  rw [List.nil_append, List.append_nil, pngContainer, dataChunk_phases h]
  simp only [List.append_assoc]

/-- The flat run stands with every sink as a writer of the closed form does (R241, R250). -/
theorem flatRun_eq_upTo (p : Params) (ops : EncOperands) (payload : List Byte) :
    ∃ e', ∀ sink, flatRun sink p ops payload = Run.upTo sink e' (flatFile p ops payload) := by
  have hhead := yields_emit (flatHeader p ops.width ops.height) (Encoder.latched ops .flatHead)
  obtain ⟨e', hrows⟩ := yields_flatRows ops payload (List.range ops.height.toNat).reverse
    { Encoder.latched ops .flatHead with phase := .flatRows }
  have hrun := hhead.andThen (hrows.after (fun sink e out => emitRows (emitFlatRow sink ops payload)
    (List.range ops.height.toNat).reverse { e with phase := .flatRows } out) fun _ _ => rfl)
  exact ⟨e', fun sink => hrun sink [] (fun _ _ => Nat.zero_le _)⟩

/-- The end of a run that stands as a writer of `bytes` does: the encoder in progress leaves no trace. -/
theorem State.endRun_upTo (op : Op) (e : Encoder) (bytes : List Byte) :
    s.endRun op (Run.upTo s.answers.sink e bytes) = s.afterRun bytes := by
  unfold Run.upTo State.afterRun sinkOutcome
  cases s.answers.sink with
  | none => rfl
  | some x => dsimp only; split <;> rfl

theorem exec_encPng_accepted (h : acceptFrame .png s.params f = .ok ops) :
    exec (.encPng f) s = .next (s.afterRun (pngContainer s.params ops f.payload)) := by
  obtain ⟨e', hrun⟩ := pngRun_eq_upTo h
  rw [← s.endRun_upTo .encPng e', ← hrun]
  simp only [exec, execEncPng, h]

theorem exec_encFlat_accepted (hflat : s.params.hasFlatVariant = true) (h : acceptFrame .flat s.params f = .ok ops) :
    exec (.encFlat f) s = .next (s.afterRun (flatFile s.params ops f.payload)) := by
  obtain ⟨e', hrun⟩ := flatRun_eq_upTo s.params ops f.payload
  rw [← s.endRun_upTo .encFlat e', ← hrun]
  simp only [exec, execEncFlat, hflat, h, if_true]

/-- Without the flat variant the operation does not look at its frame (R95, R332). -/
theorem exec_encFlat_illegal (hflat : s.params.hasFlatVariant = false) (f : Frame) : exec (.encFlat f) s =
    .next (State.raise (.illegalOpcode Op.encFlat.opcode) { s with results := { s.results with status := none } }) := by
  simp only [exec, execEncFlat, hflat, Bool.false_eq_true, if_false]

end ClosedForm

/-! ### The bytes a run reads (R61, R204) -/

/-- Two slices of `n` bytes are equal when their bytes are. -/
theorem take_drop_eq_of_getElem? {xs ys : List Byte} {i j n : Nat} (h : ∀ k, k < n → xs[i + k]? = ys[j + k]?) :
    (xs.drop i).take n = (ys.drop j).take n := by
  refine List.ext_getElem? fun k => ?_
  by_cases hk : k < n
  · simp only [List.getElem?_take_of_lt hk, List.getElem?_drop, h k hk]
  · simp [hk]

/-- Two payloads, each under the operands of its run, have the same size and convert to the same rows of pixels. -/
structure SameImage (ops ops' : EncOperands) (payload payload' : List Byte) : Prop where
  width : ops.width = ops'.width
  height : ops.height = ops'.height
  rows : ∀ r < ops.height.toNat, convertRow ops payload r = convertRow ops' payload' r

/-- A row is converted from the bytes it needs and no others (R61, R204). -/
theorem convertRow_eq_of_bytes {ops ops' : EncOperands} {payload payload' : List Byte} {r : Nat}
    (hformat : ops.format = ops'.format) (hwidth : ops.width = ops'.width)
    (hbytes : ∀ k, k < ops.format.need ops.width.toNat →
      payload[r * ops.stride.toNat + k]? = payload'[r * ops'.stride.toNat + k]?) :
    convertRow ops payload r = convertRow ops' payload' r := by
  unfold convertRow
  rw [take_drop_eq_of_getElem? hbytes, hformat, hwidth]

namespace SameImage
variable {ops ops' : EncOperands} {payload payload' : List Byte} (h : SameImage ops ops' payload payload') (p : Params)
include h

theorem pngContainer_eq : pngContainer p ops payload = pngContainer p ops' payload' := by
  have hpixels : pngPixels p ops payload = pngPixels p ops' payload' := by
    unfold pngPixels
    rw [← h.height]
    exact List.flatMap_congr fun r hr => by rw [h.rows r (List.mem_range.mp hr)]
  simp only [pngContainer, pngStream, hpixels, h.width, h.height]

theorem flatFile_eq : flatFile p ops payload = flatFile p ops' payload' := by
  unfold flatFile
  rw [← h.height, ← h.width]
  congr 1
  exact List.flatMap_congr fun r hr => by rw [h.rows r (List.mem_range.mp (List.mem_reverse.mp hr))]

end SameImage

/-- Accepted frames of one format and size that agree on the bytes each row needs show the same image, whatever their strides
and the bytes between the rows (R61, R203). -/
theorem sameImage_of_accepted {v : Variant} {p : Params} {f g : Frame} {fmt : PixelFormat} {ops ops' : EncOperands}
    (hfmt : PixelFormat.ofCode? f.pixelFormat = some fmt) (hformat : f.pixelFormat = g.pixelFormat)
    (hwidth : f.width = g.width) (hheight : f.height = g.height)
    (hbytes : ∀ r k, r < f.height.toNat → k < fmt.need f.width.toNat →
      f.payload[r * f.rowStride.toNat + k]? = g.payload[r * g.rowStride.toNat + k]?)
    (hf : acceptFrame v p f = .ok ops) (hg : acceptFrame v p g = .ok ops') : SameImage ops ops' f.payload g.payload := by
  obtain ⟨fmtf, hfmtf, rfl, -⟩ := acceptFrame_spec hf
  obtain ⟨fmtg, hfmtg, rfl, -⟩ := acceptFrame_spec hg
  obtain rfl : fmt = fmtf := Option.some.inj (hfmt.symm.trans hfmtf)
  obtain rfl : fmt = fmtg := Option.some.inj (hfmt.symm.trans (hformat ▸ hfmtg))
  exact ⟨hwidth, hheight, fun r hr => convertRow_eq_of_bytes rfl hwidth fun k => hbytes r k hr⟩

/-- Settles O29: the two frames show one image, and each run ends in the closed form of its container. -/
theorem paddingUnread : Obligations.PaddingUnread := by
  intro s f g fmt hfmt hformat hwidth hheight hbytes
  constructor
  · rintro ⟨ops, hf⟩ ⟨ops', hg⟩
    have himage := sameImage_of_accepted hfmt hformat hwidth hheight hbytes hf hg
    rw [exec_encPng_accepted hf, exec_encPng_accepted hg, himage.pngContainer_eq]
  · rintro ⟨ops, hf⟩ ⟨ops', hg⟩
    have himage := sameImage_of_accepted hfmt hformat hwidth hheight hbytes hf hg
    cases hflat : s.params.hasFlatVariant with
    | false => rw [exec_encFlat_illegal hflat, exec_encFlat_illegal hflat]
    | true => rw [exec_encFlat_accepted hflat hf, exec_encFlat_accepted hflat hg, himage.flatFile_eq]

end Sys2Proof.Machine
end

section
/-! PROOFS. The family of 30_encoding.md: the opcode map read both ways (R90 to R95), what a step does with the command it
takes (R93, R385), the container written by an encoder and read back by the reader of R109 (R105, R220), the CRC stream
(R97, R135), refused frames (R95, R335), the peer's write (R113, R263) and the announcement of a job (R112, R283 to R286). -/

namespace Sys2Proof

/-! ### The opcode map (R90 to R95) -/

theorem Op.ofOpcode_opcode (op : Op) : Op.ofOpcode op.opcode = some op := by cases op <;> rfl

theorem Op.opcode_of_mem_opcodeMap {b : Byte} {op : Op} (h : (b, op) ∈ opcodeMap) : b = op.opcode := by
  have hrows : ∀ row ∈ opcodeMap, row.1 = row.2.opcode := by decide
  exact hrows (b, op) h

/-- The map and the table of `Op.opcode` are each other's inverse. -/
theorem Op.ofOpcode_eq_some_iff {b : Byte} {op : Op} : Op.ofOpcode b = some op ↔ b = op.opcode := by
  refine ⟨fun h => ?_, fun h => h ▸ op.ofOpcode_opcode⟩
  obtain ⟨front, back, hmap, -⟩ := List.lookup_eq_some_iff.mp h
  exact Op.opcode_of_mem_opcodeMap (by simp [hmap])

/-- An opcode has no operation exactly when it lies in one of the gaps of the map. -/
theorem Op.ofOpcode_eq_none_iff {b : Byte} : Op.ofOpcode b = none ↔
    (b.toNat ≤ 0x0F ∨ 0x13 ≤ b.toNat ∧ b.toNat ≤ 0x1F ∨ 0x24 ≤ b.toNat ∧ b.toNat ≤ 0x2F ∨
      0x32 ≤ b.toNat ∧ b.toNat ≤ 0x3F ∨ 0x42 ≤ b.toNat ∧ b.toNat ≤ 0x4F ∨ 0x59 ≤ b.toNat) := by
  have hrows : Op.ofOpcode b = none ↔ ∀ row ∈ opcodeMap, b.toNat ≠ row.1.toNat := by
    simp [Op.ofOpcode, List.lookup_eq_none_iff, BitVec.toNat_inj]
  rw [hrows]
  simp only [opcodeMap, List.forall_mem_cons, List.not_mem_nil, false_implies, implies_true, and_true,
    BitVec.toNat_ofNat]
  omega

@[simp] theorem Op.op_instr (p : Ports) (op : Op) : (op.instr p).op = op := by cases op <;> rfl

/-- The ports an operation is presented on give back its operands (R91). -/
theorem Op.instr_ports (i : Instr) : Op.instr i.ports i.op = i := by cases i <;> rfl

/-- The decoder reads the opcode of an operation and takes its operands from the ports. -/
theorem decode_opcode (op : Op) (p : Ports) : decode ⟨op.opcode, p⟩ = .ok (op.instr p) := by
  simp only [decode, op.ofOpcode_opcode]

theorem decode_eq_ok_iff {c : Command} {i : Instr} :
    decode c = .ok i ↔ c.opcode = i.op.opcode ∧ Op.instr c.ports i.op = i := by
  constructor
  · intro h
    unfold decode at h
    split at h
    case h_1 op hop =>
      cases h
      rw [Op.op_instr]
      exact ⟨Op.ofOpcode_eq_some_iff.mp hop, rfl⟩
    case h_2 => cases h
  · rintro ⟨hopcode, hoperands⟩
    rw [← hoperands, ← decode_opcode, ← hopcode]

theorem decode_eq_error_iff {c : Command} :
    decode c = .error (.illegalOpcode c.opcode) ↔ Op.ofOpcode c.opcode = none := by
  unfold decode
  cases Op.ofOpcode c.opcode <;> simp

theorem decode_encode (i : Instr) : decode (encode i) = .ok i := decode_eq_ok_iff.mpr ⟨rfl, Op.instr_ports i⟩

end Sys2Proof

namespace Sys2Proof.Machine

/-- Settles O1: the decoder's equation on the encoding of an operation; a decoder with an inverse is injective. -/
theorem decodeEncodeAgree : Obligations.DecodeEncodeAgree := by
  refine ⟨decode_encode, fun c i => decode_eq_ok_iff.mp, fun i j h => ?_⟩
  have hdecode : Except.ok i = (Except.ok j : Except DecodeError Instr) := by rw [← decode_encode, h, decode_encode]
  exact Except.ok.inj hdecode

/-- Settles O2: a command is rejected exactly when the map has no row for its opcode. -/
theorem illegalOpcodes : Obligations.IllegalOpcodes :=
  fun _ => decode_eq_error_iff.trans Op.ofOpcode_eq_none_iff

/-- Settles O3: each word is the opcode of its operation. -/
theorem decodeWords : Obligations.DecodeWords :=
  ⟨decode_opcode .crcUpdate _, decode_opcode .adlerLoad _, decode_opcode .convRgb565 _, decode_opcode .encPng _,
    decode_opcode .pktSubscribe _, decode_opcode .pktSetMaxPayload _, decode_opcode .pktStep _⟩

/-! ### What a step does with the command it takes (R93, R95, R385) -/

section Step
variable {s : State} {r : Request} {rest : List Request}

theorem State.takeRequest_of_inputs (hinputs : s.inputs = r :: rest) :
    s.takeRequest = some (r.command, s.taken rest r.answers) :=
  (s.takeRequest_eq ..).mpr ⟨r, rest, hinputs, rfl, rfl⟩

theorem step_of_decode_ok {i : Instr} (hinputs : s.inputs = r :: rest) (hdecode : decode r.command = .ok i) :
    step s = exec i (s.taken rest r.answers) := by
  simp only [step, State.takeRequest_of_inputs hinputs, hdecode]

theorem step_of_decode_error {e : DecodeError} (hinputs : s.inputs = r :: rest) (hdecode : decode r.command = .error e) :
    step s = .next ((s.taken rest r.answers).reject e) := by
  simp only [step, State.takeRequest_of_inputs hinputs, hdecode]

end Step

/-- Settles O4: the request taken leaves `State.taken`. -/
theorem stepRunsDecoded : Obligations.StepRunsDecoded :=
  fun _ _ _ _ hinputs hdecode => step_of_decode_ok hinputs hdecode

/-- Settles O5: a rejected command raises its record in `State.taken`. -/
theorem stepIllegalOpcode : Obligations.StepIllegalOpcode :=
  fun _ _ _ hinputs hdecode => step_of_decode_error hinputs hdecode

/-! ### Byte order, written and read (R13) -/

theorem byteAt_append_byteAt (v : Half) : (byteAt v 1 ++ byteAt v 0 : BitVec 16) = v := by
  unfold byteAt
  rw [BitVec.extractLsb'_append_extractLsb'_eq_extractLsb' (by rfl)]
  exact BitVec.extractLsb'_eq_self

theorem readBe32_be32 (v : Word) (rest : List Byte) : readBe32 (be32 v ++ rest) = some (v, rest) := by
  have hv : (byteAt v 3 ++ byteAt v 2 ++ byteAt v 1 ++ byteAt v 0 : BitVec 32) = v := by
    unfold byteAt
    rw [BitVec.extractLsb'_append_extractLsb'_eq_extractLsb' (by rfl),
      BitVec.extractLsb'_append_extractLsb'_eq_extractLsb' (by rfl),
      BitVec.extractLsb'_append_extractLsb'_eq_extractLsb' (by rfl)]
    exact BitVec.extractLsb'_eq_self
  simp only [be32, List.cons_append, List.nil_append, readBe32, hv]

/-! ### The stored blocks of a stream (R105, R216) -/

/-- The fields of a block header: the flag, the length, its complement (R105). -/
theorem blockHeader_eq (final : Bool) (n : Nat) : blockHeader final n =
    (if final then 0x01#8 else 0x00#8) :: (le16 (BitVec.ofNat 16 n) ++ le16 (~~~ (BitVec.ofNat 16 n))) := by
  have hxor : BitVec.ofNat 16 n ^^^ 0xFFFF#16 = ~~~ (BitVec.ofNat 16 n) := BitVec.xor_allOnes
  rw [blockHeader, hxor, le16n]

/-- Cutting a stream of `n + 1` blocks: `n` full pieces and a last one that is not empty. -/
theorem storedBlocks_pieces (n : Nat) (P : List Byte) (hpos : 1 ≤ P.length) (hn : ceilDiv P.length blockCap = n + 1) :
    ∃ (front : List (List Byte)) (last : List Byte), P = front.flatten ++ last ∧ front.length = n ∧
      (∀ b ∈ front, b.length = blockCap) ∧ 1 ≤ last.length ∧ last.length ≤ blockCap ∧
      storedBlocks (n + 1) P =
        front.flatMap (fun b => blockHeader false blockCap ++ b) ++ (blockHeader true last.length ++ last) := by
  induction n generalizing P with
  | zero =>
    obtain ⟨hone, -⟩ := ceilDiv_blockCap P.length hpos
    exact ⟨[], P, rfl, rfl, nofun, hpos, hone hn, rfl⟩
  | succ n ih =>
    obtain ⟨-, hmore, -⟩ := ceilDiv_blockCap P.length hpos
    obtain ⟨hlong, hnext⟩ := hmore n hn
    have hdrop : (P.drop blockCap).length = P.length - blockCap := List.length_drop
    obtain ⟨front, last, hP, hfront, hfull, hlast, hcap, hstored⟩ :=
      ih (P.drop blockCap) (by omega) (hdrop ▸ hnext)
    refine ⟨P.take blockCap :: front, last, ?_, by simp [hfront], ?_, hlast, hcap, ?_⟩
    · rw [List.flatten_cons, List.append_assoc, ← hP, List.take_append_drop]
    · exact List.forall_mem_cons.mpr ⟨List.length_take_of_le hlong.le, hfull⟩
    · rw [storedBlocks, hstored]
      simp only [List.flatMap_cons, List.append_assoc]

theorem ceilDiv_blockCap_eq (n : Nat) : ceilDiv n blockCap = (n + 65534) / 65535 := by simp [ceilDiv, blockCap]

end Sys2Proof.Machine

namespace Sys2Proof

/-- Settles O26: the pieces of the stream, with the headers' bytes written out. In `Machine` the name is the closed form's. -/
theorem storedBlocks : Obligations.StoredBlocks := by
  intro P hpos
  obtain ⟨-, -, hne⟩ := Machine.ceilDiv_blockCap P.length hpos
  obtain ⟨n, hn⟩ := Nat.exists_eq_succ_of_ne_zero hne
  obtain ⟨front, last, hP, hfront, hfull, hlast, hcap, hstored⟩ := Machine.storedBlocks_pieces n P hpos hn
  rw [← Machine.ceilDiv_blockCap_eq, hn]
  refine ⟨front, last, hP, by rw [hfront], hfull, hlast, hcap, ?_⟩
  have hheader : Machine.blockHeader false Machine.blockCap = [0x00#8, 0xFF#8, 0xFF#8, 0x00#8, 0x00#8] := by decide
  rw [Nat.succ_eq_add_one, hstored, hheader, Machine.blockHeader_eq]
  simp only [if_true, List.cons_append, List.nil_append, List.append_assoc]

end Sys2Proof

namespace Sys2Proof.Machine

/-! ### Reading a written container back (R109, R220) -/

section Reader
variable {p : Params} {f : Frame} {ops : EncOperands}

/-- A chunk whose data fits the length field is read back with its CRC verified (R100). -/
theorem readChunk_chunk {tag d : List Byte} (htag : tag.length = 4) (hd : d.length < 2 ^ 32) (rest : List Byte) :
    readChunk (chunk tag d ++ rest) = some (tag, d, rest) := by
  have hlen : (BitVec.ofNat 32 d.length).toNat = d.length := BitVec.toNat_ofNat .. ▸ Nat.mod_eq_of_lt hd
  have hcrc : (be32 (crc32 (tag ++ d))).length = 4 := rfl
  simp only [readChunk, chunk, be32n, List.append_assoc, readBe32_be32, hlen, ← htag, ← List.drop_drop, List.take_left,
    List.drop_left]
  simp [htag, hcrc]

/-- The length of a block fits the header's 16 bits (R105). -/
theorem toNat_blockLength {n : Nat} (hn : n ≤ blockCap) : (BitVec.ofNat 16 n).toNat = n :=
  BitVec.toNat_ofNat .. ▸ Nat.mod_eq_of_lt (Nat.lt_succ_of_le hn)

/-- The final block ends the reading (R105). -/
theorem readBlocks_final {d : List Byte} (hd : d.length ≤ blockCap) (fuel : Nat) (rest : List Byte) :
    readBlocks (fuel + 1) (blockHeader true d.length ++ (d ++ rest)) = some (d, rest) := by
  rw [blockHeader_eq]
  simp [le16, readBlocks, byteAt_append_byteAt, toNat_blockLength hd]

/-- A block without the final flag goes before what the blocks after it hold (R105). -/
theorem readBlocks_middle {d : List Byte} (hd : d.length ≤ blockCap) {fuel : Nat} {bs P rest : List Byte}
    (hbs : readBlocks fuel bs = some (P, rest)) :
    readBlocks (fuel + 1) (blockHeader false d.length ++ (d ++ bs)) = some (d ++ P, rest) := by
  rw [blockHeader_eq]
  simp [le16, readBlocks, byteAt_append_byteAt, toNat_blockLength hd, hbs]

/-- The stored blocks of a stream are read back whole, with fuel for each of them. -/
theorem readBlocks_storedBlocks {P : List Byte} (hpos : 1 ≤ P.length) {fuel : Nat}
    (hfuel : ceilDiv P.length blockCap ≤ fuel) (rest : List Byte) :
    readBlocks fuel (storedBlocks (ceilDiv P.length blockCap) P ++ rest) = some (P, rest) := by
  induction fuel generalizing P with
  | zero =>
    obtain ⟨-, -, hne⟩ := ceilDiv_blockCap P.length hpos
    omega
  | succ fuel ih =>
    obtain ⟨hone, hmore, hne⟩ := ceilDiv_blockCap P.length hpos
    match hn : ceilDiv P.length blockCap with
    | 0 => exact absurd hn hne
    | 1 =>
      rw [storedBlocks, List.append_assoc]
      exact readBlocks_final (hone hn) fuel rest
    | n + 2 =>
      obtain ⟨hlong, hnext⟩ := hmore n hn
      have htake : (P.take blockCap).length = blockCap := List.length_take_of_le hlong.le
      have hdrop : (P.drop blockCap).length = P.length - blockCap := List.length_drop
      rw [← hdrop] at hnext
      have hrest := ih (P := P.drop blockCap) (by omega) (by omega)
      have hread := readBlocks_middle htake.le (hnext ▸ hrest)
      rw [htake, List.take_append_drop] at hread
      rw [storedBlocks, List.append_assoc, List.append_assoc]
      exact hread

theorem readTriples_flatMap_rgb (ps : List Pixel) (rest : List Byte) :
    readTriples ps.length (ps.flatMap Pixel.rgb ++ rest) = some (ps, rest) := by
  induction ps with
  | nil => rfl
  | cons px ps ih => simp [Pixel.rgb, readTriples, ih]

/-- Rows of one width, each after its filter byte, are read back row by row (R106). -/
theorem readRows_flatMap_pngRow {w : Nat} {rows : List (List Pixel)} (hw : ∀ row ∈ rows, row.length = w) :
    readRows p.filterNone w rows.length (rows.flatMap (pngRow p)) = some rows := by
  induction rows with
  | nil => rfl
  | cons row rows ih =>
    obtain ⟨rfl, hrows⟩ := List.forall_mem_cons.mp hw
    simp [pngRow, readRows, readTriples_flatMap_rgb, ih hrows]

theorem readRows_pngPixels {v : Variant} (h : acceptFrame v p f = .ok ops) :
    readRows p.filterNone ops.width.toNat ops.height.toNat (pngPixels p ops f.payload) =
      some ((List.range ops.height.toNat).map (convertRow ops f.payload)) := by
  have hwidth : ∀ row ∈ (List.range ops.height.toNat).map (convertRow ops f.payload), row.length = ops.width.toNat := by
    obtain ⟨fmt, -, rfl, -⟩ := acceptFrame_spec h
    simpa using convertRow_length h
  have hread := readRows_flatMap_pngRow (p := p) hwidth
  rwa [List.length_map, List.length_range, List.flatMap_map] at hread

/-- There is fuel for every block, since each has a header of five bytes. -/
theorem blockCount_le_pngStream_length {v : Variant} (h : acceptFrame v p f = .ok ops) :
    blockCount ops.width.toNat ops.height.toNat ≤ (pngStream p ops f.payload).length := by
  rw [pngStream_length h, wrappedLen]
  omega

theorem readStream_pngStream {v : Variant} (h : acceptFrame v p f = .ok ops) :
    readStream p ops.width ops.height (pngStream p ops f.payload) =
      some ((List.range ops.height.toNat).map (convertRow ops f.payload)) := by
  have hlen := pngPixels_length h
  have hcount : ceilDiv (pngPixels p ops f.payload).length blockCap = blockCount ops.width.toNat ops.height.toNat := by
    rw [hlen, blockCount]
  have hblocks := readBlocks_storedBlocks (hlen ▸ dataLen_pos h) (hcount ▸ blockCount_le_pngStream_length h)
    (be32 (adler32 1#32 (pngPixels p ops f.payload)))
  rw [hcount] at hblocks
  have hzhdr : p.zhdr.toList.length = 2 := p.zhdr.length_toList
  have htake : (pngStream p ops f.payload).take 2 = p.zhdr.toList := List.take_left' hzhdr
  have hdrop : (pngStream p ops f.payload).drop 2 = _ := List.drop_left' hzhdr
  simp only [readStream, htake, hdrop, hblocks, readRows_pngPixels h, if_true]

/-- The length field of the data chunk holds its length (R202 (e), R209). -/
theorem pngStream_length_lt (h : acceptFrame .png p f = .ok ops) : (pngStream p ops f.payload).length < 2 ^ 32 := by
  rw [pngStream_length h]
  obtain ⟨fmt, -, rfl, -, -, -, hlength⟩ := acceptFrame_spec h
  exact (of_decide_eq_true hlength).trans_lt p.lenMax.isLt

theorem readContainer_pngContainer (h : acceptFrame .png p f = .ok ops) :
    readContainer p (pngContainer p ops f.payload) =
      some (ops.width, ops.height, (List.range ops.height.toNat).map (convertRow ops f.payload)) := by
  have hsig : p.signature.toList.length = 8 := p.signature.length_toList
  have hmeta := readChunk_chunk p.tagMeta.length_toList (d := metaPayload p ops.width ops.height)
    (by simp [metaPayload, be32])
  have hdata := readChunk_chunk p.tagData.length_toList (pngStream_length_lt h)
  have hend := readChunk_chunk p.tagEnd.length_toList (d := []) (by decide) []
  rw [List.append_nil] at hend
  have hinfo : readBe32 (metaPayload p ops.width ops.height) = some (ops.width, _) := readBe32_be32 ..
  have htake : (pngContainer p ops f.payload).take 8 = p.signature.toList := List.take_left' hsig
  have hdrop : (pngContainer p ops f.payload).drop 8 = _ := List.drop_left' hsig
  simp only [readContainer, htake, hdrop, hmeta, hinfo, readBe32_be32, hdata, hend, readStream_pngStream h, and_self,
    if_true]

theorem State.afterRun_sink_of_never_fails {s : State} (hsink : s.answers.sink = none) (bytes : List Byte) :
    (s.afterRun bytes).sink = bytes := by
  simp only [State.afterRun, sinkOutcome, hsink]

end Reader

/-- Settles O28: the run ends in the closed form of the container, and the reader inverts each layer of it. -/
theorem roundTrip : Obligations.RoundTrip := by
  intro s f ops h hsink
  refine ⟨_, exec_encPng_accepted h, ?_⟩
  rw [State.afterRun_sink_of_never_fails hsink, readContainer_pngContainer h]
  obtain ⟨fmt, -, rfl, -⟩ := acceptFrame_spec h
  rfl

/-! ### The CRC stream (R97, R135, R137) -/

/-- One part of a CRC stream: the updates of its bytes, and a read. -/
def crcPart (a : Answers) (bs : List Byte) : List (Instr × Answers) :=
  (bs.map fun b => (Instr.crcUpdate b, a)) ++ [(.crcFinal, a)]

section CrcStream
variable {s : State} {acc : Word}

theorem State.after_crcUpdate (hacc : s.crcAcc = some acc) (b : Byte) :
    (s.after (.crcUpdate b)).crcAcc = some (crcStep acc b) ∧ (s.after (.crcUpdate b)).faults = s.faults := by
  simp [State.after, exec, execCrcUpdate, hacc]

theorem State.after_crcFinal (hacc : s.crcAcc = some acc) :
    (s.after .crcFinal).crcAcc = some acc ∧ (s.after .crcFinal).results.dout32 = some (~~~ acc) ∧
      (s.after .crcFinal).faults = s.faults := by
  simp [State.after, exec, execCrcFinal, hacc]

theorem State.runSchedule_crcUpdates (a : Answers) (bs : List Byte) (hacc : s.crcAcc = some acc) :
    (s.runSchedule (bs.map fun b => (Instr.crcUpdate b, a))).crcAcc = some (crcFeed acc bs) ∧
      (s.runSchedule (bs.map fun b => (Instr.crcUpdate b, a))).faults = s.faults := by
  induction bs generalizing s acc with
  | nil => exact ⟨hacc, rfl⟩
  | cons b bs ih =>
    obtain ⟨hstep, hkept⟩ := State.after_crcUpdate (s := { s with answers := a }) hacc b
    obtain ⟨hfed, hfaults⟩ := ih hstep
    exact ⟨hfed, hfaults.trans hkept⟩

/-- The accumulator goes on from part to part, the port shows its complement, and no fault is raised. -/
theorem State.runSchedule_crcPart (a : Answers) (bs : List Byte) (hacc : s.crcAcc = some acc) :
    (s.runSchedule (crcPart a bs)).crcAcc = some (crcFeed acc bs) ∧
      (s.runSchedule (crcPart a bs)).results.dout32 = some (~~~ (crcFeed acc bs)) ∧
      (s.runSchedule (crcPart a bs)).faults = s.faults := by
  obtain ⟨hfed, hfaults⟩ := State.runSchedule_crcUpdates a bs hacc
  rw [crcPart, State.runSchedule_append]
  obtain ⟨hkept, hport, hread⟩ := State.after_crcFinal
    (s := { s.runSchedule (bs.map fun b => (Instr.crcUpdate b, a)) with answers := a }) hfed
  exact ⟨hkept, hport, hread.trans hfaults⟩

theorem State.runSchedule_crcParts (s : State) (a : Answers) (xs ys : List Byte) :
    s.runSchedule ((.crcInit, a) :: ((xs.map fun b => (Instr.crcUpdate b, a)) ++
      (.crcFinal, a) :: ((ys.map fun b => (Instr.crcUpdate b, a)) ++ [(.crcFinal, a)]))) =
    ((s.runSchedule [(.crcInit, a)]).runSchedule (crcPart a xs)).runSchedule (crcPart a ys) := by
  simp only [← State.runSchedule_append, crcPart, List.append_assoc, List.cons_append, List.nil_append]

end CrcStream

/-- Settles O11: each part ends in a read, and the second goes on from the accumulator the first has kept. -/
theorem crcStream : Obligations.CrcStream := by
  intro s a xs ys
  obtain ⟨hacc, -, hfaults⟩ := State.runSchedule_crcPart (s := s.runSchedule [(.crcInit, a)]) (acc := crcStart) a xs rfl
  obtain ⟨hacc', hport, hfaults'⟩ := State.runSchedule_crcPart a ys hacc
  dsimp only
  rw [State.runSchedule_crcParts, crc32, crcFeed_append, BitVec.not_not]
  exact ⟨hport, hacc', hfaults'.trans hfaults⟩

/-! ### Refused frames (R95, R203, R335) -/

section Refusals
variable {s : State} {f : Frame} {which : List FrameCondition}

theorem exec_encPng_refused (h : acceptFrame .png s.params f = .error which) :
    exec (.encPng f) s = .next (s.refuseFrame .encPng which) := by
  simp only [exec, execEncPng, h]

theorem exec_encFlat_refused (hflat : s.params.hasFlatVariant = true) (h : acceptFrame .flat s.params f = .error which) :
    exec (.encFlat f) s = .next (s.refuseFrame .encFlat which) := by
  simp only [exec, execEncFlat, hflat, h, if_true]

end Refusals

/-- Settles O24: the refusal of each variant, and the flat variant that does not exist. -/
theorem encRefusals : Obligations.EncRefusals :=
  fun _ f _ => ⟨exec_encPng_refused, exec_encFlat_refused, fun hflat => exec_encFlat_illegal hflat f⟩

/-! ### The trigger and the peer's write (R113, R262, R263) -/

section PeerWrite
variable {s : State}

theorem State.trigger_of_idle (hidle : s.job.state = .idle) :
    s.trigger = { s with job := { s.job with state := .capturing } } :=
  if_pos hidle

theorem State.trigger_of_busy (hbusy : s.job.state ≠ .idle) : s.trigger = s := if_neg hbusy

theorem exec_pktPeerWrite_trigger (hopen : s.session.connected = true) : exec (.pktPeerWrite 0x01#8) s = .next s.trigger :=
  if_pos ⟨hopen, rfl⟩

theorem exec_pktPeerWrite_ignored {byte : Byte} (h : s.session.connected = false ∨ byte ≠ 0x01#8) :
    exec (.pktPeerWrite byte) s = .next s :=
  if_neg fun ⟨hopen, hbyte⟩ => h.elim (fun hclosed => absurd (hopen.symm.trans hclosed) (by decide)) (absurd hbyte)

end PeerWrite

/-- Settles O32: the byte 0x01 of a connected peer is the trigger in either case of the job's state. -/
theorem pktPeerWrite : Obligations.PktPeerWrite := by
  refine fun s byte => ⟨?_, exec_pktPeerWrite_ignored⟩
  rintro hopen rfl
  rw [exec_pktPeerWrite_trigger hopen]
  exact ⟨fun hidle => by rw [State.trigger_of_idle hidle], fun hbusy => by rw [State.trigger_of_busy hbusy]⟩

/-! ### The announcement of a job (R112, R283 to R286, R336) -/

section Announce
variable {s : State} {record : List Byte}

theorem exec_pktStep_announcing (hstate : s.job.state = .announcing) : exec .pktStep s = .next s.announceStep := by
  simp only [exec, execPktStep, s.workerStep_eq, hstate]

theorem State.announceStep_of_no_subscriber (h : s.session.connected = false ∨ s.session.notifMeta = false) :
    s.announceStep = s.fail .noSubscriber := by
  refine if_neg ?_
  rintro ⟨hopen, hmeta : s.session.notifMeta = true⟩
  simp [hopen, hmeta] at h

theorem State.announceStep_of_unsent (hopen : s.session.connected = true) (hmeta : s.session.notifMeta = true)
    (hrecord : s.HasRecord record) (hsend : s.send s.session .metadata record = none) :
    s.announceStep = s.fail .transferAborted := by
  obtain ⟨w, h, len, fmt, hw, hh, hlen, hfmt, rfl⟩ := hrecord
  simp only [State.announceStep, Session.enabled, hopen, hmeta, and_self, if_true, hw, hh, hlen, hfmt, hsend]

theorem State.announceStep_of_sent {t : State} (hopen : s.session.connected = true) (hmeta : s.session.notifMeta = true)
    (hrecord : s.HasRecord record) (hsend : s.send s.session .metadata record = some t) :
    s.announceStep = t.startStreaming s.session := by
  obtain ⟨w, h, len, fmt, hw, hh, hlen, hfmt, rfl⟩ := hrecord
  simp only [State.announceStep, Session.enabled, hopen, hmeta, and_self, if_true, hw, hh, hlen, hfmt, hsend]

/-- A job that is not yet announced to a session is held to the subscriber check alone (R285). -/
theorem Session.forcesFail_of_subscribed {se : Session} (hopen : se.connected = true) (hmeta : se.notifMeta = true) :
    se.forcesFail none .metadata = false := by
  simp [Session.forcesFail, Session.enabled, hopen, hmeta]

theorem State.startStreaming_refuses {snap : Session} (h : chunkSizeOf s.params snap.maxPayload < 1) :
    s.startStreaming snap = (s.raise (.badChunkSize snap.maxPayload)).fail .transferAborted := if_pos h

theorem State.startStreaming_starts {snap : Session} (h : 1 ≤ chunkSizeOf s.params snap.maxPayload) :
    s.startStreaming snap = { s with job := { s.job with
      state := .streaming, chunkSize := some (BitVec.ofInt 16 (chunkSizeOf s.params snap.maxPayload))
      epoch := some snap.epoch, bytesSent := some 0#32 } } := if_neg (Int.not_lt.mpr h)

/-- The chunk size is latched as it is computed: `HARD_CAP` keeps it in 16 bits (R286). -/
theorem toNat_latchedChunkSize {p : Params} {maxPayload : Half} (h : 1 ≤ chunkSizeOf p maxPayload) :
    ((BitVec.ofInt 16 (chunkSizeOf p maxPayload)).toNat : Int) = chunkSizeOf p maxPayload := by
  have hcap : chunkSizeOf p maxPayload ≤ p.hardCap.toNat := min_le_right ..
  have hlt := p.hardCap.isLt
  rw [BitVec.toNat_ofInt]
  omega

theorem metadataRecord_length (p : Params) (w h : Half) (len : Word) (fmt : ImageFormat) :
    (metadataRecord p w h len fmt).length = 12 := by
  have htag : (formatTag p fmt).length = 4 := by cases fmt <;> exact Vector.length_toList
  simp [metadataRecord, le16, le32, htag]

end Announce

/-- Settles O44: the subscriber check, the answer to the one send, and the chunk size of the snapshot. -/
theorem workerAnnounce : Obligations.WorkerAnnounce := by
  intro s w h len fmt hstate hw hh hlen hfmt hepoch
  dsimp only
  rw [exec_pktStep_announcing hstate]
  have hrecord : s.HasRecord (metadataRecord s.params w h len fmt) := ⟨w, h, len, fmt, hw, hh, hlen, hfmt, rfl⟩
  have hsent (hopen : s.session.connected = true) (hmeta : s.session.notifMeta = true) (hok : s.answers.send = .ok) :=
    State.announceStep_of_sent hopen hmeta hrecord
      ((s.send_eq ..).mpr ⟨hepoch ▸ Session.forcesFail_of_subscribed hopen hmeta, hok, rfl⟩)
  refine ⟨fun hnone => ?_, fun hopen hmeta hfail => ?_, fun hopen hmeta hok hsize => ?_, fun hopen hmeta hok hsize => ?_⟩
  · rw [State.announceStep_of_no_subscriber hnone]
    rfl
  · rw [State.announceStep_of_unsent hopen hmeta hrecord ((s.send_eq_none ..).mpr (.inr hfail))]
    rfl
  · rw [(hsent hopen hmeta hok).trans (State.startStreaming_refuses hsize)]
    rfl
  · rw [(hsent hopen hmeta hok).trans (State.startStreaming_starts hsize)]
    exact ⟨_, toNat_latchedChunkSize hsize, metadataRecord_length .., rfl⟩

end Sys2Proof.Machine
end

section
/-! PROOFS. The family of 40_crc32.md: the three operations on `crc_acc` (R132 to R134), the accumulator that holds no value
until `CRC_INIT` (R21, R133), and the update as eight rounds without the table (R138). -/

namespace Sys2Proof.Machine

/-! ### The three operations (R132 to R134) -/

section CrcOps
variable {s : State} {acc : Word}

theorem exec_crcInit : exec .crcInit s = .next { s with crcAcc := some crcStart } := rfl

theorem exec_crcUpdate_of_some (hacc : s.crcAcc = some acc) (b : Byte) :
    exec (.crcUpdate b) s = .next { s with crcAcc := some (crcStep acc b) } := by
  simp only [exec, execCrcUpdate, hacc]

theorem exec_crcUpdate_of_none (hacc : s.crcAcc = none) (b : Byte) :
    exec (.crcUpdate b) s = .next (s.raise (.useBeforeInit .crcUpdate .crcAcc)) := by
  simp only [exec, execCrcUpdate, hacc]

theorem exec_crcFinal_of_some (hacc : s.crcAcc = some acc) :
    exec .crcFinal s = .next { s with results := { s.results with dout32 := some (~~~ acc) } } := by
  simp only [exec, execCrcFinal, hacc]

theorem exec_crcFinal_of_none (hacc : s.crcAcc = none) : exec .crcFinal s =
    .next (State.raise (.useBeforeInit .crcFinal .crcAcc) { s with results := { s.results with dout32 := none } }) := by
  simp only [exec, execCrcFinal, hacc]

end CrcOps

/-- Settles O7: the row of the opcode map, and the operation's one meaning. -/
theorem crcInit : Obligations.CrcInit := ⟨decode_opcode .crcInit, fun _ => exec_crcInit⟩

/-- Settles O9: inverting a word is its exclusive-or with all ones. -/
theorem crcFinal : Obligations.CrcFinal := by
  refine fun s => ⟨fun acc hacc => ?_, exec_crcFinal_of_none⟩
  have hinvert : acc ^^^ 0xFFFFFFFF#32 = ~~~ acc := BitVec.xor_allOnes
  rw [hinvert, exec_crcFinal_of_some hacc]

/-! ### The accumulator holds no value until `CRC_INIT` (R21, R133) -/

section NoValue
variable {s : State} {i : Instr}

theorem State.after_crcAcc_frame (hinit : i.op ≠ .crcInit) (hupdate : i.op ≠ .crcUpdate) :
    (s.after i).crcAcc = s.crcAcc := by
  unfold State.after
  split
  case h_1 t hexec =>
    rw [exec_overlay hexec]
    exact State.overlay_crcAcc hinit hupdate
  case h_2 | h_3 => rfl

/-- `CRC_INIT` alone gives a value to an accumulator without one, and nothing takes a value away. -/
theorem State.after_crcAcc_eq_none_iff : (s.after i).crcAcc = none ↔ s.crcAcc = none ∧ i ≠ .crcInit := by
  cases i
  case crcInit => simp [State.after, exec_crcInit]
  case crcUpdate b =>
    cases hacc : s.crcAcc with
    | none => simp [State.after, exec_crcUpdate_of_none hacc, hacc]
    | some acc => simp [State.after, exec_crcUpdate_of_some hacc]
  all_goals
    rw [State.after_crcAcc_frame (by nofun) (by nofun)]
    exact (and_iff_left nofun).symm

theorem State.runSchedule_crcAcc_eq_none_iff (sched : List (Instr × Answers)) :
    (s.runSchedule sched).crcAcc = none ↔ s.crcAcc = none ∧ ∀ x ∈ sched, x.1 ≠ .crcInit := by
  induction sched generalizing s with
  | nil => exact (and_iff_left nofun).symm
  | cons x sched ih =>
    have hrest : (s.runSchedule (x :: sched)).crcAcc = none ↔
        (State.after x.1 { s with answers := x.2 }).crcAcc = none ∧ ∀ y ∈ sched, y.1 ≠ .crcInit := ih
    rw [hrest, State.after_crcAcc_eq_none_iff, List.forall_mem_cons, and_assoc]

end NoValue

/-- Settles O8: the two cases of the accumulator, and the accumulator of the reset state along a schedule. -/
theorem crcUpdate : Obligations.CrcUpdate :=
  ⟨decode_opcode .crcUpdate,
    fun _ b => ⟨fun _ hacc => exec_crcUpdate_of_some hacc b, fun hacc => exec_crcUpdate_of_none hacc b⟩,
    fun sched => (State.runSchedule_crcAcc_eq_none_iff sched).trans (and_iff_right rfl)⟩

/-! ### The update without the table (R131, R138)

A round is linear over exclusive-or, and a word whose low eight bits are clear goes through eight rounds as a shift by 8.
So eight rounds of a word are the table's entry for its low byte, exclusive-or the word shifted by 8. -/

theorem crcRounds8_eq_iterate (c : Word) : crcRounds8 c = crcRound^[8] c := rfl

theorem crcRound_of_bit_clear {c : Word} (h : c.getLsbD 0 = false) : crcRound c = c >>> 1 :=
  if_neg (Bool.eq_false_iff.mp h)

theorem crcRound_xor (a b : Word) : crcRound (a ^^^ b) = crcRound a ^^^ crcRound b := by
  have hbit : (a ^^^ b).getLsbD 0 = (a.getLsbD 0 ^^ b.getLsbD 0) := BitVec.getLsbD_xor
  have hshift : (a ^^^ b) >>> 1 = (a >>> 1) ^^^ (b >>> 1) := BitVec.ushiftRight_xor_distrib ..
  simp only [crcRound, hbit, hshift]
  cases a.getLsbD 0 <;> cases b.getLsbD 0 <;> dsimp
  · ac_rfl
  · ac_rfl
  · rw [BitVec.xor_comm _ (a >>> 1), BitVec.xor_assoc, xor_cancel_left]

theorem crcRound_iterate_xor (n : Nat) (a b : Word) : crcRound^[n] (a ^^^ b) = crcRound^[n] a ^^^ crcRound^[n] b := by
  induction n generalizing a b with
  | zero => rfl
  | succ n ih => rw [Function.iterate_succ_apply, crcRound_xor, ih]; rfl

/-- While the bits that leave the word are clear, a round is a shift. -/
theorem crcRound_iterate_eq_ushiftRight (n : Nat) {c : Word} (hlow : ∀ k < n, c.getLsbD k = false) :
    crcRound^[n] c = c >>> n := by
  induction n generalizing c with
  | zero => exact (BitVec.ushiftRight_zero c).symm
  | succ n ih =>
    have hround : crcRound c = c >>> 1 := crcRound_of_bit_clear (hlow 0 n.succ_pos)
    have hnext : ∀ k < n, (c >>> 1).getLsbD k = false := fun k hk => by
      rw [BitVec.getLsbD_ushiftRight]
      exact hlow (1 + k) (by omega)
    rw [Function.iterate_succ_apply, hround, ih hnext, ← BitVec.shiftRight_add, Nat.add_comm]

theorem lowByte_xor_shifted (c : Word) : (c.setWidth 8).setWidth 32 ^^^ (c >>> 8) <<< 8 = c := by
  refine BitVec.eq_of_getLsbD_eq fun k hk => ?_
  by_cases h : k < 8
  · simp [h, hk]
  · simp [h, hk, Nat.add_sub_cancel' (Nat.le_of_not_lt h)]

theorem shifted_ushiftRight (c : Word) : (c >>> 8) <<< 8 >>> 8 = c >>> 8 := by
  refine BitVec.eq_of_getLsbD_eq fun k hk => ?_
  simpa using BitVec.lt_of_getLsbD

theorem zeroExtendedByte_ushiftRight (b : Byte) : b.setWidth 32 >>> 8 = 0#32 := by
  refine BitVec.eq_of_getLsbD_eq fun k hk => ?_
  simp

theorem crcRounds8_eq_crcTab (c : Word) : crcRounds8 c = crcTab (c.setWidth 8) ^^^ (c >>> 8) := by
  have hhigh : crcRound^[8] ((c >>> 8) <<< 8) = c >>> 8 := by
    rw [crcRound_iterate_eq_ushiftRight 8 fun k hk => by simp [hk], shifted_ushiftRight]
  calc crcRounds8 c = crcRound^[8] ((c.setWidth 8).setWidth 32 ^^^ (c >>> 8) <<< 8) := by
        rw [lowByte_xor_shifted, crcRounds8_eq_iterate]
    _ = crcTab (c.setWidth 8) ^^^ (c >>> 8) := by rw [crcRound_iterate_xor, hhigh, crcTab, crcRounds8_eq_iterate]

theorem crcStep_eq_crcRounds8 (acc : Word) (b : Byte) : crcStep acc b = crcRounds8 (acc ^^^ b.setWidth 32) := by
  have hhigh : (acc ^^^ b.setWidth 32) >>> 8 = acc >>> 8 := by
    rw [BitVec.ushiftRight_xor_distrib, zeroExtendedByte_ushiftRight, BitVec.xor_zero]
  rw [crcRounds8_eq_crcTab, hhigh, crcStep]

/-- Settles O10: the eight rounds of the table's construction, run on the accumulator with the byte mixed in. -/
theorem crcTableFree : Obligations.CrcTableFree := by
  intro s b acc hacc
  rw [exec_crcUpdate_of_some hacc, crcStep_eq_crcRounds8, crcRounds8_eq_iterate]
  rfl

end Sys2Proof.Machine
end

section
/-! PROOFS. The family of 41_adler32.md: the four operations on `adler_a`, `adler_b` (R152 to R155), and the sums that hold
no value until `ADLER_INIT` or `ADLER_LOAD` (R23, R153). -/

namespace Sys2Proof.Machine

/-! ### The four operations (R152 to R155) -/

section AdlerOps
variable {s : State} {x : Adler}

theorem exec_adlerInit : exec .adlerInit s = .next { s with adler := some adlerStart } := rfl

theorem exec_adlerLoad (v : Word) : exec (.adlerLoad v) s = .next { s with adler := some (Adler.unpack v) } := rfl

theorem exec_adlerUpdate_of_some (hx : s.adler = some x) (b : Byte) :
    exec (.adlerUpdate b) s = .next { s with adler := some (adlerStep x b) } := by
  simp only [exec, execAdlerUpdate, hx]

theorem exec_adlerUpdate_of_none (hnone : s.adler = none) (b : Byte) :
    exec (.adlerUpdate b) s = .next (s.raise (.useBeforeInit .adlerUpdate .adlerAcc)) := by
  simp only [exec, execAdlerUpdate, hnone]

theorem exec_adlerRead_of_some (hx : s.adler = some x) :
    exec .adlerRead s = .next { s with results := { s.results with dout32 := some x.pack } } := by
  simp only [exec, execAdlerRead, hx]

theorem exec_adlerRead_of_none (hnone : s.adler = none) : exec .adlerRead s =
    .next (State.raise (.useBeforeInit .adlerRead .adlerAcc) { s with results := { s.results with dout32 := none } }) := by
  simp only [exec, execAdlerRead, hnone]

end AdlerOps

/-- The two halves of a word make up the word. -/
theorem Adler.pack_unpack (v : Word) : (Adler.unpack v).pack = v := by
  have hhalves : v.extractLsb' 16 16 ++ v.extractLsb' 0 16 = v :=
    (BitVec.extractLsb'_append_extractLsb'_eq_extractLsb' rfl).trans BitVec.extractLsb'_eq_self
  rw [Adler.pack_eq_append]
  exact hhalves

theorem Adler.unpack_one : Adler.unpack 1#32 = adlerStart := by decide

/-- Settles O12: the row of the opcode map, and the operation's one meaning. -/
theorem adlerInit : Obligations.AdlerInit := ⟨decode_opcode .adlerInit, fun _ => exec_adlerInit⟩

/-- Settles O14: the port shows the packed sums, or no value beside the fault. -/
theorem adlerRead : Obligations.AdlerRead := by
  refine ⟨decode_opcode .adlerRead, fun s => ⟨fun a b hx => ?_, fun hnone => ⟨_, exec_adlerRead_of_none hnone⟩⟩⟩
  rw [exec_adlerRead_of_some hx, Adler.pack]

/-- Settles O15: loading unpacks, reading packs, and packing undoes unpacking. -/
theorem adlerLoad : Obligations.AdlerLoad := by
  refine ⟨fun s v => exec_adlerLoad v, fun s => ?_, fun s v => ⟨_, exec_adlerRead_of_some rfl, ?_⟩⟩
  · rw [exec_adlerLoad, exec_adlerInit, Adler.unpack_one]
  · exact congrArg some (Adler.pack_unpack v)

/-! ### The sums hold no value until `ADLER_INIT` or `ADLER_LOAD` (R23, R153) -/

section NoValue
variable {s : State} {i : Instr}

theorem State.after_adler_frame (hinit : i.op ≠ .adlerInit) (hupdate : i.op ≠ .adlerUpdate)
    (hload : i.op ≠ .adlerLoad) : (s.after i).adler = s.adler := by
  unfold State.after
  split
  case h_1 t hexec =>
    rw [exec_overlay hexec]
    exact State.overlay_adler hinit hupdate hload
  case h_2 | h_3 => rfl

/-- `ADLER_INIT` and `ADLER_LOAD` alone give a value to sums without one, and nothing takes a value away. -/
theorem State.after_adler_eq_none_iff :
    (s.after i).adler = none ↔ s.adler = none ∧ i ≠ .adlerInit ∧ ∀ v, i ≠ .adlerLoad v := by
  cases i
  case adlerInit => simp [State.after, exec_adlerInit]
  case adlerLoad v => simp [State.after, exec_adlerLoad]
  case adlerUpdate b =>
    cases hx : s.adler with
    | none => simp [State.after, exec_adlerUpdate_of_none hx, hx]
    | some x => simp [State.after_adlerUpdate hx]
  all_goals
    rw [State.after_adler_frame (by nofun) (by nofun) (by nofun)]
    exact (and_iff_left ⟨nofun, nofun⟩).symm

/-- A property of states that an operation keeps exactly when the operation is allowed holds after a schedule exactly
when it held before and every operation of the schedule is allowed. -/
theorem State.runSchedule_iff {holds : State → Prop} {allowed : Instr → Prop}
    (hafter : ∀ (s : State) (i : Instr) (a : Answers),
      holds (State.after i { s with answers := a }) ↔ holds s ∧ allowed i) (sched : List (Instr × Answers)) :
    holds (s.runSchedule sched) ↔ holds s ∧ ∀ x ∈ sched, allowed x.1 := by
  induction sched generalizing s with
  | nil => exact (and_iff_left nofun).symm
  | cons x sched ih =>
    have hrest : holds (s.runSchedule (x :: sched)) ↔
        holds (State.after x.1 { s with answers := x.2 }) ∧ ∀ y ∈ sched, allowed y.1 := ih
    rw [hrest, hafter, List.forall_mem_cons, and_assoc]

theorem State.runSchedule_adler_eq_none_iff (sched : List (Instr × Answers)) :
    (s.runSchedule sched).adler = none ↔ s.adler = none ∧ ∀ x ∈ sched, x.1 ≠ .adlerInit ∧ ∀ v, x.1 ≠ .adlerLoad v :=
  State.runSchedule_iff (holds := (·.adler = none)) (allowed := fun i => i ≠ .adlerInit ∧ ∀ v, i ≠ .adlerLoad v)
    (fun _ _ _ => State.after_adler_eq_none_iff) sched

end NoValue

/-- Settles O13: the two cases of the sums, and the sums of the reset state along a schedule. -/
theorem adlerUpdate : Obligations.AdlerUpdate :=
  ⟨decode_opcode .adlerUpdate,
    fun _ b => ⟨fun _ _ hx => exec_adlerUpdate_of_some hx b, fun hnone => ⟨_, exec_adlerUpdate_of_none hnone b⟩⟩,
    fun sched => (State.runSchedule_adler_eq_none_iff sched).trans (and_iff_right rfl)⟩

end Sys2Proof.Machine
end

section
/-! PROOFS. The family of 42_rgb565.md: the two expansions (R174), and `CONV_RGB565` on a row and on a short one (R171 to
R173, R334). -/

namespace Sys2Proof.Machine

/-! ### Disjoint parts of a word, and the two expansions (R171, R174) -/

/-- A word moved up by `n`, with no bit lost, leaves `n` bits free below it, and there `or` is a sum. -/
theorem toNat_setWidth_shiftLeft_or {w m n : Nat} (x : BitVec w) {y : BitVec m} (hm : w + n ≤ m)
    (hy : y.toNat < 2 ^ n) : (x.setWidth m <<< n ||| y).toNat = x.toNat * 2 ^ n + y.toNat := by
  have hfits : x.toNat * 2 ^ n < 2 ^ m := calc
    x.toNat * 2 ^ n < 2 ^ w * 2 ^ n := Nat.mul_lt_mul_of_pos_right x.isLt (Nat.two_pow_pos n)
    _ = 2 ^ (w + n) := (Nat.pow_add 2 w n).symm
    _ ≤ 2 ^ m := Nat.pow_le_pow_right (by decide) hm
  rw [BitVec.toNat_or, BitVec.toNat_shiftLeft, BitVec.toNat_setWidth_of_le (by omega), Nat.shiftLeft_eq,
    Nat.mod_eq_of_lt hfits, mul_comm, Nat.two_pow_add_eq_or_of_lt hy]

/-- A replicating expansion is a sum: the value moved up by `n`, and its top bits in the `n` free places. -/
theorem toNat_shiftLeft_or_shiftRight {w m n k : Nat} (v : BitVec w) (hm : w + n ≤ m) (hk : w ≤ k + n) :
    (v.setWidth m <<< n ||| v.setWidth m >>> k).toNat = v.toNat * 2 ^ n + v.toNat / 2 ^ k := by
  have hlow : (v.setWidth m >>> k).toNat = v.toNat / 2 ^ k := by
    rw [BitVec.toNat_ushiftRight, BitVec.toNat_setWidth_of_le (by omega), Nat.shiftRight_eq_div_pow]
  have hroom : v.toNat / 2 ^ k < 2 ^ n := by
    apply Nat.div_lt_of_lt_mul
    rw [← Nat.pow_add]
    exact v.isLt.trans_le (Nat.pow_le_pow_right (by decide) hk)
  rw [toNat_setWidth_shiftLeft_or v hm (hlow.trans_lt hroom), hlow]

theorem expand5_toNat (v : BitVec 5) : (expand5 v).toNat = v.toNat * 8 + v.toNat / 4 :=
  toNat_shiftLeft_or_shiftRight v (by decide) (by decide)

theorem expand6_toNat (v : BitVec 6) : (expand6 v).toNat = v.toNat * 4 + v.toNat / 16 :=
  toNat_shiftLeft_or_shiftRight v (by decide) (by decide)

theorem expand5_lt_expand5 {v w : BitVec 5} (h : v < w) : expand5 v < expand5 w := by
  rw [BitVec.lt_def] at h ⊢
  rw [expand5_toNat, expand5_toNat]
  omega

theorem expand6_lt_expand6 {v w : BitVec 6} (h : v < w) : expand6 v < expand6 w := by
  rw [BitVec.lt_def] at h ⊢
  rw [expand6_toNat, expand6_toNat]
  omega

/-- Settles O19: each expansion is a sum of two monotone terms, the first one strictly so; the ends by computation. -/
theorem expansions : Obligations.Expansions :=
  ⟨fun _ _ => expand5_lt_expand5, fun _ _ => expand6_lt_expand6, by decide, by decide, by decide, by decide⟩

/-! ### One pixel in arithmetic (R171) -/

theorem pixelWord_toNat (hi lo : Byte) : (pixelWord hi lo).toNat = hi.toNat * 256 + lo.toNat := by
  have hlow : (lo.setWidth 16).toNat = lo.toNat := BitVec.toNat_setWidth_of_le (by decide)
  have hroom : (lo.setWidth 16).toNat < 2 ^ 8 := hlow.trans_lt lo.isLt
  exact (toNat_setWidth_shiftLeft_or hi (by decide) hroom).trans (congrArg (_ + ·) hlow)

theorem expand5_eq_ofNat (v : BitVec 5) : expand5 v = BitVec.ofNat 8 (v.toNat * 8 + v.toNat / 4) := by
  rw [← expand5_toNat, BitVec.ofNat_toNat, BitVec.setWidth_eq]

theorem expand6_eq_ofNat (v : BitVec 6) : expand6 v = BitVec.ofNat 8 (v.toNat * 4 + v.toNat / 16) := by
  rw [← expand6_toNat, BitVec.ofNat_toNat, BitVec.setWidth_eq]

theorem rgb565Pixel_eq {hi lo : Byte} {v : Half} (hv : pixelWord hi lo = v) : rgb565Pixel hi lo =
    ⟨BitVec.ofNat 8 (v.toNat / 2048 * 8 + v.toNat / 2048 / 4),
      BitVec.ofNat 8 (v.toNat / 32 % 64 * 4 + v.toNat / 32 % 64 / 16),
      BitVec.ofNat 8 (v.toNat % 32 * 8 + v.toNat % 32 / 4)⟩ := by
  have hlt := v.isLt
  have hred : (v.extractLsb' 11 5).toNat = v.toNat / 2048 := by
    rw [BitVec.extractLsb'_toNat, Nat.shiftRight_eq_div_pow]
    omega
  have hgreen : (v.extractLsb' 5 6).toNat = v.toNat / 32 % 64 := by
    rw [BitVec.extractLsb'_toNat, Nat.shiftRight_eq_div_pow]
  have hblue : (v.extractLsb' 0 5).toNat = v.toNat % 32 := by
    rw [BitVec.extractLsb'_toNat, Nat.shiftRight_zero]
  simp only [rgb565Pixel, hv, expand5_eq_ofNat, expand6_eq_ofNat, hred, hgreen, hblue]

/-! ### A row (R172, R173) and a short row (R334) -/

/-- Pixel `i` of a row is made of bytes `2i` and `2i + 1` alone (R172). -/
theorem rgb565Row_getElem? {width i : Nat} {row : List Byte} {hi lo : Byte} (hlt : i < width)
    (hhi : row[2 * i]? = some hi) (hlo : row[2 * i + 1]? = some lo) :
    (rgb565Row width row)[i]? = some (rgb565Pixel hi lo) := by
  fun_induction rgb565Row width row generalizing i with
  | case1 width b c rest ih =>
    cases i with
    | zero =>
      obtain rfl : b = hi := Option.some.inj hhi
      obtain rfl : c = lo := Option.some.inj hlo
      rfl
    | succ i => exact ih (by omega) hhi hlo
  | case2 width row hshort =>
    match width, row with
    | 0, _ => omega
    | _ + 1, [] => simp at hlo
    | _ + 1, [_] => simp at hlo
    | width + 1, b :: c :: rest => exact absurd rfl (hshort width b c rest rfl)

section ConvRgb565
variable {s : State} {width : Word} {row : List Byte}

theorem exec_convRgb565_of_le (h : 2 * width.toNat ≤ row.length) : exec (.convRgb565 width row) s =
    .next { s with results := { s.results with pix := some (rgb565Row width.toNat row) } } :=
  if_neg h.not_gt

theorem exec_convRgb565_of_lt (h : row.length < 2 * width.toNat) : exec (.convRgb565 width row) s =
    .next (State.raise (.rowTooShort .convRgb565 row.length (2 * width.toNat))
      { s with results := { s.results with pix := none } }) :=
  if_pos h

end ConvRgb565

/-- Settles O17: a long enough row gives `rgb565Row`, whose pixels are known one by one; a short one gives the fault. -/
theorem convRgb565 : Obligations.ConvRgb565 := by
  refine fun s width row => ⟨fun hlen => ?_, exec_convRgb565_of_lt⟩
  refine ⟨_, exec_convRgb565_of_le hlen, rgb565Row_length _ _ hlen, fun i hi lo hlt hhi hlo => ?_⟩
  refine ⟨pixelWord hi lo, pixelWord_toNat hi lo, ?_⟩
  rw [rgb565Row_getElem? hlt hhi hlo, rgb565Pixel_eq rfl]

end Sys2Proof.Machine
end

section
/-! PROOFS. The family of 43_yuyv422.md: `CONV_YUYV` on a row of whole groups and on a short one (R185 to R189, R334). -/

namespace Sys2Proof.Machine

/-! ### A row of groups (R186, R189) and a short row (R334) -/

/-- Pixel `i` of a row is made of group `i / 2` alone: its own luma byte, and the chroma bytes the two pixels share (R186). -/
theorem yuyvRow_getElem? {width i : Nat} {row : List Byte} {y u v : Byte} (hlt : i < width)
    (hy : row[4 * (i / 2) + 2 * (i % 2)]? = some y) (hu : row[4 * (i / 2) + 1]? = some u)
    (hv : row[4 * (i / 2) + 3]? = some v) : (yuyvRow width row)[i]? = some (yuvPixel y u v) := by
  fun_induction yuyvRow width row generalizing i with
  | case1 =>
    obtain rfl : i = 0 := by omega
    cases hy; cases hu; cases hv; rfl
  | case2 width _ _ _ _ _ ih =>
    match i with
    | 0 | 1 => cases hy; cases hu; cases hv; rfl
    | i + 2 =>
      have hgroup : 4 * ((i + 2) / 2) = 4 * (i / 2) + 4 := by omega
      rw [hgroup, Nat.add_right_comm] at hy hu hv
      rw [Nat.add_mod_right] at hy
      exact ih (by omega) hy hu hv
  | case3 width row hlast hwhole =>
    match width, row with
    | 0, _ => omega
    | _ + 1, [] | _ + 1, [_] | _ + 1, [_, _] | _ + 1, [_, _, _] => simp at hv
    | 1, b :: c :: b1 :: d :: rest => exact absurd rfl (hlast b c b1 d rest rfl)
    | width + 2, b0 :: c :: b1 :: d :: rest => exact absurd rfl (hwhole width b0 c b1 d rest rfl)

section ConvYuyv
variable {s : State} {width : Word} {row : List Byte}

theorem exec_convYuyv_of_le (h : 4 * ceilDiv width.toNat 2 ≤ row.length) : exec (.convYuyv width row) s =
    .next { s with results := { s.results with pix := some (yuyvRow width.toNat row) } } :=
  if_neg h.not_gt

theorem exec_convYuyv_of_lt (h : row.length < 4 * ceilDiv width.toNat 2) : exec (.convYuyv width row) s =
    .next (State.raise (.rowTooShort .convYuyv row.length (4 * ceilDiv width.toNat 2))
      { s with results := { s.results with pix := none } }) :=
  if_pos h

end ConvYuyv

/-- Settles O18: a row of whole groups gives `yuyvRow`, whose pixels are known one by one; a short one gives the fault. The
obligation's byte count is `4 * ceilDiv width 2`, and its sums are those of `yuvPixel`, by definition. -/
theorem convYuyv : Obligations.ConvYuyv := by
  refine fun s width row => ⟨fun hlen => ?_, exec_convYuyv_of_lt⟩
  exact ⟨_, exec_convYuyv_of_le hlen, yuyvRow_length _ _ hlen, fun _ _ _ _ => yuyvRow_getElem?⟩

end Sys2Proof.Machine
end

section
/-! PROOFS. The family of 44_container_encoder.md: how a stand-alone run ends with every sink (R203, R218, R231), the sizes of
the two containers (R209, R219, R247), and the encoder inside a job, whose sink is the image buffer (R279, R280, R335). -/

namespace Sys2Proof.Machine

/-- Settles O22: the run stands with every sink as a writer of the container does. -/
theorem encPngResult : Obligations.EncPngResult := fun _ _ _ => exec_encPng_accepted

/-- Settles O23: the run stands with every sink as a writer of the flat file does. -/
theorem encFlatResult : Obligations.EncFlatResult := fun _ _ _ => exec_encFlat_accepted

/-! ### The two ends of a stand-alone run (R231, R328) -/

section RunEnds
variable {s : State} {bytes : List Byte}

theorem State.afterRun_of_cut {x : SinkFailure} (hsink : s.answers.sink = some x) (hcut : x.index < bytes.length) :
    s.afterRun bytes = { s with
      enc := Encoder.failed x.error, sink := bytes.take x.index
      results := { s.results with status := some (.abort x.error) } } := by
  simp only [State.afterRun, sinkOutcome, hsink, if_neg (Nat.not_le.mpr hcut)]

theorem State.afterRun_of_accepted (hsink : ∀ x, s.answers.sink = some x → bytes.length ≤ x.index) :
    s.afterRun bytes = { s with
      enc := Encoder.finished, sink := bytes, results := { s.results with status := some .ok } } := by
  cases hs : s.answers.sink with
  | none => simp only [State.afterRun, sinkOutcome, hs]
  | some x => simp only [State.afterRun, sinkOutcome, hs, if_pos (hsink x hs)]

end RunEnds

/-- Settles O25: the sink fails a write inside the container or none of them, and neither end of a run raises a fault. -/
theorem encAbort : Obligations.EncAbort := by
  intro s t f ops h hexec
  rw [exec_encPng_accepted h] at hexec
  cases hexec
  refine ⟨fun x hsink hcut => ?_, fun hsink => ?_, rfl⟩
  · rw [State.afterRun_of_cut hsink hcut]
    exact ⟨rfl, (List.length_take_le _ _).trans_lt hcut, rfl, rfl⟩
  · rw [State.afterRun_of_accepted hsink]
    exact ⟨rfl, rfl, rfl⟩

/-! ### Sizes (R100, R110, R219, R247) -/

section Sizes
variable {v : Variant} {p : Params} {f : Frame} {ops : EncOperands}

/-- A chunk adds its length, its tag and its CRC to its payload (R100). -/
theorem chunk_length (tag : Vector Byte 4) (d : List Byte) : (chunk tag.toList d).length = 12 + d.length := by
  simp only [chunk, be32n, be32, List.length_append, Vector.length_toList, List.length_cons, List.length_nil]
  omega

theorem metaPayload_length (p : Params) (w h : Word) : (metaPayload p w h).length = 13 := by simp [metaPayload, be32]

theorem pngContainer_length (h : acceptFrame v p f = .ok ops) :
    (pngContainer p ops f.payload).length = 57 + wrappedLen ops.width.toNat ops.height.toNat := by
  simp only [pngContainer, List.length_append, Vector.length_toList, chunk_length, metaPayload_length, pngStream_length h,
    List.length_nil]
  omega

theorem flatHeader_length (p : Params) (w h : Word) : (flatHeader p w h).length = 54 := by
  simp [flatHeader, le32n, le32, le16n, le16]

theorem flatFile_length (h : acceptFrame v p f = .ok ops) :
    (flatFile p ops f.payload).length = 54 + flatDataSize ops.width.toNat ops.height.toNat := by
  obtain ⟨fmt, -, rfl, -⟩ := acceptFrame_spec h
  have hrow : ∀ r ∈ (List.range f.height.toNat).reverse,
      (flatRow f.width.toNat (convertRow ⟨v, fmt, f.width, f.height, f.rowStride⟩ f.payload r)).length =
        flatRowSize f.width.toNat :=
    fun r hr => flatRow_length _ _ (convertRow_length h r (List.mem_range.mp (List.mem_reverse.mp hr)))
  rw [flatFile, List.length_append, flatHeader_length, List.length_flatMap, List.map_congr_left hrow]
  simp [flatDataSize, Nat.mul_comm]

end Sizes

/-- Settles O27: the sizes of the closed forms, with the literals of each. -/
theorem containerSizes : Obligations.ContainerSizes := by
  intro v p f ops h
  dsimp only
  rw [pngPixels_length h, pngStream_length h, pngContainer_length h, flatFile_length h]
  obtain ⟨fmt, -, rfl, -⟩ := acceptFrame_spec h
  rw [← wrappedLen_eq]
  exact ⟨rfl, rfl, rfl, rfl⟩

/-! ### The encoder inside a job (R279, R280, R324, R335) -/

section Capture
variable {s : State} {f : Frame} {ops : EncOperands} {which : List FrameCondition} {bytes : List Byte}

theorem exec_pktStep_capturing (hstate : s.job.state = .capturing) (hframe : s.answers.acquire = .frame f) :
    exec .pktStep s = .next (s.encodeJob f) := by
  simp only [exec, execPktStep, s.workerStep_eq, hstate, State.captureStep, hframe]

theorem State.encodeJob_png_accepted (hcfg : s.cfgVariant = .png) (h : acceptFrame .png s.params f = .ok ops) :
    s.encodeJob f = s.endJobRun .encPng .png f (pngRun (imgSink s) s.params ops f.payload) := by
  simp only [State.encodeJob, hcfg, h]

theorem State.encodeJob_png_refused (hcfg : s.cfgVariant = .png) (h : acceptFrame .png s.params f = .error which) :
    s.encodeJob f = s.refuseJobFrame .encPng which := by
  simp only [State.encodeJob, hcfg, h]

theorem State.encodeJob_flat_refused (hcfg : s.cfgVariant = .flat) (h : acceptFrame .flat s.params f = .error which) :
    s.encodeJob f = s.refuseJobFrame .encFlat which := by
  simp only [State.encodeJob, hcfg, h]

/-- The end of a job's run that stands as a writer of `bytes` does, when the image buffer has room for all of them. -/
theorem State.endJobRun_of_fits (op : Op) (fmt : ImageFormat) (f : Frame) (e : Encoder)
    (hfit : bytes.length ≤ s.params.imgMax.toNat) : s.endJobRun op fmt f (Run.upTo (imgSink s) e bytes) =
      State.imageReady fmt f bytes.length { s with enc := Encoder.finished, img := s.img.writeBytes 0 bytes } := by
  rw [imgSink, Run.upTo_fits hfit, State.endJobRun]

/-- As `State.endJobRun_of_fits`, when the image buffer refuses the byte at `IMG_MAX`. -/
theorem State.endJobRun_of_overflow (op : Op) (fmt : ImageFormat) (f : Frame) (e : Encoder)
    (hover : s.params.imgMax.toNat < bytes.length) : s.endJobRun op fmt f (Run.upTo (imgSink s) e bytes) =
      State.fail .encodeError { s with
        enc := Encoder.failed (Config.imgSinkError s.freeCount)
        img := s.img.writeBytes 0 (bytes.take s.params.imgMax.toNat), freeCount := s.freeCount + 1 } := by
  rw [imgSink, Run.upTo_cut (Nat.not_le.mpr hover), State.endJobRun]

end Capture

/-- Settles O41: the container fits the image buffer or is cut at `IMG_MAX`, with the free value as the sink's error. -/
theorem workerCapturePng : Obligations.WorkerCapturePng := by
  intro s f ops hstate hframe hcfg h
  obtain ⟨e', hrun⟩ := pngRun_eq_upTo h
  dsimp only
  rw [exec_pktStep_capturing hstate hframe, State.encodeJob_png_accepted hcfg h, hrun]
  refine ⟨fun hfit => ?_, fun hover => ⟨Config.imgSinkError s.freeCount, ?_⟩⟩
  · rw [State.endJobRun_of_fits _ _ _ _ hfit]
    rfl
  · rw [State.endJobRun_of_overflow _ _ _ _ hover]
    rfl

/-- Settles O43: either encoder refuses the frame by `State.refuseJobFrame`, whose two writes touch different elements. -/
theorem workerBadFrame : Obligations.WorkerBadFrame := by
  intro s f which hstate hframe
  dsimp only
  rw [exec_pktStep_capturing hstate hframe]
  refine ⟨fun hcfg h => ?_, fun hcfg h => ?_⟩
  · rw [State.encodeJob_png_refused hcfg h]
    rfl
  · rw [State.encodeJob_flat_refused hcfg h]
    rfl

end Sys2Proof.Machine
end

section
/-! PROOFS. The family of 45_flat_encoder.md: the flat encoder inside a job (R250, R279, R280, R324). -/

namespace Sys2Proof.Machine

theorem State.encodeJob_flat_accepted {s : State} {f : Frame} {ops : EncOperands} (hcfg : s.cfgVariant = .flat)
    (h : acceptFrame .flat s.params f = .ok ops) :
    s.encodeJob f = s.endJobRun .encFlat .flat f (flatRun (imgSink s) s.params ops f.payload) := by
  simp only [State.encodeJob, hcfg, h]

/-- Settles O42: the run stands with the image buffer as a writer of the flat file does, so the file fits or is cut at
`IMG_MAX`, with the free value as the sink's error. -/
theorem workerCaptureFlat : Obligations.WorkerCaptureFlat := by
  intro s f ops hstate hframe hcfg h
  obtain ⟨e', hrun⟩ := flatRun_eq_upTo s.params ops f.payload
  dsimp only
  rw [exec_pktStep_capturing hstate hframe, State.encodeJob_flat_accepted hcfg h, hrun]
  exact ⟨fun hfit => congrArg _ (State.endJobRun_of_fits _ _ _ _ hfit),
    fun hover => ⟨_, congrArg _ (State.endJobRun_of_overflow _ _ _ _ hover)⟩⟩

end Sys2Proof.Machine
end

section
/-! PROOFS. The family of 46_packetizer.md: the host operations and events (R261 to R269), the worker's step in every state of
the job (R277 to R281, R290, R296), the transitions of the job (R298), and what the worker does in many steps: it comes back
to `Idle` (R276), a transfer with its peer ends whole (R291), a transfer without it is aborted (R293). -/

namespace Sys2Proof.Machine

/-! ### The host operations and events (R261 to R269) -/

theorem ImageFormat.ofPort?_eq_none_of_lt {variant : Nat} (h : 2 < variant) : ImageFormat.ofPort? variant = none := by
  match variant with
  | 0 | 1 | 2 => omega
  | _ + 3 => rfl

theorem Channel.ofPort?_eq_none_of_lt {ch : Nat} (h : 2 < ch) : Channel.ofPort? ch = none := by
  match ch with
  | 0 | 1 | 2 => omega
  | _ + 3 => rfl

theorem Channel.exists_ofPort?_of_le {ch : Nat} (h : ch ≤ 2) : ∃ c, Channel.ofPort? ch = some c := by
  match ch with
  | 0 | 1 | 2 => exact ⟨_, rfl⟩
  | _ + 3 => omega

section HostOps
variable {s : State} {variant ch : Nat} {fmt : ImageFormat} {c : Channel} {on : Bool}

theorem exec_pktConfig_of_legal (hport : ImageFormat.ofPort? variant = some fmt)
    (hlegal : fmt = .flat → s.params.hasFlatVariant = true) : exec (.pktConfig variant) s =
      .next (if s.job.state = .idle then { s with cfgVariant := fmt } else s) := by
  have hexists : ¬ (fmt = .flat ∧ s.params.hasFlatVariant = false) := by simpa using hlegal
  simp only [exec, execPktConfig, hport, if_neg hexists]
  split <;> rfl

theorem exec_pktConfig_of_illegal (h : 2 < variant ∨ variant = 1 ∧ s.params.hasFlatVariant = false) :
    exec (.pktConfig variant) s = .next (s.raise (.illegalOperand .pktConfig variant)) := by
  rcases h with hlt | ⟨rfl, hflat⟩
  · simp only [exec, execPktConfig, ImageFormat.ofPort?_eq_none_of_lt hlt]
  · exact if_pos ⟨rfl, hflat⟩

theorem State.subscription_of_open (hopen : s.session.connected = true) (c : Channel) (on : Bool) :
    s.subscription c on = { s with session := s.session.setEnabled c on } := if_pos hopen

theorem State.subscription_of_closed (hclosed : s.session.connected = false) (c : Channel) (on : Bool) :
    s.subscription c on = s := if_neg (Bool.eq_false_iff.mp hclosed)

/-- `TRIG` is inbound: there is nothing to subscribe to (R267, R268). -/
theorem State.subscription_trig (s : State) (on : Bool) : s.subscription .trig on = s := by
  unfold State.subscription
  split <;> rfl

theorem exec_pktSubscribe_of_port (hport : Channel.ofPort? ch = some c) :
    exec (.pktSubscribe ch) s = .next (s.subscription c true) := by
  simp only [exec, execPktSubscribe, hport]

theorem exec_pktSubscribe_of_illegal (h : 2 < ch) :
    exec (.pktSubscribe ch) s = .next (s.raise (.illegalOperand .pktSubscribe ch)) := by
  simp only [exec, execPktSubscribe, Channel.ofPort?_eq_none_of_lt h]

theorem exec_pktUnsubscribe_of_port (hport : Channel.ofPort? ch = some c) :
    exec (.pktUnsubscribe ch) s = .next (s.subscription c false) := by
  simp only [exec, execPktUnsubscribe, hport]

theorem exec_pktUnsubscribe_of_illegal (h : 2 < ch) :
    exec (.pktUnsubscribe ch) s = .next (s.raise (.illegalOperand .pktUnsubscribe ch)) := by
  simp only [exec, execPktUnsubscribe, Channel.ofPort?_eq_none_of_lt h]

/-- The legal channels whose subscription is ignored (R267, R268). -/
theorem exists_ofPort?_subscription_eq (h : ch = 0 ∨ s.session.connected = false ∧ ch ≤ 2) (on : Bool) :
    ∃ c, Channel.ofPort? ch = some c ∧ s.subscription c on = s := by
  rcases h with rfl | ⟨hclosed, hle⟩
  · exact ⟨.trig, rfl, s.subscription_trig on⟩
  · obtain ⟨c, hport⟩ := Channel.exists_ofPort?_of_le hle
    exact ⟨c, hport, State.subscription_of_closed hclosed c on⟩

end HostOps

/-- Settles O30: the three legal operands and the illegal ones. -/
theorem pktConfig : Obligations.PktConfig := by
  refine fun s variant fmt => ⟨fun hlegal => ?_, exec_pktConfig_of_illegal⟩
  have hexec : exec (.pktConfig variant) s = .next (if s.job.state = .idle then { s with cfgVariant := fmt } else s) := by
    rcases hlegal with ⟨rfl, rfl⟩ | ⟨rfl, rfl, hflat⟩ | ⟨rfl, rfl⟩
    · exact exec_pktConfig_of_legal rfl nofun
    · exact exec_pktConfig_of_legal rfl fun _ => hflat
    · exact exec_pktConfig_of_legal rfl nofun
  exact ⟨fun hidle => by rw [hexec, if_pos hidle], fun hbusy => by rw [hexec, if_neg hbusy]⟩

/-- Settles O31: the row of the opcode map, and the test-and-set in either case of the job's state. -/
theorem pktTrigger : Obligations.PktTrigger :=
  ⟨decode_opcode .pktTrigger,
    fun _ => ⟨fun hidle => congrArg _ (State.trigger_of_idle hidle),
      fun hbusy => congrArg _ (State.trigger_of_busy hbusy)⟩⟩

/-- Settles O34: the two branches of the event. -/
theorem pktDisconnect : Obligations.PktDisconnect :=
  fun _ => ⟨fun hopen => if_pos hopen, fun hclosed => if_neg (Bool.eq_false_iff.mp hclosed)⟩

/-- Settles O35: the channel of the port, and the subscription it enters or is ignored as. -/
theorem pktSubscribe : Obligations.PktSubscribe := by
  refine ⟨decode_opcode .pktSubscribe, fun s ch => ⟨exec_pktSubscribe_of_illegal, ?_, ?_, fun hignored => ?_⟩⟩
  · rintro hopen rfl
    exact (exec_pktSubscribe_of_port rfl).trans (congrArg _ (State.subscription_of_open hopen .metadata true))
  · rintro hopen rfl
    exact (exec_pktSubscribe_of_port rfl).trans (congrArg _ (State.subscription_of_open hopen .data true))
  · obtain ⟨c, hport, hsame⟩ := exists_ofPort?_subscription_eq hignored true
    rw [exec_pktSubscribe_of_port hport, hsame]

/-- Settles O36: as `pktSubscribe`, with the channel taken out. -/
theorem pktUnsubscribe : Obligations.PktUnsubscribe := by
  refine fun s ch => ⟨exec_pktUnsubscribe_of_illegal, ?_, ?_, fun hignored => ?_⟩
  · rintro hopen rfl
    exact (exec_pktUnsubscribe_of_port rfl).trans (congrArg _ (State.subscription_of_open hopen .metadata false))
  · rintro hopen rfl
    exact (exec_pktUnsubscribe_of_port rfl).trans (congrArg _ (State.subscription_of_open hopen .data false))
  · obtain ⟨c, hport, hsame⟩ := exists_ofPort?_subscription_eq hignored false
    rw [exec_pktUnsubscribe_of_port hport, hsame]

/-- Settles O37: the two branches of the event. -/
theorem pktSetMaxPayload : Obligations.PktSetMaxPayload :=
  fun _ _ => ⟨fun hopen => if_pos hopen, fun hclosed => if_neg (Bool.eq_false_iff.mp hclosed)⟩

/-! ### The worker's step in `Idle`, `Capturing`, `Done` and `Failed` (R277 to R281, R296) -/

theorem exec_pktStep (s : State) : exec .pktStep s = .next s.workerStep := rfl

section WorkerStep
variable {s : State} {f : Frame} {r : Reason}

theorem State.workerStep_idle (hstate : s.job.state = .idle) : s.workerStep = s := by rw [s.workerStep_eq, hstate]

theorem State.workerStep_capturing (hstate : s.job.state = .capturing) : s.workerStep = s.captureStep := by
  rw [s.workerStep_eq, hstate]

theorem State.workerStep_streaming (hstate : s.job.state = .streaming) : s.workerStep = s.streamStep := by
  rw [s.workerStep_eq, hstate]

theorem State.workerStep_done (hstate : s.job.state = .done) : s.workerStep = s.release .done := by
  rw [s.workerStep_eq, hstate]

theorem State.workerStep_failed (hstate : s.job.state = .failed) (hreason : s.job.reason = some r) :
    s.workerStep = s.release (.failed r) := by
  simp only [s.workerStep_eq, hstate, State.releaseFailed, hreason]

theorem State.captureStep_of_no_frame (h : s.answers.acquire = .unavailable ∧ r = .sourceUnavailable ∨
    s.answers.acquire = .timeout ∧ r = .noFrame ∨ s.answers.acquire = .unsupported ∧ r = .unsupportedFormat) :
    s.captureStep = s.fail r := by
  rcases h with ⟨h, rfl⟩ | ⟨h, rfl⟩ | ⟨h, rfl⟩ <;> simp only [State.captureStep, h]

theorem State.captureStep_of_frame (h : s.answers.acquire = .frame f) : s.captureStep = s.encodeJob f := by
  simp only [State.captureStep, h]

/-- Whatever the frame source answers but a frame, the job fails. -/
theorem State.exists_captureStep_eq_fail (h : ∀ f, s.answers.acquire ≠ .frame f) : ∃ r, s.captureStep = s.fail r := by
  cases hanswer : s.answers.acquire with
  | frame f => exact absurd hanswer (h f)
  | unavailable => exact ⟨_, State.captureStep_of_no_frame (.inl ⟨hanswer, rfl⟩)⟩
  | timeout => exact ⟨_, State.captureStep_of_no_frame (.inr (.inl ⟨hanswer, rfl⟩))⟩
  | unsupported => exact ⟨_, State.captureStep_of_no_frame (.inr (.inr ⟨hanswer, rfl⟩))⟩

theorem State.encodeJob_raw_refused (hcfg : s.cfgVariant = .raw) (hdim : dimensionsOk s.params f = false) :
    s.encodeJob f = s.refuseJobFrame .pktStep [.dimensions] := by
  simp only [State.encodeJob, hcfg, hdim, Bool.false_eq_true, if_false]

theorem State.encodeJob_raw_overflow (hcfg : s.cfgVariant = .raw) (hdim : dimensionsOk s.params f = true)
    (hover : s.params.imgMax.toNat < f.payload.length) : s.encodeJob f = s.fail .encodeError := by
  simp only [State.encodeJob, hcfg, hdim, hover, if_true]

theorem State.encodeJob_raw_fits (hcfg : s.cfgVariant = .raw) (hdim : dimensionsOk s.params f = true)
    (hfit : f.payload.length ≤ s.params.imgMax.toNat) : s.encodeJob f =
      State.imageReady .raw f f.payload.length { s with img := s.img.writeBytes 0 f.payload } := by
  simp only [State.encodeJob, hcfg, hdim, hfit.not_gt, if_true, if_false]

end WorkerStep

/-- Settles O38: the worker's step in `Idle`. -/
theorem workerIdle : Obligations.WorkerIdle := fun s hstate => by rw [exec_pktStep, State.workerStep_idle hstate]

/-- Settles O39: each answer fails the job with its reason. -/
theorem workerNoFrame : Obligations.WorkerNoFrame := by
  intro s r hstate hanswer
  rw [exec_pktStep, State.workerStep_capturing hstate, State.captureStep_of_no_frame hanswer]
  rfl

/-- Settles O40: the dimensions are refused, the payload does not fit, or it is stored. -/
theorem workerCaptureRaw : Obligations.WorkerCaptureRaw := by
  intro s f hstate hframe hcfg
  dsimp only
  rw [exec_pktStep_capturing hstate hframe, ← dimensionsOk_iff]
  refine ⟨fun hdim => ?_, fun hdim hover => ?_, fun hdim hfit => ?_⟩
  · rw [State.encodeJob_raw_refused hcfg (Bool.eq_false_iff.mpr hdim)]
    rfl
  · rw [State.encodeJob_raw_overflow hcfg hdim hover]
    rfl
  · rw [State.encodeJob_raw_fits hcfg hdim hfit]
    rfl

/-- Settles O46: the release with the outcome of the state. -/
theorem workerRelease : Obligations.WorkerRelease := by
  refine fun s => ⟨fun hstate => ?_, fun r hstate hreason => ?_⟩
  · rw [exec_pktStep, State.workerStep_done hstate]
    rfl
  · rw [exec_pktStep, State.workerStep_failed hstate hreason]
    rfl

/-- Settles O53: after reset the encoder rests, nothing is stored, no peer is connected and no job exists. -/
theorem invReset : Obligations.InvReset where
  encoder := ⟨.idle, none, rfl, .inl ⟨.inl rfl, rfl⟩⟩
  memory := List.Pairwise.nil
  session := fun _ => ⟨rfl, rfl, rfl⟩
  config := nofun
  faults := List.nodup_nil
  job := ⟨rfl, rfl⟩

/-! ### The worker's step in `Streaming` (R285, R290) -/

section Stream
variable {s t : State} {sent len : Word} {size : Half} {data : List Byte}

theorem State.streamStep_of_all_sent (hsent : s.job.bytesSent = some len) (hsize : s.job.chunkSize = some size)
    (hlen : s.job.imgLen = some len) : s.streamStep = { s with job := { s.job with state := .done } } := by
  simp only [State.streamStep, hsent, hsize, hlen, if_true]

variable (hsent : s.job.bytesSent = some sent) (hsize : s.job.chunkSize = some size) (hlen : s.job.imgLen = some len)
  (hne : sent ≠ len) (hread : s.img.readBytes sent.toNat (chunkLength size sent len) = some data)
include hsent hsize hlen hne hread

theorem State.streamStep_of_unsent (hsend : s.send s.session .data data = none) :
    s.streamStep = s.fail .transferAborted := by
  simp only [State.streamStep, hsent, hsize, hlen, if_neg hne, hread, hsend]

theorem State.streamStep_of_sent (hsend : s.send s.session .data data = some t) :
    s.streamStep = t.advance sent len (chunkLength size sent len) := by
  simp only [State.streamStep, hsent, hsize, hlen, if_neg hne, hread, hsend]

end Stream

/-- A chunk of an announced job is refused by nothing but a lost peer, a missing subscription, or another session (R285). -/
theorem Session.forcesFail_data_eq_false_iff {se : Session} {epoch : Nat} : se.forcesFail (some epoch) .data = false ↔
    se.connected = true ∧ se.notifData = true ∧ se.epoch = epoch := by
  simp [Session.forcesFail, Session.enabled, and_assoc]

/-- `Send` of a chunk delivers the message exactly when the session and the channel let it. -/
theorem State.send_data_eq {s t : State} {epoch : Nat} {data : List Byte} (hepoch : s.job.epoch = some epoch) :
    s.send s.session .data data = some t ↔
      (s.session.connected = true ∧ s.session.notifData = true ∧ s.session.epoch = epoch ∧ s.answers.send = .ok) ∧
        t = { s with outbox := s.outbox ++ [(.data, data)] } := by
  simp only [s.send_eq, hepoch, Session.forcesFail_data_eq_false_iff, and_assoc]

/-- Settles O45: all is sent, the one send fails, or it delivers the chunk. -/
theorem workerStream : Obligations.WorkerStream := by
  intro s sent len size epoch data hstate hsent hsize hlen hepoch
  dsimp only
  rw [exec_pktStep, State.workerStep_streaming hstate]
  refine ⟨?_, fun hlt hread => ?_⟩
  · rintro rfl
    rw [State.streamStep_of_all_sent hsent hsize hlen]
  · have hne : sent ≠ len := by
      rintro rfl
      exact lt_irrefl _ hlt
    refine ⟨fun hrefused => ?_, fun hdelivers => ?_⟩
    · have hsend : s.send s.session .data data = none :=
        Option.eq_none_iff_forall_ne_some.mpr fun t ht => hrefused ((State.send_data_eq hepoch).mp ht).1
      rw [State.streamStep_of_unsent hsent hsize hlen hne hread hsend]
      rfl
    · have hsend := (State.send_data_eq (data := data) hepoch).mpr ⟨hdelivers, rfl⟩
      rw [State.streamStep_of_sent hsent hsize hlen hne hread hsend]
      refine ⟨_, toNat_add_chunkLength size hlt.le, ?_⟩
      simp only [State.advance, hstate]

/-! ### The transitions of the job (R298) -/

/-- The state of the job stays or takes one transition, a failure with its reason. -/
def State.Transitions (s t : State) : Prop :=
  t.job.state = s.job.state ∨
    ∃ r, jobTransition s.job.state t.job.state r = true ∧ (t.job.state = .failed → t.job.reason = r)

section Transitions
variable {i : Instr} {s t : State}

theorem State.Transitions.of_states {before after : PkState} (hs : s.job.state = before) (ht : t.job.state = after)
    (h : jobTransition before after none = true) (hafter : after ≠ .failed) : s.Transitions t :=
  .inr ⟨none, by rw [hs, ht, h], fun hfailed => absurd (ht.symm.trans hfailed) hafter⟩

/-- A failure is entered with the reason it records. -/
theorem State.Transitions.of_failure {before : PkState} {r : Reason} (hs : s.job.state = before)
    (ht : t.job = { s.job with reason := some r, state := .failed }) (h : jobTransition before .failed (some r) = true) :
    s.Transitions t :=
  .inr ⟨some r, by rw [hs, ht, h], fun _ => by rw [ht]⟩

theorem State.Captures.transitions (h : s.Captures t) (hstate : s.job.state = .capturing) : s.Transitions t := by
  cases h with
  | fails r hsub habort => exact .of_failure hstate rfl (by cases r <;> simp_all [jobTransition])
  | refuses | overflows => exact .of_failure hstate rfl rfl
  | readsNoValue => exact .inl rfl
  | stores => exact .of_states hstate rfl rfl nofun

theorem State.Announces.transitions (h : s.Announces t) (hstate : s.job.state = .announcing) : s.Transitions t := by
  cases h with
  | unsubscribed | unsent | refuses => exact .of_failure hstate rfl rfl
  | readsNoValue => exact .inl rfl
  | starts => exact .of_states hstate rfl rfl nofun

theorem State.Streams.transitions (h : s.Streams t) (hstate : s.job.state = .streaming) : s.Transitions t := by
  cases h with
  | allSent => exact .of_states hstate rfl rfl nofun
  | readsNoField | readsNoByte => exact .inl rfl
  | unsent => exact .of_failure hstate rfl rfl
  | sends sent size len =>
    by_cases hend : sent + BitVec.ofNat 32 (chunkLength size sent len) = len
    · exact .of_states hstate (if_pos hend) rfl nofun
    · exact .inl (if_neg hend)

theorem State.Works.transitions (h : s.Works t) : s.Transitions t := by
  cases h with
  | rests | readsNoReason => exact .inl rfl
  | captures hstate h => exact h.transitions hstate
  | announces hstate h => exact h.transitions hstate
  | streams hstate h => exact h.transitions hstate
  | releases outcome hstate =>
    rcases hstate with ⟨hstate, -⟩ | ⟨hstate, -⟩
    · exact .of_states hstate rfl rfl nofun
    · exact .of_states hstate rfl rfl nofun

theorem op_ne_pktStep (hstep : i ≠ .pktStep) : i.op ≠ .pktStep := by
  cases i <;> simp_all [Instr.op]

/-- The operations that start a job (R262, R263). -/
def State.TriggeredBy (s : State) (i : Instr) : Prop :=
  i = .pktTrigger ∨ i = .pktPeerWrite 0x01#8 ∧ s.session.connected = true

/-- Without the worker's step a job is left as it is, or started by a trigger in `Idle`. -/
theorem exec_job_of_not_step (h : exec i s = .next t) (hstep : i ≠ .pktStep) :
    t.job = s.job ∨ s.job.state = .idle ∧ t.job = { s.job with state := .capturing } ∧ s.TriggeredBy i := by
  have htrigger (hi : s.TriggeredBy i) (ht : s.trigger = t) :
      t.job = s.job ∨ s.job.state = .idle ∧ t.job = { s.job with state := .capturing } ∧ s.TriggeredBy i := by
    subst ht
    by_cases hidle : s.job.state = .idle
    · exact .inr ⟨hidle, by rw [State.trigger_of_idle hidle], hi⟩
    · exact .inl (by rw [State.trigger_of_busy hidle])
  cases i
  case pktStep => exact absurd rfl hstep
  case pktTrigger => exact htrigger (.inl rfl) (Host.Outcome.next.inj h)
  case pktPeerWrite byte =>
    simp only [exec, execPktPeerWrite] at h
    split at h
    case isTrue hwrite =>
      obtain ⟨hopen, rfl⟩ := hwrite
      exact htrigger (.inr ⟨rfl, hopen⟩) (Host.Outcome.next.inj h)
    case isFalse =>
      cases h
      exact .inl rfl
  all_goals exact .inl (exec_job_frame h nofun nofun nofun)

theorem exec_job_of_busy (h : exec i s = .next t) (hstep : i ≠ .pktStep) (hbusy : s.job.state ≠ .idle) :
    t.job = s.job :=
  (exec_job_of_not_step h hstep).resolve_right fun ⟨hidle, _⟩ => hbusy hidle

end Transitions

/-- Settles O47: the worker's step takes the transitions of its relation, and nothing else but a trigger in `Idle` moves the
job. -/
theorem jobTransitions : Obligations.JobTransitions := by
  intro i s t h
  by_cases hstep : i = .pktStep
  · subst hstep
    obtain rfl : s.workerStep = t := Host.Outcome.next.inj h
    by_cases hidle : s.job.state = .idle
    · exact .inl (by rw [State.workerStep_idle hidle])
    · exact s.workerStep_works.transitions.imp_right fun ⟨r, htransition, hreason⟩ =>
        ⟨r, htransition, hreason, fun hstate => absurd hstate hidle, fun _ => rfl⟩
  · rcases exec_job_of_not_step h hstep with hjob | ⟨hidle, hjob, htriggers⟩
    · exact .inl (by rw [hjob])
    · have htransition : jobTransition s.job.state t.job.state none = true := by
        rw [hidle, hjob]
        rfl
      have hfailed : t.job.state ≠ .failed := by
        rw [hjob]
        nofun
      exact .inr ⟨none, htransition, fun h => absurd h hfailed, fun _ => htriggers, fun hbusy => absurd hidle hbusy⟩

/-! ### The frame of the image buffer (R279, R296, R371) -/

section ImageFrame
variable {s t : State} {f : Frame} {a : Nat}

/-- What encoding a frame can do, with the number of bytes it stores: a refusal or a `RAW` payload that does not fit stores
none, a `RAW` payload is stored whole, and a run of an encoder stands as a writer of its container does (R279 to R281). -/
inductive State.Encodes (s : State) (f : Frame) : State → Prop where
  | refuses (op : Op) (which : List FrameCondition) (hstored : s.captureStored f = 0) :
      Encodes s f (s.refuseJobFrame op which)
  | exceeds (hstored : s.captureStored f = 0) : Encodes s f (s.fail .encodeError)
  | stores (hstored : s.captureStored f = f.payload.length) :
      Encodes s f (State.imageReady .raw f f.payload.length { s with img := s.img.writeBytes 0 f.payload })
  | runs (op : Op) (fmt : ImageFormat) (e : Encoder) (bytes : List Byte)
      (hstored : s.captureStored f = min bytes.length s.params.imgMax.toNat) :
      Encodes s f (s.endJobRun op fmt f (Run.upTo (imgSink s) e bytes))

theorem State.encodeJob_raw_encodes (hcfg : s.cfgVariant = .raw) : s.Encodes f (s.encodeJob f) := by
  cases hdim : dimensionsOk s.params f with
  | false =>
    rw [State.encodeJob_raw_refused hcfg hdim]
    exact .refuses _ _ (by simp [State.captureStored, hcfg, hdim])
  | true =>
    rcases Nat.lt_or_ge s.params.imgMax.toNat f.payload.length with hover | hfit
    · rw [State.encodeJob_raw_overflow hcfg hdim hover]
      exact .exceeds (by simp [State.captureStored, hcfg, hover])
    · rw [State.encodeJob_raw_fits hcfg hdim hfit]
      exact .stores (by simp [State.captureStored, hcfg, hdim, hfit])

theorem State.encodeJob_png_encodes (hcfg : s.cfgVariant = .png) : s.Encodes f (s.encodeJob f) := by
  cases haccept : acceptFrame .png s.params f with
  | error which =>
    rw [State.encodeJob_png_refused hcfg haccept]
    exact .refuses _ _ (by simp only [State.captureStored, hcfg, haccept])
  | ok ops =>
    obtain ⟨e, hrun⟩ := pngRun_eq_upTo haccept
    rw [State.encodeJob_png_accepted hcfg haccept, hrun]
    exact .runs _ _ _ _ (by simp only [State.captureStored, hcfg, haccept])

theorem State.encodeJob_flat_encodes (hcfg : s.cfgVariant = .flat) : s.Encodes f (s.encodeJob f) := by
  cases haccept : acceptFrame .flat s.params f with
  | error which =>
    rw [State.encodeJob_flat_refused hcfg haccept]
    exact .refuses _ _ (by simp only [State.captureStored, hcfg, haccept])
  | ok ops =>
    obtain ⟨e, hrun⟩ := flatRun_eq_upTo s.params ops f.payload
    rw [State.encodeJob_flat_accepted hcfg haccept, hrun]
    exact .runs _ _ _ _ (by simp only [State.captureStored, hcfg, haccept])

theorem State.encodeJob_encodes (s : State) (f : Frame) : s.Encodes f (s.encodeJob f) := by
  cases hcfg : s.cfgVariant with
  | raw => exact State.encodeJob_raw_encodes hcfg
  | png => exact State.encodeJob_png_encodes hcfg
  | flat => exact State.encodeJob_flat_encodes hcfg

/-- A job's run stores the part of its container below `IMG_MAX` (R280). -/
theorem State.endJobRun_upTo_img (op : Op) (fmt : ImageFormat) (f : Frame) (e : Encoder) (bytes : List Byte) :
    (s.endJobRun op fmt f (Run.upTo (imgSink s) e bytes)).img =
      s.img.writeBytes 0 (bytes.take s.params.imgMax.toNat) := by
  rcases Nat.lt_or_ge s.params.imgMax.toNat bytes.length with hover | hfit
  · rw [State.endJobRun_of_overflow _ _ _ _ hover, State.fail_img]
  · rw [State.endJobRun_of_fits _ _ _ _ hfit, State.imageReady_img, List.take_of_length_le hfit]

theorem State.Encodes.img (h : s.Encodes f t) :
    ∃ out : List Byte, out.length = s.captureStored f ∧ t.img = s.img.writeBytes 0 out := by
  cases h with
  | refuses _ _ hstored | exceeds hstored => exact ⟨[], hstored.symm, rfl⟩
  | stores hstored => exact ⟨f.payload, hstored.symm, rfl⟩
  | runs op fmt e bytes hstored =>
    exact ⟨_, by rw [hstored, List.length_take, min_comm], State.endJobRun_upTo_img ..⟩

/-- Nothing is written at or above what is stored. -/
theorem State.encodeJob_img_read (h : s.captureStored f ≤ a) : (s.encodeJob f).img.read a = s.img.read a := by
  obtain ⟨out, hlength, himg⟩ := (s.encodeJob_encodes f).img
  rw [himg, Memory.read_writeBytes, if_neg (by omega)]

theorem State.workerStep_img_frame
    (hstate : s.job.state = .idle ∨ s.job.state = .announcing ∨ s.job.state = .streaming) :
    s.workerStep.img = s.img := by
  have hworks := s.workerStep_works
  generalize s.workerStep = t at hworks
  cases hworks with
  | rests | readsNoReason => rfl
  | announces _ h => cases h <;> rfl
  | streams _ h => cases h <;> rfl
  | captures h => simp [h] at hstate
  | releases outcome h => rcases h with ⟨h, -⟩ | ⟨h, -⟩ <;> simp [h] at hstate

theorem State.workerStep_img_released (hstate : s.job.state = .done ∨ s.job.state = .failed ∧ s.job.reason ≠ none) :
    s.workerStep.img = [] := by
  rcases hstate with hstate | ⟨hstate, hreason⟩
  · rw [State.workerStep_done hstate, State.release_img]
  · obtain ⟨r, hr⟩ := Option.ne_none_iff_exists'.mp hreason
    rw [State.workerStep_failed hstate hr, State.release_img]

end ImageFrame

/-- Settles O50: the frame of every other operation, and the worker's step in each state of the job. -/
theorem imageFrame : Obligations.ImageFrame := by
  intro i s t h
  refine ⟨fun hstep a => ?_, ?_⟩
  · rw [exec_img_frame h (op_ne_pktStep hstep)]
  · rintro rfl
    obtain rfl : s.workerStep = t := Host.Outcome.next.inj h
    refine ⟨fun hstate a => ?_, fun hstate hnone a => ?_, fun hstate f hframe a ha => ?_, fun hstate a => ?_⟩
    · rw [State.workerStep_img_frame hstate]
    · obtain ⟨r, hfail⟩ := State.exists_captureStep_eq_fail hnone
      rw [State.workerStep_capturing hstate, hfail, State.fail_img]
    · rw [State.workerStep_capturing hstate, State.captureStep_of_frame hframe, State.encodeJob_img_read ha]
    · rw [State.workerStep_img_released hstate]
      rfl

/-! ### The worker comes back to `Idle` (R276, R286, R296, R336) -/

/-- The bytes of the image that are still to be sent; all of them before the transfer starts. -/
def State.unsentBytes (s : State) : Nat := (s.job.imgLen.getD 0).toNat - (s.job.bytesSent.getD 0).toNat

/-- A bound on the worker's steps until the job is released: one byte a step is the slowest transfer. -/
def State.stepsLeft (s : State) : Nat :=
  match s.job.state with
  | .idle => 0
  | .capturing => s.params.imgMax.toNat + 4
  | .announcing => s.unsentBytes + 3
  | .streaming => s.unsentBytes + 2
  | .done | .failed => 1

section StepsLeft
variable {s t : State} {f : Frame}

theorem State.stepsLeft_eq_zero_iff : s.stepsLeft = 0 ↔ s.job.state = .idle := by
  unfold State.stepsLeft
  cases s.job.state <;> simp

/-- The record of a job that waits to be announced. -/
theorem JobOk.announcing (hs : JobOk s) (hstate : s.job.state = .announcing) : ∃ fmt w h len image,
    s.job = ⟨.announcing, none, none, none, none, true, some fmt, some w, some h, some len⟩ ∧
      ImageHeld s.params s.img len image := by
  unfold JobOk at hs
  rwa [hstate] at hs

/-- The record of a transfer. -/
theorem JobOk.transfer (hs : JobOk s) (hstate : s.job.state = .streaming) : ∃ fmt w h len image sent size epoch,
    s.job = ⟨.streaming, none, some sent, some size, some epoch, true, some fmt, some w, some h, some len⟩ ∧
      ImageHeld s.params s.img len image ∧ TransferOk s.params s.session len sent size epoch := by
  unfold JobOk at hs
  rw [hstate] at hs
  obtain ⟨fmt, w, h, len, image, sent, size, epoch, hjob, himage, htransfer, -⟩ := hs
  exact ⟨fmt, w, h, len, image, sent, size, epoch, hjob, himage, htransfer⟩

/-- The record of a failed job names its reason. -/
theorem JobOk.reason_of_failed (hs : JobOk s) (hstate : s.job.state = .failed) : s.job.reason ≠ none := by
  unfold JobOk at hs
  rw [hstate] at hs
  rcases hs with ⟨r, hjob, -⟩ | ⟨r, fmt, w, h, len, image, hjob, -⟩ |
    ⟨fmt, w, h, len, image, sent, size, epoch, hjob, -⟩
  all_goals simp [hjob]

/-- An image held fits the buffer, so no job is further from its end than one that waits for its frame. -/
theorem JobOk.stepsLeft_le (hs : JobOk s) : s.stepsLeft ≤ s.params.imgMax.toNat + 4 := by
  unfold State.stepsLeft
  cases hstate : s.job.state with
  | idle | capturing | done | failed => simp
  | announcing =>
    obtain ⟨fmt, w, h, len, image, hjob, -, hfit⟩ := hs.announcing hstate
    simp only [State.unsentBytes, hjob, Option.getD_some]
    omega
  | streaming =>
    obtain ⟨fmt, w, h, len, image, sent, size, epoch, hjob, ⟨-, hfit⟩, -⟩ := hs.transfer hstate
    simp only [State.unsentBytes, hjob, Option.getD_some]
    omega

/-- A job's run ends in an image or a failure: no register of the encoder is read without a value. -/
theorem State.endJobRun_upTo_state (op : Op) (fmt : ImageFormat) (f : Frame) (e : Encoder) (bytes : List Byte) :
    (s.endJobRun op fmt f (Run.upTo (imgSink s) e bytes)).job.state ≠ .capturing := by
  rcases Nat.lt_or_ge s.params.imgMax.toNat bytes.length with hover | hfit
  · rw [State.endJobRun_of_overflow _ _ _ _ hover]
    nofun
  · rw [State.endJobRun_of_fits _ _ _ _ hfit]
    nofun

theorem State.Encodes.state (h : s.Encodes f t) : t.job.state ≠ .capturing := by
  cases h with
  | refuses | exceeds | stores => nofun
  | runs op fmt e bytes => exact State.endJobRun_upTo_state op fmt f e bytes

theorem State.captureStep_state : s.captureStep.job.state ≠ .capturing := by
  unfold State.captureStep
  cases s.answers.acquire with
  | frame f => exact (s.encodeJob_encodes f).state
  | unavailable | timeout | unsupported => nofun

theorem State.Captures.stepsLeft_lt (h : s.Captures t) (hstate : s.job.state = .capturing)
    (hleft : t.job.state ≠ .capturing) : t.stepsLeft < s.params.imgMax.toNat + 4 := by
  cases h with
  | fails | refuses | overflows => exact Nat.lt_add_left _ (by decide : 1 < 4)
  | readsNoValue => exact absurd hstate hleft
  | stores e he fmt f out hfit =>
    have hlen : (BitVec.ofNat 32 out.length).toNat ≤ out.length := Nat.mod_le ..
    simp only [State.stepsLeft, State.unsentBytes, State.imageReady, Option.getD_some]
    omega

theorem State.Announces.stepsLeft_lt (h : s.Announces t) (hs : JobOk s) (hstate : s.job.state = .announcing) :
    t.stepsLeft < s.unsentBytes + 3 := by
  obtain ⟨fmt, w, hh, len, image, hjob, -⟩ := hs.announcing hstate
  cases h with
  | unsubscribed | unsent | refuses => exact Nat.lt_add_left _ (by decide : 1 < 3)
  | readsNoValue hnone => simp [hjob] at hnone
  | starts => simp [State.stepsLeft, State.unsentBytes, hjob]

theorem State.Streams.stepsLeft_lt (h : s.Streams t) (hs : JobOk s) (hstate : s.job.state = .streaming) :
    t.stepsLeft < s.unsentBytes + 2 := by
  obtain ⟨fmt, w, hh, len, image, sent, size, epoch, hjob, himage, htransfer⟩ := hs.transfer hstate
  have hle := htransfer.sent_le
  cases h with
  | allSent | unsent => exact Nat.lt_add_left _ (by decide : 1 < 2)
  | readsNoField r hnone => simp [hjob] at hnone
  | readsNoByte sent' size' len' hsent hsize hlen hnone =>
    rw [hjob] at hsent hsize hlen
    cases hsent; cases hsize; cases hlen
    rw [himage.readBytes (add_chunkLength_le size hle)] at hnone
    cases hnone
  | sends sent' size' len' data hsent hsize hlen hne =>
    rw [hjob] at hsent hsize hlen
    cases hsent; cases hsize; cases hlen
    obtain ⟨hpos, -⟩ := htransfer
    have hadd := toNat_add_chunkLength size hle
    have hchunk : 1 ≤ chunkLength size sent len := le_min hpos (Nat.sub_pos_of_lt (toNat_lt_of_ne hle hne))
    have hend := add_chunkLength_le size hle
    simp only [State.stepsLeft, State.unsentBytes, State.advance_job, hjob, Option.getD_some]
    by_cases hlast : sent + BitVec.ofNat 32 (chunkLength size sent len) = len
    · simp only [if_pos hlast]
      omega
    · simp only [if_neg hlast]
      omega

/-- Every worker step brings the job nearer to its release. -/
theorem JobOk.workerStep_stepsLeft_le (hs : JobOk s) : s.workerStep.stepsLeft ≤ s.stepsLeft - 1 := by
  have hworks := s.workerStep_works
  have hcaptures := State.workerStep_capturing (s := s)
  generalize s.workerStep = t at hworks hcaptures
  cases hworks with
  | rests hstate => rw [State.stepsLeft_eq_zero_iff.mpr hstate]
  | captures hstate h =>
    have hlt := h.stepsLeft_lt hstate (hcaptures hstate ▸ State.captureStep_state)
    simp only [State.stepsLeft, hstate] at hlt ⊢
    omega
  | announces hstate h =>
    have hlt := h.stepsLeft_lt hs hstate
    simp only [State.stepsLeft, hstate] at hlt ⊢
    omega
  | streams hstate h =>
    have hlt := h.stepsLeft_lt hs hstate
    simp only [State.stepsLeft, hstate] at hlt ⊢
    omega
  | releases => exact Nat.zero_le _
  | readsNoReason hstate hnone => exact absurd hnone (hs.reason_of_failed hstate)

theorem Inv.withAnswers (hs : Inv s) (a : Answers) : Inv { s with answers := a } :=
  ⟨hs.encoder, hs.memory, hs.session, hs.config, hs.faults, hs.job⟩

theorem State.runWorker_cons (s : State) (a : Answers) (as : List Answers) :
    s.runWorker (a :: as) = (State.workerStep { s with answers := a }).runWorker as := rfl

theorem Inv.runWorker_stepsLeft_le (hs : Inv s) (as : List Answers) :
    (s.runWorker as).stepsLeft ≤ s.stepsLeft - as.length := by
  induction as generalizing s with
  | nil => exact le_rfl
  | cons a as ih =>
    have hs' := hs.withAnswers a
    have hstep : (State.workerStep { s with answers := a }).stepsLeft ≤ s.stepsLeft - 1 :=
      hs'.job.workerStep_stepsLeft_le
    have hrest := ih (exec_inv (exec_pktStep _) hs')
    rw [State.runWorker_cons, List.length_cons]
    omega

end StepsLeft

/-- Settles O56: the bound on the steps left is at most `IMG_MAX + 4`, and each step takes one off. -/
theorem workerReturns : Obligations.WorkerReturns := by
  intro s as hs hlength
  have hleft := hs.runWorker_stepsLeft_le as
  have hbound := hs.job.stepsLeft_le
  exact State.stepsLeft_eq_zero_iff.mp (by omega)

/-! ### A transfer with its peer ends whole (R290, R291, R381) -/

/-- `n` messages on the channel `DATA`, one for each piece of `size` bytes, from the first byte on. -/
def dataMessages (size n : Nat) (bytes : List Byte) : List (Channel × List Byte) :=
  (List.range n).map fun k => (Channel.data, (bytes.drop (k * size)).take size)

/-- A transfer in hand: `sent` bytes of the image are counted, and the session it was announced to is still there. -/
structure State.Transferring (s : State) (sent len : Word) (size : Half) (image : List Byte) : Prop where
  state : s.job.state = .streaming
  bytesSent : s.job.bytesSent = some sent
  chunkSize : s.job.chunkSize = some size
  imgLen : s.job.imgLen = some len
  epoch : s.job.epoch = some s.session.epoch
  connected : s.session.connected = true
  notifData : s.session.notifData = true
  image : s.img.readBytes 0 len.toNat = some image

section Transfer
variable {s : State} {sent len : Word} {size : Half} {image : List Byte}

theorem dataMessages_succ (size n : Nat) (bytes : List Byte) :
    dataMessages size (n + 1) bytes = (Channel.data, bytes.take size) :: dataMessages size n (bytes.drop size) := by
  simp [dataMessages, List.range_succ_eq_map, Nat.succ_mul, Nat.add_comm]

/-- The next chunk is the next piece: `chunk_size` bytes or what is left of the image (R290). -/
theorem take_chunkLength (hlength : image.length = len.toNat) :
    (image.drop sent.toNat).take (chunkLength size sent len) = (image.drop sent.toNat).take size.toNat := by
  rw [chunkLength, ← hlength, ← List.length_drop, ← List.take_eq_take_min]

/-- The steps a transfer takes: one for a last piece, one more than the rest takes otherwise. -/
theorem ceilDiv_of_le {left size : Nat} (hpos : 1 ≤ left) (h : left ≤ size) : ceilDiv left size = 1 :=
  Nat.div_eq_of_lt_le (by omega) (by omega)

theorem ceilDiv_of_lt {left size : Nat} (hsize : 1 ≤ size) (h : size < left) :
    ceilDiv left size = ceilDiv (left - size) size + 1 := by
  have hsplit : left + size - 1 = (left - size + size - 1) + size := by omega
  rw [ceilDiv, ceilDiv, hsplit, Nat.add_div_right _ hsize]

namespace State.Transferring

theorem withAnswers (h : s.Transferring sent len size image) (a : Answers) :
    State.Transferring { s with answers := a } sent len size image :=
  ⟨h.state, h.bytesSent, h.chunkSize, h.imgLen, h.epoch, h.connected, h.notifData, h.image⟩

theorem workerStep_eq (h : s.Transferring sent len size image) (hlt : sent.toNat < len.toNat)
    (hok : s.answers.send = .ok) : s.workerStep = State.advance sent len (chunkLength size sent len)
      { s with outbox := s.outbox ++ [(.data, (image.drop sent.toNat).take size.toNat)] } := by
  have hne : sent ≠ len := by
    rintro rfl
    exact lt_irrefl _ hlt
  have hread := Memory.readBytes_part h.image _ _ (add_chunkLength_le size hlt.le)
  rw [take_chunkLength (Memory.length_of_readBytes h.image)] at hread
  rw [State.workerStep_streaming h.state]
  exact State.streamStep_of_sent h.bytesSent h.chunkSize h.imgLen hne hread
    ((State.send_data_eq h.epoch).mpr ⟨⟨h.connected, h.notifData, rfl, hok⟩, rfl⟩)

/-- After a chunk that is not the last the transfer goes on. -/
theorem afterChunk (h : s.Transferring sent len size image) (hlt : sent.toNat < len.toNat) (hok : s.answers.send = .ok)
    (hmore : sent + BitVec.ofNat 32 (chunkLength size sent len) ≠ len) :
    s.workerStep.Transferring (sent + BitVec.ofNat 32 (chunkLength size sent len)) len size image := by
  rw [h.workerStep_eq hlt hok]
  exact ⟨(if_neg hmore).trans h.state, rfl, h.chunkSize, h.imgLen, h.epoch, h.connected, h.notifData, h.image⟩

/-- As many steps as there are pieces left send them in order and end the job. -/
theorem runWorker (h : s.Transferring sent len size image) (hsize : 1 ≤ size.toNat) (hlt : sent.toNat < len.toNat)
    {as : List Answers} (hok : ∀ a ∈ as, a.send = .ok)
    (hlength : as.length = ceilDiv (len.toNat - sent.toNat) size.toNat) :
    (s.runWorker as).job.state = .done ∧ (s.runWorker as).job.bytesSent = some len ∧
      (s.runWorker as).outbox = s.outbox ++ dataMessages size.toNat as.length (image.drop sent.toNat) := by
  induction as generalizing s sent with
  | nil =>
    have hpos : 0 < ceilDiv (len.toNat - sent.toNat) size.toNat := Nat.div_pos (by omega) hsize
    exact absurd hlength hpos.ne
  | cons a as ih =>
    rw [List.forall_mem_cons] at hok
    obtain ⟨hoka, hok⟩ := hok
    have h' := h.withAnswers a
    have hstep := h'.workerStep_eq hlt hoka
    have hadd := toNat_add_chunkLength size hlt.le
    rw [State.runWorker_cons, List.length_cons, dataMessages_succ]
    by_cases hend : sent + BitVec.ofNat 32 (chunkLength size sent len) = len
    · have hlast : len.toNat - sent.toNat ≤ size.toNat := by
        rw [hend, chunkLength] at hadd
        omega
      rw [List.length_cons, ceilDiv_of_le (by omega) hlast, Nat.add_eq_right, List.length_eq_zero_iff] at hlength
      subst hlength
      rw [hstep]
      exact ⟨if_pos hend, congrArg some hend, rfl⟩
    · have hchunk : chunkLength size sent len = size.toNat := (chunkLength_cases size hlt.le).resolve_right hend
      have hlt' := toNat_lt_of_ne (hadd ▸ add_chunkLength_le size hlt.le) hend
      have hmore := h'.afterChunk hlt hoka hend
      rw [hadd, hchunk] at hlt'
      rw [List.length_cons, ceilDiv_of_lt hsize (by omega), Nat.add_right_cancel_iff] at hlength
      obtain ⟨hstate, hsent, hout⟩ := ih hmore (by rwa [hadd, hchunk]) hok (by rwa [hadd, hchunk, ← Nat.sub_sub])
      refine ⟨hstate, hsent, hout.trans ?_⟩
      rw [hstep, hadd, hchunk, ← List.drop_drop, State.advance_outbox, List.append_assoc]
      rfl

end State.Transferring

end Transfer

/-- Settles O57: the transfer from its first byte on. -/
theorem streamingCompletes : Obligations.StreamingCompletes := by
  intro s as size len image hstate hsent hsize hpos hlen hlenpos hepoch hopen hdata hread hok hlength
  exact State.Transferring.runWorker ⟨hstate, hsent, hsize, hlen, hepoch, hopen, hdata, hread⟩ hpos hlenpos hok hlength

/-! ### A transfer without its peer is aborted (R266, R285, R293) -/

/-- The peer the job was announced to is gone: whoever is connected now came later. -/
def State.PeerGone (s : State) : Prop :=
  ∀ epoch, s.job.epoch = some epoch → s.session.connected = true → epoch < s.session.epoch

section PeerGone
variable {i : Instr} {s t : State} {data : List Byte}

/-- A session opens by connecting alone, with the next epoch (R265). -/
theorem exec_epoch_lt_of_opens (h : exec i s = .next t) (hclosed : s.session.connected = false)
    (hopen : t.session.connected = true) : s.session.epoch < t.session.epoch := by
  have hsame (hsession : t.session = s.session) : s.session.epoch < t.session.epoch :=
    absurd (hopen.symm.trans ((congrArg Session.connected hsession).trans hclosed)) (by decide)
  cases i
  case pktConnect =>
    cases ((pktConnect s).1 hclosed).symm.trans h
    exact Nat.lt_succ_self _
  case pktDisconnect =>
    cases ((pktDisconnect s).2 hclosed).symm.trans h
    exact hsame rfl
  case pktSetMaxPayload v =>
    cases ((pktSetMaxPayload s v).2 hclosed).symm.trans h
    exact hsame rfl
  case pktSubscribe | pktUnsubscribe =>
    simp only [exec, execPktSubscribe, execPktUnsubscribe, State.subscription_of_closed hclosed] at h
    split at h <;> cases h <;> exact hsame rfl
  all_goals exact hsame (exec_session_of_not_event h rfl)

/-- A transferring job belongs to no session later than the present one (R38, R44). -/
theorem JobOk.epoch_le (hs : JobOk s) (hstate : s.job.state = .streaming) {epoch : Nat}
    (hepoch : s.job.epoch = some epoch) : epoch ≤ s.session.epoch := by
  obtain ⟨fmt, w, h, len, image, sent, size, epoch', hjob, -, ⟨-, -, -, -, hle⟩⟩ := hs.transfer hstate
  rw [hjob] at hepoch
  cases hepoch
  exact hle

theorem exec_pktDisconnect_after (s : State) : exec .pktDisconnect s = .next (s.after .pktDisconnect) := by
  simp only [State.after, exec, execPktDisconnect]
  split <;> rfl

theorem exec_pktDisconnect_closed (h : exec .pktDisconnect s = .next t) : t.session.connected = false := by
  cases hopen : s.session.connected with
  | true =>
    cases ((pktDisconnect s).1 hopen).symm.trans h
    rfl
  | false =>
    cases ((pktDisconnect s).2 hopen).symm.trans h
    exact hopen

/-- No event brings the peer back: a new one has a new epoch. -/
theorem State.PeerGone.exec (hgone : s.PeerGone) (hs : JobOk s) (hstate : s.job.state = .streaming)
    (hjob : t.job = s.job) (h : exec i s = .next t) : t.PeerGone := by
  intro epoch hepoch hopen
  rw [hjob] at hepoch
  cases hbefore : s.session.connected with
  | true => exact (hgone epoch hepoch hbefore).trans_le (exec_session_change h).epoch_le
  | false => exact (hs.epoch_le hstate hepoch).trans_lt (exec_epoch_lt_of_opens h hbefore hopen)

/-- The job of `s` stands as it did, with nothing sent since, and its peer is gone. -/
structure State.Orphans (s t : State) : Prop where
  inv : Inv t
  job : t.job = s.job
  outbox : t.outbox = s.outbox
  gone : t.PeerGone

theorem State.after_cases (i : Instr) (s : State) : s.after i = s ∨ exec i s = .next (s.after i) := by
  unfold State.after
  cases exec i s with
  | next t => exact .inr rfl
  | fault r | refused r => exact .inl rfl

theorem State.Orphans.after (h : s.Orphans t) (hstate : s.job.state = .streaming) (hstep : i ≠ .pktStep) (a : Answers) :
    s.Orphans (State.after i { t with answers := a }) := by
  have hinv := h.inv.withAnswers a
  rcases State.after_cases i { t with answers := a } with hsame | hexec
  · rw [hsame]
    exact ⟨hinv, h.job, h.outbox, h.gone⟩
  · have hstate' : t.job.state = .streaming := by rw [h.job, hstate]
    have hjob := exec_job_of_busy hexec hstep (by simp [hstate'])
    exact ⟨exec_inv hexec hinv, hjob.trans h.job, (exec_outbox_frame hexec (op_ne_pktStep hstep)).trans h.outbox,
      State.PeerGone.exec (s := { t with answers := a }) h.gone hinv.job hstate' hjob hexec⟩

theorem State.Orphans.runSchedule (h : s.Orphans t) (hstate : s.job.state = .streaming) {sched : List (Instr × Answers)}
    (hsched : ∀ x ∈ sched, x.1 ≠ .pktStep) : s.Orphans (t.runSchedule sched) := by
  induction sched generalizing t with
  | nil => exact h
  | cons x sched ih =>
    rw [List.forall_mem_cons] at hsched
    obtain ⟨hstep, hsched⟩ := hsched
    exact ih (h.after hstate hstep x.2) hsched

/-- Disconnecting orphans a transfer, whether or not its peer was still connected (R266). -/
theorem Inv.orphans_of_disconnect (hs : Inv s) (hstate : s.job.state = .streaming) :
    s.Orphans (s.after .pktDisconnect) := by
  have hexec := exec_pktDisconnect_after s
  refine ⟨exec_inv hexec hs, exec_job_of_busy hexec (by nofun) (by simp [hstate]), exec_outbox_frame hexec (by nofun),
    fun epoch _ hopen => ?_⟩
  exact absurd (hopen.symm.trans (exec_pktDisconnect_closed hexec)) (by decide)

/-- No chunk of an orphaned job is sent, whatever the channel answers (R285). -/
theorem State.PeerGone.send_eq_none (hgone : s.PeerGone) {epoch : Nat} (hepoch : s.job.epoch = some epoch) :
    s.send s.session .data data = none := by
  refine Option.eq_none_iff_forall_ne_some.mpr fun t ht => ?_
  obtain ⟨⟨hopen, -, hsame, -⟩, -⟩ := (State.send_data_eq hepoch).mp ht
  exact (hgone epoch hepoch hopen).ne' hsame

/-- The worker's step of a transfer without its peer. -/
theorem Inv.workerStep_of_peerGone (hs : Inv s) (hgone : s.PeerGone) (hstate : s.job.state = .streaming)
    (hmore : s.job.bytesSent ≠ s.job.imgLen) : s.workerStep = s.fail .transferAborted := by
  obtain ⟨fmt, w, h, len, image, sent, size, epoch, hjob, himage, htransfer⟩ := hs.job.transfer hstate
  have hne : sent ≠ len := by
    rintro rfl
    exact hmore (by rw [hjob])
  rw [State.workerStep_streaming hstate]
  exact State.streamStep_of_unsent (by rw [hjob]) (by rw [hjob]) (by rw [hjob]) hne
    (himage.readBytes (add_chunkLength_le size htransfer.sent_le)) (hgone.send_eq_none (by rw [hjob]))

end PeerGone

/-- Settles O58: the disconnect orphans the job, nothing but the worker's step changes that, and that step aborts it. -/
theorem disconnectAborts : Obligations.DisconnectAborts := by
  intro s a b between hs hstate hmore hbetween
  have horphans := ((hs.withAnswers a).orphans_of_disconnect hstate).runSchedule hstate hbetween
  have hrun : s.runSchedule ((.pktDisconnect, a) :: (between ++ [(.pktStep, b)])) = State.workerStep
      { (State.after .pktDisconnect { s with answers := a }).runSchedule between with answers := b } :=
    State.runSchedule_append ..
  dsimp only
  rw [hrun]
  generalize (State.after .pktDisconnect { s with answers := a }).runSchedule between = t at horphans
  obtain ⟨hinv, hjob, hout, hgone⟩ := horphans
  rw [(hinv.withAnswers b).workerStep_of_peerGone hgone (by rw [hjob, hstate]) (by rwa [hjob])]
  exact ⟨by rw [State.fail_job, hjob], hout⟩

end Sys2Proof.Machine
end

section
/-! PROOFS. The families of 60_exceptions.md and 70_reset_and_hazards.md: no operation and no step stops the block (R330),
and the reset state (R360). -/

namespace Sys2Proof.Machine

section NextState
variable {s : State}

/-- Every branch of every operation ends in a next state (R330). Most operations have one branch or two; `ENC_FLAT` and
`PKT_CONFIG` have more, by the flat variant, and go by their laws. -/
theorem exec_next (i : Instr) (s : State) : ∃ t, exec i s = .next t := by
  cases i
  case crcInit | adlerInit | adlerLoad | pktTrigger | pktStep => exact ⟨_, rfl⟩
  case crcUpdate | crcFinal | adlerUpdate | adlerRead | convRgb565 | convYuyv | encPng | pktPeerWrite | pktConnect
      | pktDisconnect | pktSubscribe | pktUnsubscribe | pktSetMaxPayload =>
    simp only [exec, execCrcUpdate, execCrcFinal, execAdlerUpdate, execAdlerRead, execConvRgb565, execConvYuyv,
      execEncPng, execPktPeerWrite, execPktConnect, execPktDisconnect, execPktSubscribe, execPktUnsubscribe,
      execPktSetMaxPayload]
    split <;> exact ⟨_, rfl⟩
  case encFlat f =>
    cases hflat : s.params.hasFlatVariant with
    | false => exact ⟨_, exec_encFlat_illegal hflat f⟩
    | true =>
      cases haccept : acceptFrame .flat s.params f with
      | ok ops => exact ⟨_, exec_encFlat_accepted hflat haccept⟩
      | error which => exact ⟨_, exec_encFlat_refused hflat haccept⟩
  case pktConfig variant =>
    match variant with
    | 0 | 2 => exact ⟨_, exec_pktConfig_of_legal rfl nofun⟩
    | 1 =>
      cases hflat : s.params.hasFlatVariant with
      | true => exact ⟨_, exec_pktConfig_of_legal rfl fun _ => hflat⟩
      | false => exact ⟨_, exec_pktConfig_of_illegal (.inr ⟨rfl, hflat⟩)⟩
    | v + 3 => exact ⟨_, exec_pktConfig_of_illegal (.inl (by omega))⟩

theorem step_of_no_input (hinputs : s.inputs = []) : step s = .next s := by
  simp only [step, State.takeRequest, hinputs]

/-- A step runs one operation, rejects its command, or finds none (R330, R385). -/
theorem step_next (s : State) : ∃ t, step s = .next t := by
  cases hinputs : s.inputs with
  | nil => exact ⟨s, step_of_no_input hinputs⟩
  | cons r rest =>
    cases hdecode : decode r.command with
    | ok i =>
      rw [step_of_decode_ok hinputs hdecode]
      exact exec_next i (s.taken rest r.answers)
    | error e => exact ⟨_, step_of_decode_error hinputs hdecode⟩

end NextState

/-- Settles O6: every operation gives a next state, so every step does, and one without a request gives its own. -/
theorem neverStops : Obligations.NeverStops :=
  ⟨exec_next, step_next, fun _ => step_of_no_input⟩

/-- Settles O52: each element is the table's by definition of `State.reset`, and an empty buffer lists no address. -/
theorem resetState : Obligations.ResetState := by
  have himg (a : Nat) : State.reset.img.read a = none := Memory.read_none_of_lt (List.forall_mem_nil _)
  exact ⟨rfl, rfl, rfl, rfl, rfl, rfl, rfl, rfl, rfl, rfl, rfl, rfl, rfl, rfl, himg, rfl, rfl, rfl, rfl, rfl, rfl, rfl, rfl,
    rfl, rfl, rfl, rfl⟩

end Sys2Proof.Machine
end
